-- ==== Sys2Proof/Word.lean ====
section
/-!
DEFINITION. The word types of the block (spec 00_scope.md rules R6 and R7): a byte, a 64-bit two's
complement fixed-point register, and the 10-bit dispatch key of a term.
-/

namespace Sys2Proof

/-- A byte, an integer 0 to 255 (R7). -/
abbrev Byte := BitVec 8

/-- A scaled fixed-point register: `FXW` = 64 bits, two's complement (R6, R36). -/
abbrev Fx := BitVec 64

/-- The dispatch key `{p.kind[1:0], p.tidx[7:0]}` (R97). -/
abbrev Key := BitVec 10

/-- The text of a term: its characters in arrival order, first received first. -/
abbrev Text := List Byte

end Sys2Proof
end

