-- ==== Sys2Proof/Config.lean ====
section
/-!
DEFINITION. The elaboration parameters of the block (spec 00_scope.md rule R6 and
93_implementation_defined.md section 3) and its free values (93_implementation_defined.md U1).
-/

namespace Sys2Proof

/-- `P_ID_MATCH`: how term 0 is compared with the four identifiers (R6, R141). -/
inductive IdMatch where
  /-- `EXACT`: the whole term equals the literal. -/
  | wholeTerm
  /-- `PREFIX6`: the first six characters equal the literal. -/
  | prefix6
deriving DecidableEq, Repr

/-- `P_HEX_INVALID`: what a non-hexadecimal character in the checksum term does (R6, R193). -/
inductive HexInvalid where
  /-- `ZERO`: it counts as nibble 0. -/
  | zero
  /-- `REJECT`: the checksum cannot match. -/
  | reject
deriving DecidableEq, Repr

/-- The setting for the reserved ring command 7 (R114, U4). -/
inductive ReservedCommand where
  /-- It changes no state and returns 0 (the spec's default). -/
  | noOperation
  /-- It is refused (the other admissible setting). -/
  | refuse
deriving DecidableEq, Repr

/-- The number of cells of the backing array: an integer of 2 or more. There is no block with fewer
cells (R6, R201, 92_eei_decisions.md D17), so the bound stands in the type. -/
abbrev CellCount := {n : Nat // 2 ≤ n}

/-- The parameters fixed for the life of the block (R6, R44). -/
structure Config where
  /-- `C`, the size of the backing array. -/
  cells : CellCount
  /-- `P_ID_MATCH`. -/
  idMatch : IdMatch
  /-- `P_HEX_INVALID`. -/
  hexInvalid : HexInvalid
  /-- The setting of reserved ring command 7. -/
  reserved : ReservedCommand
deriving DecidableEq, Repr

/-- `C` as a number. -/
abbrev Config.C (c : Config) : Nat := c.cells.val

/-- `CURW = max(1, ceil(log2 C))`, the width of a cursor in bits (R6). -/
def Config.cursorBits (c : Config) : Nat := max 1 (Nat.clog 2 c.C)

/-- DESIGN CHOICE (log 4), unsafe: the parameters of `State.reset`. The spec gives `C` no default; the other
three are at the defaults of 93_implementation_defined.md section 3. -/
def Config.initial : Config :=
  { cells := ⟨8, by decide⟩, idMatch := .wholeTerm, hexInvalid := .zero, reserved := .noOperation }

/-- FREE VALUE (U1, R42, R85; log 5), safe: the byte that a cell of the backing array holds while nothing has
written it since hardware reset number `epoch`. It has no body: nothing can be proved of it. -/
opaque Config.unwrittenCell : (epoch : Nat) → (cell : Nat) → Byte

end Sys2Proof
end

