-- ==== Sys2Proof/Syntax.lean ====
section
/-!
DEFINITION. What an agent presents to the block (`Transaction`, spec 30_encoding.md rules R91, R97, R110,
R112) and the operations of the block (`Instr`, rule R5), one constructor per row of opcode_table.json.
-/

namespace Sys2Proof

/-- The two agents that have a ring-buffer command port of their own (R12, R112). -/
inductive Agent where
  | producer
  | consumer
deriving DecidableEq, Repr

/-- The four formats of the operation table (R117). -/
inductive Format where
  /-- An input byte (R92). -/
  | byte
  /-- A parser-port command (R110). -/
  | pcmd
  /-- A ring-buffer-port command (R112). -/
  | rbcmd
  /-- A dispatch key (R97). -/
  | term
deriving DecidableEq, Repr

/-- One transaction: the signals an agent drives on a port, before they are decoded (R110, R112). It is what
an encoded instruction is on a processor. -/
inductive Transaction where
  /-- One input byte given to the parser (R91). -/
  | byte (b : Byte)
  /-- The parser port: `p_cmd`, `p_byte`, and for `P_PROCESS` a byte string and its length (R110). -/
  | parser (cmd : BitVec 2) (pbyte : Byte) (bytes : List Byte) (len : Nat)
  /-- One agent's ring-buffer port: `rb_cmd`, the count, the skip and the data bytes (R112). -/
  | ring (port : Agent) (cmd : BitVec 3) (n skip : Nat) (data : List Byte)
  /-- A dispatch key on its own (R97; log 3: in the hardware the key is internal). -/
  | term (key : Key)
deriving DecidableEq, Repr

/-- The operations of the block: one constructor per row of opcode_table.json, in its order. -/
inductive Instr where
  /-- `PB_DOLLAR` (R125). -/
  | pbDollar
  /-- `PB_COMMA` (R126). -/
  | pbComma
  /-- `PB_STAR` (R127). -/
  | pbStar
  /-- `PB_CR` (R128). -/
  | pbCr
  /-- `PB_OTHER` (R129), with the byte. -/
  | pbOther (b : Byte)
  /-- `P_NOP` (R110). -/
  | pNop
  /-- `P_INIT` (R123). -/
  | pInit
  /-- `PB` (R124), with `p_byte`. -/
  | pb (b : Byte)
  /-- `P_PROCESS` (R130), with the span; its length is `len`. -/
  | pProcess (bytes : List Byte)
  /-- `RB_INIT` (R201), issued on either port. -/
  | rbInit (port : Agent)
  /-- `RB_RESET` (R202), issued on either port. -/
  | rbReset (port : Agent)
  /-- `RB_WRITE` (R205), with its data; its length is `n`. -/
  | rbWrite (data : List Byte)
  /-- `RB_READ` (R206), with the most bytes wanted. -/
  | rbRead (n : Nat)
  /-- `RB_PEEK` (R207), with the skip and the most bytes wanted. -/
  | rbPeek (skip n : Nat)
  /-- `RB_FREE` (R204), issued on either port. -/
  | rbFree (port : Agent)
  /-- `RB_OCC` (R203), issued on either port. -/
  | rbOcc (port : Agent)
  /-- The reserved ring command 7 (R215), issued on either port. -/
  | rbRsvd7 (port : Agent)
  /-- `T_ID` (R141). -/
  | tId
  /-- `GGA_TIME` (R142). -/
  | ggaTime
  /-- `GGA_LAT` (R143). -/
  | ggaLat
  /-- `GGA_NS` (R144). -/
  | ggaNs
  /-- `GGA_LON` (R145). -/
  | ggaLon
  /-- `GGA_EW` (R146). -/
  | ggaEw
  /-- `GGA_FIXQ` (R147). -/
  | ggaFixq
  /-- `GGA_SATS` (R148). -/
  | ggaSats
  /-- `GGA_ALT` (R149). -/
  | ggaAlt
  /-- `GGA_GEOID` (R150). -/
  | ggaGeoid
  /-- `RMC_VALID` (R152). -/
  | rmcValid
  /-- `RMC_SPEED` (R153). -/
  | rmcSpeed
  /-- `RMC_COURSE` (R154). -/
  | rmcCourse
  /-- `RMC_DATE` (R155). -/
  | rmcDate
  /-- `RMC_VAR` (R156). -/
  | rmcVar
  /-- `RMC_VAREW` (R157). -/
  | rmcVarew
  /-- `T_NONE` (R159), with the kind bits and the index of the key that selected it. -/
  | tNone (kind : BitVec 2) (tidx : Byte)
deriving DecidableEq, Repr

end Sys2Proof
end

