-- ==== Sys2Proof/WellFormed.lean ====
section
/-!
DEFINITION. Which operands an operation may carry: the byte of `PB_OTHER` is none of the four special bytes
(spec 30_encoding.md rule R92) and the key of `T_NONE` is one that no other row matches (rules R97, R117).
Every other operand may have any value of its type.
-/

namespace Sys2Proof

/-- The four byte values that have a class of their own: `'$'`, `','`, `'*'`, `'\r'` (R92). -/
def isSpecialByte (b : Byte) : Bool :=
  b == 0x24 || b == 0x2C || b == 0x2A || b == 0x0D

/-- The term indices that the GGA field table decodes (R95). -/
def ggaIndices : List Byte := [1, 2, 3, 4, 5, 6, 7, 9, 11]

/-- The term indices that the RMC field table decodes (R96). -/
def rmcIndices : List Byte := [2, 7, 8, 9, 10, 11]

/-- The key `{kind, tidx}` matches no row but the default row `T_NONE` (R97, R117). -/
def selectsNothing (kind : BitVec 2) (tidx : Byte) : Bool :=
  tidx != 0 && !(kind == 1 && ggaIndices.contains tidx) && !(kind == 2 && rmcIndices.contains tidx)

/-- The operands of an operation are ones its encoding admits. -/
def Instr.wf : Instr → Bool
  | .pbOther b => !isSpecialByte b
  | .tNone kind tidx => selectsNothing kind tidx
  | .pbDollar => true
  | .pbComma => true
  | .pbStar => true
  | .pbCr => true
  | .pNop => true
  | .pInit => true
  | .pb _ => true
  | .pProcess _ => true
  | .rbInit _ => true
  | .rbReset _ => true
  | .rbWrite _ => true
  | .rbRead _ => true
  | .rbPeek _ _ => true
  | .rbFree _ => true
  | .rbOcc _ => true
  | .rbRsvd7 _ => true
  | .tId => true
  | .ggaTime => true
  | .ggaLat => true
  | .ggaNs => true
  | .ggaLon => true
  | .ggaEw => true
  | .ggaFixq => true
  | .ggaSats => true
  | .ggaAlt => true
  | .ggaGeoid => true
  | .rmcValid => true
  | .rmcSpeed => true
  | .rmcCourse => true
  | .rmcDate => true
  | .rmcVar => true
  | .rmcVarew => true

end Sys2Proof
end

