-- ==== Sys2Proof/Decode.lean ====
section
/-!
DEFINITION. The character codes (spec 00_scope.md rule R9), the decoder from a transaction to an operation
(30_encoding.md rules R92, R97, R110, R112), the encoder written from the same tables, and the table of
opcode_table.json as data. The decoder is total: it answers an operation or rejects by name.
-/

namespace Sys2Proof

/-! ### Character codes (R9) -/

namespace Ascii

/-- `'$'`. -/
abbrev dollar : Byte := 0x24
/-- `'*'`. -/
abbrev star : Byte := 0x2A
/-- `','`. -/
abbrev comma : Byte := 0x2C
/-- Carriage return. -/
abbrev cr : Byte := 0x0D
/-- Space. -/
abbrev space : Byte := 0x20
/-- `'-'`. -/
abbrev minus : Byte := 0x2D
/-- `'.'`. -/
abbrev point : Byte := 0x2E
/-- `'A'`. -/
abbrev upperA : Byte := 0x41
/-- `'S'`. -/
abbrev upperS : Byte := 0x53
/-- `'s'`. -/
abbrev lowerS : Byte := 0x73
/-- `'W'`. -/
abbrev upperW : Byte := 0x57
/-- `'w'`. -/
abbrev lowerW : Byte := 0x77
/-- NUL. -/
abbrev nul : Byte := 0x00

/-- `"$GPGGA"` (R9, R94). -/
def gpgga : Text := [0x24, 0x47, 0x50, 0x47, 0x47, 0x41]
/-- `"$GNGGA"` (R9, R94). -/
def gngga : Text := [0x24, 0x47, 0x4E, 0x47, 0x47, 0x41]
/-- `"$GPRMC"` (R9, R94). -/
def gprmc : Text := [0x24, 0x47, 0x50, 0x52, 0x4D, 0x43]
/-- `"$GNRMC"` (R9, R94). -/
def gnrmc : Text := [0x24, 0x47, 0x4E, 0x52, 0x4D, 0x43]

end Ascii

/-! ### The decoder -/

/-- Why a transaction is no operation of the block. -/
inductive DecodeReject where
  /-- `RB_WRITE` on the consumer's port: only the producer writes (R74, R112, R240; log 10). -/
  | writeIsTheProducers
  /-- `RB_READ` or `RB_PEEK` on the producer's port: only the consumer reads (R74, R112, R240; log 10). -/
  | readIsTheConsumers
  /-- Fewer data bytes than the count that came with them (log 11). -/
  | dataShorterThanCount
deriving DecidableEq, Repr

/-- Byte classification (R92). -/
def decodeByte (b : Byte) : Instr :=
  if b = Ascii.dollar then .pbDollar
  else if b = Ascii.comma then .pbComma
  else if b = Ascii.star then .pbStar
  else if b = Ascii.cr then .pbCr
  else .pbOther b

/-- The parser port (R110). Signals that a command does not use are ignored. -/
def decodeParser (cmd : BitVec 2) (pbyte : Byte) (bytes : List Byte) (len : Nat) :
    Except DecodeReject Instr :=
  match cmd.toNat with
  | 0 => .ok .pNop
  | 1 => .ok .pInit
  | 2 => .ok (.pb pbyte)
  | _ => if bytes.length < len then .error .dataShorterThanCount else .ok (.pProcess (bytes.take len))

/-- `RB_WRITE` as it arrives on a port: the data operand is the first `n` bytes (R112, R205). -/
def decodeWrite (port : Agent) (n : Nat) (data : List Byte) : Except DecodeReject Instr :=
  match port with
  | .consumer => .error .writeIsTheProducers
  | .producer => if data.length < n then .error .dataShorterThanCount else .ok (.rbWrite (data.take n))

/-- A consumer's command as it arrives on a port (R112). -/
def decodeConsumers (port : Agent) (i : Instr) : Except DecodeReject Instr :=
  match port with
  | .consumer => .ok i
  | .producer => .error .readIsTheConsumers

/-- A ring-buffer command port (R112). -/
def decodeRing (port : Agent) (cmd : BitVec 3) (n skip : Nat) (data : List Byte) :
    Except DecodeReject Instr :=
  match cmd.toNat with
  | 0 => .ok (.rbInit port)
  | 1 => .ok (.rbReset port)
  | 2 => decodeWrite port n data
  | 3 => decodeConsumers port (.rbRead n)
  | 4 => decodeConsumers port (.rbPeek skip n)
  | 5 => .ok (.rbFree port)
  | 6 => .ok (.rbOcc port)
  | _ => .ok (.rbRsvd7 port)

/-- The GGA rows of the key table (R95, R97). -/
def decodeGga (tidx : Byte) : Instr :=
  match tidx.toNat with
  | 1 => .ggaTime
  | 2 => .ggaLat
  | 3 => .ggaNs
  | 4 => .ggaLon
  | 5 => .ggaEw
  | 6 => .ggaFixq
  | 7 => .ggaSats
  | 9 => .ggaAlt
  | 11 => .ggaGeoid
  | _ => .tNone 1 tidx

/-- The RMC rows of the key table (R96, R97). -/
def decodeRmc (tidx : Byte) : Instr :=
  match tidx.toNat with
  | 2 => .rmcValid
  | 7 => .rmcSpeed
  | 8 => .rmcCourse
  | 9 => .rmcDate
  | 10 => .rmcVar
  | 11 => .rmcVarew
  | _ => .tNone 2 tidx

/-- The kind bits of a key (R97). -/
def Key.kindBits (key : Key) : BitVec 2 := key.extractLsb' 8 2

/-- The index bits of a key (R97). -/
def Key.indexBits (key : Key) : Byte := key.extractLsb' 0 8

/-- The key `{kind, tidx}`, that is `kind * 256 + tidx` (R97). -/
def makeKey (kind : BitVec 2) (tidx : Byte) : Key := kind ++ tidx

/-- The dispatch key (R97, R117): an index of 0 selects `T_ID` for any kind. Kind bits 3 cannot occur
(U5; log 13). -/
def decodeTerm (key : Key) : Instr :=
  if Key.indexBits key = 0 then .tId
  else
    match (Key.kindBits key).toNat with
    | 1 => decodeGga (Key.indexBits key)
    | 2 => decodeRmc (Key.indexBits key)
    | _ => .tNone (Key.kindBits key) (Key.indexBits key)

/-- The decoder: total, and a rejection has a name. -/
def decode : Transaction → Except DecodeReject Instr
  | .byte b => .ok (decodeByte b)
  | .parser cmd pbyte bytes len => decodeParser cmd pbyte bytes len
  | .ring port cmd n skip data => decodeRing port cmd n skip data
  | .term key => .ok (decodeTerm key)

/-! ### The encoder -/

/-- A parser-port transaction with no operand. -/
def plainParser (cmd : BitVec 2) : Transaction := .parser cmd 0 [] 0

/-- A ring-port transaction with no operand. -/
def plainRing (port : Agent) (cmd : BitVec 3) : Transaction := .ring port cmd 0 0 []

/-- The signals that present an operation (R92, R97, R110, R112). -/
def encode : Instr → Transaction
  | .pbDollar => .byte 0x24
  | .pbComma => .byte 0x2C
  | .pbStar => .byte 0x2A
  | .pbCr => .byte 0x0D
  | .pbOther b => .byte b
  | .pNop => plainParser 0
  | .pInit => plainParser 1
  | .pb b => .parser 2 b [] 0
  | .pProcess bytes => .parser 3 0 bytes bytes.length
  | .rbInit port => plainRing port 0
  | .rbReset port => plainRing port 1
  | .rbWrite data => .ring .producer 2 data.length 0 data
  | .rbRead n => .ring .consumer 3 n 0 []
  | .rbPeek skip n => .ring .consumer 4 n skip []
  | .rbFree port => plainRing port 5
  | .rbOcc port => plainRing port 6
  | .rbRsvd7 port => plainRing port 7
  | .tId => .term 0x000
  | .ggaTime => .term 0x101
  | .ggaLat => .term 0x102
  | .ggaNs => .term 0x103
  | .ggaLon => .term 0x104
  | .ggaEw => .term 0x105
  | .ggaFixq => .term 0x106
  | .ggaSats => .term 0x107
  | .ggaAlt => .term 0x109
  | .ggaGeoid => .term 0x10B
  | .rmcValid => .term 0x202
  | .rmcSpeed => .term 0x207
  | .rmcCourse => .term 0x208
  | .rmcDate => .term 0x209
  | .rmcVar => .term 0x20A
  | .rmcVarew => .term 0x20B
  | .tNone kind tidx => .term (makeKey kind tidx)

/-! ### The operation table as data (R117) -/

/-- One row of opcode_table.json: a selector matches when `selector &&& mask = bits`. -/
structure Row where
  mnemonic : String
  format : Format
  bits : BitVec 10
  mask : BitVec 10
  priority : Nat
deriving DecidableEq, Repr

/-- The five BYTE rows. -/
def byteRows : List Row :=
  [⟨"PB_DOLLAR", .byte, 0x24, 0xFF, 0⟩, ⟨"PB_COMMA", .byte, 0x2C, 0xFF, 0⟩,
   ⟨"PB_STAR", .byte, 0x2A, 0xFF, 0⟩, ⟨"PB_CR", .byte, 0x0D, 0xFF, 0⟩,
   ⟨"PB_OTHER", .byte, 0x00, 0x00, 1⟩]

/-- The four PCMD rows. -/
def parserRows : List Row :=
  [⟨"P_NOP", .pcmd, 0, 3, 0⟩, ⟨"P_INIT", .pcmd, 1, 3, 0⟩, ⟨"PB", .pcmd, 2, 3, 0⟩,
   ⟨"P_PROCESS", .pcmd, 3, 3, 0⟩]

/-- The eight RBCMD rows. -/
def ringRows : List Row :=
  [⟨"RB_INIT", .rbcmd, 0, 7, 0⟩, ⟨"RB_RESET", .rbcmd, 1, 7, 0⟩, ⟨"RB_WRITE", .rbcmd, 2, 7, 0⟩,
   ⟨"RB_READ", .rbcmd, 3, 7, 0⟩, ⟨"RB_PEEK", .rbcmd, 4, 7, 0⟩, ⟨"RB_FREE", .rbcmd, 5, 7, 0⟩,
   ⟨"RB_OCC", .rbcmd, 6, 7, 0⟩, ⟨"RB_RSVD7", .rbcmd, 7, 7, 0⟩]

/-- `T_ID` and the GGA rows of format TERM. -/
def ggaRows : List Row :=
  [⟨"T_ID", .term, 0x000, 0x0FF, 0⟩, ⟨"GGA_TIME", .term, 0x101, 0x3FF, 0⟩,
   ⟨"GGA_LAT", .term, 0x102, 0x3FF, 0⟩, ⟨"GGA_NS", .term, 0x103, 0x3FF, 0⟩,
   ⟨"GGA_LON", .term, 0x104, 0x3FF, 0⟩, ⟨"GGA_EW", .term, 0x105, 0x3FF, 0⟩,
   ⟨"GGA_FIXQ", .term, 0x106, 0x3FF, 0⟩, ⟨"GGA_SATS", .term, 0x107, 0x3FF, 0⟩,
   ⟨"GGA_ALT", .term, 0x109, 0x3FF, 0⟩, ⟨"GGA_GEOID", .term, 0x10B, 0x3FF, 0⟩]

/-- The RMC rows of format TERM and the default row. -/
def rmcRows : List Row :=
  [⟨"RMC_VALID", .term, 0x202, 0x3FF, 0⟩, ⟨"RMC_SPEED", .term, 0x207, 0x3FF, 0⟩,
   ⟨"RMC_COURSE", .term, 0x208, 0x3FF, 0⟩, ⟨"RMC_DATE", .term, 0x209, 0x3FF, 0⟩,
   ⟨"RMC_VAR", .term, 0x20A, 0x3FF, 0⟩, ⟨"RMC_VAREW", .term, 0x20B, 0x3FF, 0⟩,
   ⟨"T_NONE", .term, 0x000, 0x000, 1⟩]

/-- opcode_table.json. -/
def opcodeTable : List Row := byteRows ++ parserRows ++ ringRows ++ ggaRows ++ rmcRows

/-- The row matches a selector of its format. -/
def Row.hits (row : Row) (f : Format) (sel : BitVec 10) : Bool :=
  row.format == f && (sel &&& row.mask) == row.bits

/-- The mnemonic the table gives a selector: a row of priority 0 that matches, else one of priority 1
(R93, R117). -/
def tableMnemonic (f : Format) (sel : BitVec 10) : Option String :=
  ((opcodeTable.filter (fun r => r.priority == 0 && r.hits f sel)).head?.orElse
    (fun _ => (opcodeTable.filter (fun r => r.priority == 1 && r.hits f sel)).head?)).map Row.mnemonic

/-- The mnemonic of an operation, as the table spells it. -/
def Instr.mnemonic : Instr → String
  | .pbDollar => "PB_DOLLAR"
  | .pbComma => "PB_COMMA"
  | .pbStar => "PB_STAR"
  | .pbCr => "PB_CR"
  | .pbOther _ => "PB_OTHER"
  | .pNop => "P_NOP"
  | .pInit => "P_INIT"
  | .pb _ => "PB"
  | .pProcess _ => "P_PROCESS"
  | .rbInit _ => "RB_INIT"
  | .rbReset _ => "RB_RESET"
  | .rbWrite _ => "RB_WRITE"
  | .rbRead _ => "RB_READ"
  | .rbPeek _ _ => "RB_PEEK"
  | .rbFree _ => "RB_FREE"
  | .rbOcc _ => "RB_OCC"
  | .rbRsvd7 _ => "RB_RSVD7"
  | .tId => "T_ID"
  | .ggaTime => "GGA_TIME"
  | .ggaLat => "GGA_LAT"
  | .ggaNs => "GGA_NS"
  | .ggaLon => "GGA_LON"
  | .ggaEw => "GGA_EW"
  | .ggaFixq => "GGA_FIXQ"
  | .ggaSats => "GGA_SATS"
  | .ggaAlt => "GGA_ALT"
  | .ggaGeoid => "GGA_GEOID"
  | .rmcValid => "RMC_VALID"
  | .rmcSpeed => "RMC_SPEED"
  | .rmcCourse => "RMC_COURSE"
  | .rmcDate => "RMC_DATE"
  | .rmcVar => "RMC_VAR"
  | .rmcVarew => "RMC_VAREW"
  | .tNone _ _ => "T_NONE"

/-- The format of a transaction. -/
def Transaction.format : Transaction → Format
  | .byte _ => .byte
  | .parser _ _ _ _ => .pcmd
  | .ring _ _ _ _ _ => .rbcmd
  | .term _ => .term

/-- The selector bits of a transaction, zero-extended to the width of a table row. -/
def Transaction.selector : Transaction → BitVec 10
  | .byte b => b.setWidth 10
  | .parser cmd _ _ _ => cmd.setWidth 10
  | .ring _ cmd _ _ _ => cmd.setWidth 10
  | .term key => key

/-! ### Table words (the host's numbering of opcode_table.json) -/

/-- A ring-buffer command whose operands are all zero, on the port of the agent that may issue it. -/
def bareRing (cmd : BitVec 3) : Transaction :=
  .ring (if cmd = 3 ∨ cmd = 4 then .consumer else .producer) cmd 0 0 []

/-- The transaction a bare table word stands for, all operands zero. DESIGN CHOICE (log 2): the table's
words carry no format, so the number of bits and the value choose it. A word of more than 8 bits is a
key; an 8-bit word below 8 is a ring command and any other an input byte; a shorter word is read by its
exact width. -/
def tableTransaction (nbits w : Nat) : Transaction :=
  if 8 < nbits then .term (BitVec.ofNat 10 w)
  else if nbits = 8 then
    if w < 8 then bareRing (BitVec.ofNat 3 w) else .byte (BitVec.ofNat 8 w)
  else if nbits = 3 then bareRing (BitVec.ofNat 3 w)
  else plainParser (BitVec.ofNat 2 w)

/-- The operation the decoder reads from a table word. -/
def decodeTableWord (nbits w : Nat) : Option Instr := (decode (tableTransaction nbits w)).toOption

end Sys2Proof
end

