-- ==== Sys2Proof/Machine/State.lean ====
section
/-!
DEFINITION. The state of the block as plain data (spec 10_state.md), the model's own bookkeeping beside it, the
reasons a step can stop, the state after hardware reset (10_state.md rule R42, 70_reset_and_hazards.md rule
R261), and one named update per field.
-/

namespace Sys2Proof.Machine

/-- The sentence kind `p.kind` (R29); the fourth code does not exist (U5; log 13). -/
inductive Kind where
  /-- Unknown, code 0. -/
  | unknown
  /-- GGA, code 1. -/
  | gga
  /-- RMC, code 2. -/
  | rmc
deriving DecidableEq, Repr

/-- The event code `p_ev` (R232); codes 6 and 7 do not exist (U5; log 13). -/
inductive Event where
  /-- `EV_NONE`, code 0. -/
  | none
  /-- `EV_PUB_GGA`, code 1. -/
  | pubGga
  /-- `EV_PUB_RMC`, code 2. -/
  | pubRmc
  /-- `EV_DROP_CRC`, code 3. -/
  | dropCrc
  /-- `EV_DROP_UNKNOWN`, code 4. -/
  | dropUnknown
  /-- `EV_TRUNC`, code 5. -/
  | trunc
deriving DecidableEq, Repr

/-- The fields of a GGA record, in the scratch record and in `fix` (R36, R38). -/
structure GgaRecord where
  hh : Byte
  mm : Byte
  ss : Byte
  /-- Units of 10^-7 degree, north positive. -/
  lat : Fx
  /-- Units of 10^-7 degree, east positive. -/
  lon : Fx
  fixq : Byte
  sats : Byte
  /-- Units of 10^-6 metre. -/
  alt : Fx
  /-- Units of 10^-6 metre. -/
  geoid : Fx
deriving DecidableEq, Repr

/-- The fields of an RMC record, in the scratch record and in `fix` (R36, R39). -/
structure RmcRecord where
  valid : Bool
  /-- Units of 10^-6 knot. -/
  speed : Fx
  /-- Units of 10^-6 degree. -/
  course : Fx
  /-- Units of 10^-6 degree, east positive. -/
  var : Fx
  dd : Byte
  mo : Byte
  yy : Byte
deriving DecidableEq, Repr

/-- A GGA record with every bit 0. -/
def GgaRecord.zero : GgaRecord := ⟨0, 0, 0, 0, 0, 0, 0, 0, 0⟩

/-- An RMC record with every bit 0. -/
def RmcRecord.zero : RmcRecord := ⟨false, 0, 0, 0, 0, 0, 0⟩

/-- A pair of records: the scratch record `p.s`, both sides held side by side as R35 allows (log 14), and the
two groups of `fix` (R37). -/
structure Records where
  gga : GgaRecord
  rmc : RmcRecord
deriving DecidableEq, Repr

/-- Both records zero. -/
def Records.zero : Records := ⟨GgaRecord.zero, RmcRecord.zero⟩

/-- ParserState `p` (R28 to R36). -/
structure Parser where
  /-- `p.kind` (R29). -/
  kind : Kind
  /-- `p.term[0 .. 12]` (R30). -/
  term : Vector Byte 13
  /-- `p.tlen`, 0 to 12 (R30, U5). -/
  tlen : Fin 13
  /-- `p.tidx` (R32). -/
  tidx : Byte
  /-- `p.star` (R33). -/
  star : Bool
  /-- `p.csum` (R34). -/
  csum : Byte
  /-- `p.s` (R35). -/
  s : Records
deriving DecidableEq, Repr

/-- All of ParserState zero (R42). -/
def Parser.zero : Parser :=
  { kind := .unknown, term := Vector.replicate 13 0, tlen := 0, tidx := 0, star := false, csum := 0,
    s := Records.zero }

/-- The ring buffer `rb` (R21 to R23). The backing array lists the cells that have been written since the
last hardware reset, in rising order of their index. -/
structure Ring where
  /-- `rb.mem`: the written cells. -/
  mem : List Host.Cell
  /-- `rb.r`, the read cursor. -/
  r : Nat
  /-- `rb.w`, the write cursor. -/
  w : Nat
deriving DecidableEq, Repr

/-- Hidden state of an `RB_WRITE` in progress (R41, R71). -/
structure WriteTransfer where
  /-- The snapshot of `rb.r` taken at W1. -/
  r0 : Nat
  /-- The snapshot of `rb.w` taken at W1. -/
  w0 : Nat
  /-- The count computed at W1. -/
  k : Nat
  /-- How many bytes W2 has stored. -/
  i : Nat
  /-- The data operand. -/
  data : List Byte
deriving DecidableEq, Repr

/-- Hidden state of an `RB_READ` or `RB_PEEK` in progress (R41, R72, R73). -/
structure ReadTransfer where
  /-- True for `RB_READ`, whose end commits the cursor; false for `RB_PEEK`, which has no commit. -/
  commits : Bool
  /-- The snapshot of `rb.r` taken at R1 or P1. -/
  r0 : Nat
  /-- The snapshot of `rb.w` taken at R1 or P1. -/
  w0 : Nat
  /-- The skip operand of a peek; 0 for a read. -/
  skip : Nat
  /-- The count computed at R1 or P1. -/
  k : Nat
  /-- The bytes moved so far, oldest first; their number is the progress `i`. -/
  out : List Byte
deriving DecidableEq, Repr

/-- What a ring-buffer port shows after a transaction that returned something (R112; log 7): the count (or
the value of `RB_FREE` or `RB_OCC`) and the data bytes. -/
structure RingOutput where
  k : Nat
  out : List Byte
deriving DecidableEq, Repr

/-- The operations that can be in progress over several steps (R41, R130). -/
inductive Lane where
  /-- The producer's `RB_WRITE`. -/
  | write
  /-- The consumer's `RB_READ` or `RB_PEEK`. -/
  | read
  /-- The consumer's `P_PROCESS`. -/
  | parser
deriving DecidableEq, Repr

/-- One entry of the schedule: what happens next in the total order of R77 (log 1). -/
inductive Input where
  /-- An agent presents a transaction and it runs to its end with no other step in between. -/
  | present (t : Transaction)
  /-- An agent presents a transaction and only its first micro-step happens (W1, R1, P1; R71 to R73). -/
  | start (t : Transaction)
  /-- The operation in progress on a lane takes its next micro-step. -/
  | advance (lane : Lane)
  /-- The reset input of the block (R260). -/
  | hardwareReset
deriving DecidableEq, Repr

/-- The state of the machine. The first block of fields is the block's own state, the second its hidden
state, the third its outputs, the last the model's own (INVENTORY.md, "State"). -/
structure State where
  /-- `rb` (R20). -/
  rb : Ring
  /-- `p` (R20). -/
  p : Parser
  /-- `fix` (R20). -/
  fix : Records
  /-- The producer's transfer in progress (R41). -/
  writing : Option WriteTransfer
  /-- The consumer's transfer in progress (R41). -/
  reading : Option ReadTransfer
  /-- The bytes that a `P_PROCESS` in progress has still to present (R130). -/
  spanning : Option (List Byte)
  /-- `p_ev` of the last parser transaction (R232; log 7). -/
  pEv : Event
  /-- The producer port's last result (R112; log 7). -/
  prodOut : RingOutput
  /-- The consumer port's last result (R112; log 7). -/
  consOut : RingOutput
  /-- The parameters (R6; log 4). No step changes them. -/
  cfg : Config
  /-- How many hardware resets there have been (log 5). -/
  epoch : Nat
  /-- The schedule, next entry first (log 1). -/
  sched : List Input
deriving DecidableEq, Repr

/-- Why the machine stops with a fault: never. "The block raises no synchronous exception" (R230), so the type
has no constructor (log 21). -/
inductive Fault
deriving DecidableEq, Repr

/-- Why a step gives no meaning. Each reason is safe: the machine stops where the spec gives no behaviour. -/
inductive Refusal where
  /-- Raised by `exec` for an operation without a meaning in this model. Safe. No arm raises it. -/
  | notModelled (mnemonic : String)
  /-- Raised by `step`: the transaction decodes to no operation (log 10, log 11). Safe. -/
  | rejected (why : DecodeReject)
  /-- Raised by `RB_WRITE` while a write is in progress (U2; log 9). Safe. -/
  | writeInProgress
  /-- Raised by `RB_READ` and `RB_PEEK` while a read or peek is in progress (U2; log 9). Safe. -/
  | readInProgress
  /-- Raised by `RB_INIT` and `RB_RESET` while a transfer is in progress (U2, R273; log 9). Safe. -/
  | transferInProgress
  /-- Raised by a parser operation while a `P_PROCESS` is in progress (U3, R270; log 9). Safe. -/
  | parserBusy
  /-- Raised by `step`: the schedule advances a lane with nothing in progress, which no agent can do
  (log 1). Safe. -/
  | nothingInProgress
  /-- Raised by `RB_RSVD7` when the parameter says that it is refused (U4; log 18). Safe. -/
  | reservedCommand
deriving DecidableEq, Repr

/-- A port that has returned nothing yet (log 7). -/
def RingOutput.none : RingOutput := ⟨0, []⟩

/-- The state after hardware reset number `epoch` of a block with parameters `cfg` (R42, R261): everything
zero, both cursors zero, no cell listed (its contents are unspecified, U1), nothing in progress (log 6),
nothing scheduled. -/
def State.afterReset (cfg : Config) (epoch : Nat) : State :=
  { rb := ⟨[], 0, 0⟩, p := Parser.zero, fix := Records.zero, writing := none, reading := none, spanning := none,
    pEv := .none, prodOut := RingOutput.none, consOut := RingOutput.none, cfg := cfg, epoch := epoch,
    sched := [] }

/-- The machine right after reset, at the initial parameters (log 4). -/
def State.reset : State := State.afterReset Config.initial 0

/-! ### One named update per field -/

/-- Replace `rb`. -/
def State.withRb (s : State) (rb : Ring) : State := { s with rb := rb }
/-- Replace `p`. -/
def State.withP (s : State) (p : Parser) : State := { s with p := p }
/-- Replace `fix`. -/
def State.withFix (s : State) (fix : Records) : State := { s with fix := fix }
/-- Replace the write in progress. -/
def State.withWriting (s : State) (x : Option WriteTransfer) : State := { s with writing := x }
/-- Replace the read in progress. -/
def State.withReading (s : State) (x : Option ReadTransfer) : State := { s with reading := x }
/-- Replace the span in progress. -/
def State.withSpanning (s : State) (x : Option (List Byte)) : State := { s with spanning := x }
/-- Drive the event output. -/
def State.withEv (s : State) (e : Event) : State := { s with pEv := e }
/-- Drive the producer port's result. -/
def State.withProdOut (s : State) (o : RingOutput) : State := { s with prodOut := o }
/-- Drive the consumer port's result. -/
def State.withConsOut (s : State) (o : RingOutput) : State := { s with consOut := o }
/-- Replace the schedule. -/
def State.withSched (s : State) (l : List Input) : State := { s with sched := l }

end Sys2Proof.Machine
end

