-- ==== Sys2Proof/Machine/Operands.lean ====
section
/-!
DEFINITION. The operands of the parser operations: the term read `tc` (spec 10_state.md rule R31), the
numeric decoders (42_numeric_decoders.md), the hexadecimal pair (43_crc_validator.md rules R191, R192), the
codes of the kind and the event, and the dispatch key (30_encoding.md rule R97). All are pure functions.
-/

namespace Sys2Proof.Machine

/-! ### Codes -/

/-- The 2-bit code of a kind (R29). -/
def Kind.code : Kind → BitVec 2
  | .unknown => 0
  | .gga => 1
  | .rmc => 2

/-- The 3-bit code of an event (R232). -/
def Event.code : Event → BitVec 3
  | .none => 0
  | .pubGga => 1
  | .pubRmc => 2
  | .dropCrc => 3
  | .dropUnknown => 4
  | .trunc => 5

/-- The dispatch key of a parser state (R97). -/
def Parser.key (p : Parser) : Key := makeKey p.kind.code p.tidx

/-! ### The term buffer -/

/-- `tc(i)`: the character at position `i` of the term, NUL at and beyond its length (R31). -/
def Parser.tc (p : Parser) (i : Nat) : Byte :=
  if h : i < p.tlen.val then p.term[i]'(by omega) else Ascii.nul

/-- The term as a string: the `p.tlen` characters kept, in arrival order (R30). -/
def Parser.text (p : Parser) : Text := p.term.toList.take p.tlen.val

/-- Position `i` of a text, NUL beyond its end (R31). -/
def charAt (t : Text) (i : Nat) : Byte := t.getD i Ascii.nul

/-! ### Scanning numbers -/

/-- `isdigit` (R9). -/
def isDigit (c : Byte) : Bool := 0x30 ≤ c.toNat && c.toNat ≤ 0x39

/-- `dig(c) = c - 0x30` (R9). -/
def digitValue (c : Byte) : Nat := c.toNat - 0x30

/-- Skip leading spaces (R171). -/
def skipSpaces : Text → Text
  | [] => []
  | c :: cs => if c = Ascii.space then skipSpaces cs else c :: cs

/-- What the digit loop leaves: the accumulator, how many digits it took, and the rest of the text. -/
structure Digits where
  acc : Nat
  count : Nat
  rest : Text
deriving DecidableEq, Repr

/-- The digit loop `acc <- acc * 10 + dig(c)` (R98, R171). -/
def takeDigits (acc count : Nat) : Text → Digits
  | [] => ⟨acc, count, []⟩
  | c :: cs => if isDigit c then takeDigits (acc * 10 + digitValue c) (count + 1) cs else ⟨acc, count, c :: cs⟩

/-- The result of `SCAN`: sign, magnitude, and the text from the position where the scan ended (R171). -/
structure Scan where
  neg : Bool
  mag : Nat
  rest : Text
deriving DecidableEq, Repr

/-- The text after an optional `'-'` at its head (R171). -/
def dropMinus (t : Text) : Text := if charAt t 0 = Ascii.minus then t.tail else t

/-- `SCAN()`: leading spaces, an optional `'-'`, decimal digits (R171). -/
def scan (t : Text) : Scan :=
  let u := skipSpaces t
  let d := takeDigits 0 0 (dropMinus u)
  ⟨charAt u 0 = Ascii.minus, d.acc, d.rest⟩

/-- `neg ? -m : m`. -/
def signed (neg : Bool) (m : Nat) : Int := if neg then -(m : Int) else (m : Int)

/-- `DEC_INT()` (R172). -/
def decInt (t : Text) : Int := signed (scan t).neg (scan t).mag

/-- `U8(v) = v mod 256` (R173). -/
def u8 (v : Int) : Byte := BitVec.ofInt 8 v

/-- The result of `DEC_FIX`: sign, all digits as one integer, digits after the point (R174). -/
structure Fixed where
  neg : Bool
  mag : Nat
  frac : Nat
deriving DecidableEq, Repr

/-- `DEC_FIX()`: a signed decimal with an optional fraction (R174). -/
def decFix (t : Text) : Fixed :=
  let a := scan t
  if charAt a.rest 0 = Ascii.point then
    let d := takeDigits a.mag 0 a.rest.tail
    ⟨a.neg, d.acc, d.count⟩
  else ⟨a.neg, a.mag, 0⟩

/-- The magnitude that `DEC_DEC` gives to `M / 10^F`, in units of 10^-6 (R175). -/
def decimalMagnitude (m f : Nat) : Nat := m * 1000000 / 10 ^ f

/-- `DEC_DEC()` (R175). -/
def decDec (t : Text) : Int := signed (decFix t).neg (decimalMagnitude (decFix t).mag (decFix t).frac)

/-- The magnitude that `DEC_DMM` gives to `DDDMM.MMMM = M / 10^F`, in units of 10^-7 degree (R176). -/
def dmmMagnitude (m f : Nat) : Nat :=
  m / (100 * 10 ^ f) * 10000000 + m % (100 * 10 ^ f) * 10000000 / (60 * 10 ^ f)

/-- `DEC_DMM()` (R176). -/
def decDmm (t : Text) : Int := signed (decFix t).neg (dmmMagnitude (decFix t).mag (decFix t).frac)

/-- `d(c)`: the value of a digit, 0 for any other byte (R177). -/
def digitOrZero (c : Byte) : Nat := if isDigit c then digitValue c else 0

/-- `DEC_2D(j)` (R177). -/
def dec2d (t : Text) (j : Nat) : Byte :=
  BitVec.ofNat 8 (10 * digitOrZero (charAt t j) + digitOrZero (charAt t (j + 1)))

/-- A decoder's result as a 64-bit register (R36, R183). -/
def toFx (v : Int) : Fx := BitVec.ofInt 64 v

/-- `NEG(v) = -v` on a 64-bit field (R178). -/
def negFx (v : Fx) : Fx := -v

/-! ### The checksum pair -/

/-- `HEXVAL(c)`: the value of a hexadecimal character and whether it is one (R191). -/
def hexVal (c : Byte) : Nat × Bool :=
  if 0x30 ≤ c.toNat ∧ c.toNat ≤ 0x39 then (c.toNat - 0x30, true)
  else if 0x41 ≤ c.toNat ∧ c.toNat ≤ 0x46 then (c.toNat - 0x41 + 10, true)
  else if 0x61 ≤ c.toNat ∧ c.toNat ≤ 0x66 then (c.toNat - 0x61 + 10, true)
  else (0, false)

/-- The value of `EXPECTED()`: first character high nibble, second low (R192). -/
def expectedValue (t : Text) : Byte :=
  BitVec.ofNat 8 ((hexVal (charAt t 0)).1 * 16 + (hexVal (charAt t 1)).1)

/-- The validity of `EXPECTED()`: both characters are hexadecimal (R192). -/
def expectedValid (t : Text) : Bool := (hexVal (charAt t 0)).2 && (hexVal (charAt t 1)).2

end Sys2Proof.Machine
end

