-- ==== Sys2Proof/Machine/Flags.lean ====
section
/-!
DEFINITION. The conditions the block computes: the derived sizes and the empty and full flags of the ring
buffer (spec 10_state.md rules R24, R25, R113), the publish condition `CRC_OK` (43_crc_validator.md rule
R193), the sign letters (30_encoding.md rule R102), the validity letter (41_term_dispatch.md rule R152) and
the identifier match (rule R141).
-/

namespace Sys2Proof.Machine

/-! ### Ring buffer sizes and flags -/

/-- `occ(r, w) = (w - r) mod C`, the non-negative remainder (R7, R24). -/
def occupancy (C r w : Nat) : Nat := (((w : Int) - (r : Int)) % (C : Int)).toNat

/-- `free(r, w) = C - 1 - occ(r, w)` (R24). -/
def freeSpace (C r w : Nat) : Nat := C - 1 - occupancy C r w

/-- Status output `rb_occ` (R113). -/
def State.occ (s : State) : Nat := occupancy s.cfg.C s.rb.r s.rb.w

/-- Status output `rb_free` (R113). -/
def State.free (s : State) : Nat := freeSpace s.cfg.C s.rb.r s.rb.w

/-- Status output `rb_empty` (R25, R113). -/
def State.empty (s : State) : Bool := s.rb.r == s.rb.w

/-- Status output `rb_full` (R25, R113). -/
def State.full (s : State) : Bool := (s.rb.w + 1) % s.cfg.C == s.rb.r

/-! ### Conditions on the term -/

/-- `CRC_OK` for a term, a running checksum and a setting of `P_HEX_INVALID` (R193). -/
def checksumMatches (h : HexInvalid) (t : Text) (csum : Byte) : Bool :=
  match h with
  | .zero => expectedValue t == csum
  | .reject => expectedValue t == csum && expectedValid t

/-- `CRC_OK` (R193). -/
def State.crcOk (s : State) : Bool := checksumMatches s.cfg.hexInvalid s.p.text s.p.csum

/-- The term's first character is `'S'` or `'s'` (R102, R144). -/
def isSouth (t : Text) : Bool := charAt t 0 == Ascii.upperS || charAt t 0 == Ascii.lowerS

/-- The term's first character is `'W'` or `'w'` (R102, R146, R157). -/
def isWest (t : Text) : Bool := charAt t 0 == Ascii.upperW || charAt t 0 == Ascii.lowerW

/-- The term's first character is `'A'` (R152). -/
def isValidLetter (t : Text) : Bool := charAt t 0 == Ascii.upperA

/-- The term matches an identifier literal (R141). -/
def matchesLiteral (m : IdMatch) (t lit : Text) : Bool :=
  match m with
  | .wholeTerm => t == lit
  | .prefix6 => t.take 6 == lit

/-- The kind that term 0 names (R94, R141). -/
def identify (m : IdMatch) (t : Text) : Kind :=
  if matchesLiteral m t Ascii.gpgga || matchesLiteral m t Ascii.gngga then .gga
  else if matchesLiteral m t Ascii.gprmc || matchesLiteral m t Ascii.gnrmc then .rmc
  else .unknown

end Sys2Proof.Machine
end

