-- ==== Sys2Proof/Machine/Ops.lean ====
section
/-!
DEFINITION. The named operations the meanings share: one-byte reads and writes of the backing array (spec
20_memory.md rules R60 to R63), the parser helpers `TERM_ADD`, `TERM_NEXT`, `CRC_ADD` (40_parser_bytes.md
rules R120 to R122), the parser reset, publication (41_term_dispatch.md rule R160), hardware reset
(70_reset_and_hazards.md rule R261), the Fix port and the guards that refuse what is undefined. The block has
no exception: there is no trap entry and no trap return (60_exceptions.md rules R230, R237, R238), so no
operation here takes or ends one.
-/

namespace Sys2Proof.Machine

/-! ### The backing array -/

/-- The byte a list of cells holds at an index, if that cell is listed. -/
def Memory.read? : List Host.Cell → Nat → Option Byte
  | [], _ => none
  | (x, b) :: m, a => if x = a then some b else Memory.read? m a

/-- Store a byte, keeping the indices strictly rising. -/
def Memory.write : List Host.Cell → Nat → Byte → List Host.Cell
  | [], a, v => [(a, v)]
  | (x, b) :: m, a, v =>
    if a < x then (a, v) :: (x, b) :: m
    else if x = a then (a, v) :: m
    else (x, b) :: Memory.write m a v

/-- The canonical form: indices strictly rising. An unlisted cell reads as a free value, so no listed entry
can be known to equal it (log 5). -/
abbrev Memory.wf (m : List Host.Cell) : Prop := m.Pairwise (fun x y => x.1 < y.1)

/-- `MemRead(a, 1)`: the byte of cell `a`; a cell not written since the last hardware reset holds an
unspecified byte (R8, R85, U1; log 5). -/
def State.cell (s : State) (a : Nat) : Byte :=
  (Memory.read? s.rb.mem a).getD (Config.unwrittenCell s.epoch a)

/-- `MemWrite((c + i) mod C, 1, data[i])` for each byte of a list, in increasing `i` (R62, R71). -/
def Memory.store (C : Nat) (m : List Host.Cell) (c : Nat) : List Byte → List Host.Cell
  | [] => m
  | b :: bs => Memory.store C (Memory.write m (c % C) b) (c + 1) bs

/-- `MemRead((c + i) mod C, 1)` for `i = 0 .. k-1` (R62, R72). -/
def State.load (s : State) (c k : Nat) : List Byte :=
  (List.range k).map (fun i => s.cell ((c + i) % s.cfg.C))

/-- The stored bytes, oldest first: the cells `(r + i) mod C` for `0 <= i < occ` (R24). -/
def State.contents (s : State) : List Byte := s.load s.rb.r s.occ

/-! ### Counts of a transfer, from the snapshot of both cursors -/

/-- The count of a write of `n` bytes (R71, R205). -/
def writeCount (C r0 w0 n : Nat) : Nat := min n (freeSpace C r0 w0)

/-- The count of a read of at most `n` bytes (R72, R206). -/
def readCount (C r0 w0 n : Nat) : Nat := min n (occupancy C r0 w0)

/-- The count of a peek of at most `n` bytes after `skip` (R73, R207). -/
def peekCount (C r0 w0 skip n : Nat) : Nat :=
  if occupancy C r0 w0 ≤ skip then 0 else min n (occupancy C r0 w0 - skip)

/-- Drive the result of a port (R112). -/
def State.respond (s : State) (port : Agent) (o : RingOutput) : State :=
  match port with
  | .producer => s.withProdOut o
  | .consumer => s.withConsOut o

/-! ### Parser helpers -/

/-- The byte would not fit the term buffer (R120). -/
def Parser.termFull (p : Parser) : Bool := p.tlen.val == 12

/-- `TERM_ADD(b)` (R120): append, or drop the byte when 12 characters are kept. -/
def Parser.termAdd (p : Parser) (b : Byte) : Parser :=
  if h : p.tlen.val < 12 then
    { p with term := p.term.set p.tlen.val b p.tlen.isLt, tlen := ⟨p.tlen.val + 1, by omega⟩ }
  else p

/-- `min(tidx + 1, 255)` (R32, R121). -/
def nextIndex (tidx : Byte) : Byte := if tidx = 255 then 255 else tidx + 1

/-- `TERM_NEXT` (R121). The cells keep their bytes (R30, U6; log 12). -/
def Parser.termNext (p : Parser) : Parser := { p with tlen := 0, tidx := nextIndex p.tidx }

/-- `CRC_ADD(b)` (R122). -/
def Parser.crcAdd (p : Parser) (b : Byte) : Parser := { p with csum := p.csum ^^^ b }

/-- Step 1 of `PB_DOLLAR`: reset ParserState (R125). The cells keep their bytes (R42, U6; log 12). -/
def Parser.restart (p : Parser) : Parser :=
  { p with kind := .unknown, tlen := 0, tidx := 0, star := false, csum := 0, s := Records.zero }

/-- Set the star-seen flag (R33, R127). -/
def Parser.setStar (p : Parser) : Parser := { p with star := true }

/-- Replace the GGA scratch record. -/
def Parser.withGga (p : Parser) (g : GgaRecord) : Parser := { p with s := { p.s with gga := g } }

/-- Replace the RMC scratch record. -/
def Parser.withRmc (p : Parser) (r : RmcRecord) : Parser := { p with s := { p.s with rmc := r } }

/-- `PUBLISH` (R160): one whole group in one step, with its event. -/
def State.publish (s : State) : State :=
  match s.p.kind with
  | .gga => (s.withFix { s.fix with gga := s.p.s.gga }).withEv .pubGga
  | .rmc => (s.withFix { s.fix with rmc := s.p.s.rmc }).withEv .pubRmc
  | .unknown => s.withEv .dropUnknown

/-! ### The Fix port and hardware reset -/

/-- The GGA group as the application reads it, in one step (R84, R111; log 19). -/
def State.fixPortGga (s : State) : GgaRecord := s.fix.gga

/-- The RMC group as the application reads it, in one step (R84, R111; log 19). -/
def State.fixPortRmc (s : State) : RmcRecord := s.fix.rmc

/-- Hardware reset (R260, R261): every cell unspecified again, operations in progress gone (log 6); the
parameters and the schedule are not of the block. -/
def State.hardwareReset (s : State) : State := (State.afterReset s.cfg (s.epoch + 1)).withSched s.sched

/-! ### Guards: what the spec leaves undefined is refused -/

/-- A parser operation waits for none: one issued before a `P_PROCESS` has finished is undefined (R270, U3;
log 9). -/
def serially (s : State) (t : State) : Host.Outcome State Fault Refusal :=
  match s.spanning with
  | none => .next t
  | some _ => .refused .parserBusy

/-- A write while a write is in progress is undefined (R74, U2; log 9). -/
def ifNotWriting (s : State) (t : State) : Host.Outcome State Fault Refusal :=
  match s.writing with
  | none => .next t
  | some _ => .refused .writeInProgress

/-- A read or peek while a read or peek is in progress is undefined (R74, U2; log 9). -/
def ifNotReading (s : State) (t : State) : Host.Outcome State Fault Refusal :=
  match s.reading with
  | none => .next t
  | some _ => .refused .readInProgress

/-- An initialisation or reset of the ring while a transfer is in progress is undefined (R273, U2; log 9). -/
def ifQuiescent (s : State) (t : State) : Host.Outcome State Fault Refusal :=
  match s.writing, s.reading with
  | none, none => .next t
  | _, _ => .refused .transferInProgress

end Sys2Proof.Machine
end

