-- ==== Sys2Proof/Machine/Terms.lean ====
section
/-!
DEFINITION. The term-finalize micro-operations (format TERM, spec 41_term_dispatch.md): what each does to
ParserState, and its meaning as an operation on its own. They emit no event and touch nothing outside `p`.
In the hardware they run only inside `PB_COMMA` and `PB_STAR` (log 3). A micro-operation writes its own
scratch record whatever `p.kind` is; `FINALIZE` selects it only when the kind agrees (log 14).
-/

namespace Sys2Proof.Machine

/-! ### Effects on ParserState -/

/-- `T_ID` (R141): set the kind and zero the record that becomes live. -/
def Parser.identifyTerm (cfg : Config) (p : Parser) : Parser :=
  match identify cfg.idMatch p.text with
  | .gga => { p with kind := .gga }.withGga GgaRecord.zero
  | .rmc => { p with kind := .rmc }.withRmc RmcRecord.zero
  | .unknown => { p with kind := .unknown }

/-- `GGA_TIME` (R142). -/
def Parser.ggaTime (p : Parser) : Parser :=
  p.withGga { p.s.gga with hh := dec2d p.text 0, mm := dec2d p.text 2, ss := dec2d p.text 4 }

/-- `GGA_LAT` (R143). -/
def Parser.ggaLat (p : Parser) : Parser := p.withGga { p.s.gga with lat := toFx (decDmm p.text) }

/-- `GGA_NS` (R144). -/
def Parser.ggaNs (p : Parser) : Parser :=
  if isSouth p.text then p.withGga { p.s.gga with lat := negFx p.s.gga.lat } else p

/-- `GGA_LON` (R145). -/
def Parser.ggaLon (p : Parser) : Parser := p.withGga { p.s.gga with lon := toFx (decDmm p.text) }

/-- `GGA_EW` (R146). -/
def Parser.ggaEw (p : Parser) : Parser :=
  if isWest p.text then p.withGga { p.s.gga with lon := negFx p.s.gga.lon } else p

/-- `GGA_FIXQ` (R147). -/
def Parser.ggaFixq (p : Parser) : Parser := p.withGga { p.s.gga with fixq := u8 (decInt p.text) }

/-- `GGA_SATS` (R148). -/
def Parser.ggaSats (p : Parser) : Parser := p.withGga { p.s.gga with sats := u8 (decInt p.text) }

/-- `GGA_ALT` (R149). -/
def Parser.ggaAlt (p : Parser) : Parser := p.withGga { p.s.gga with alt := toFx (decDec p.text) }

/-- `GGA_GEOID` (R150). -/
def Parser.ggaGeoid (p : Parser) : Parser := p.withGga { p.s.gga with geoid := toFx (decDec p.text) }

/-- `RMC_VALID` (R152). -/
def Parser.rmcValid (p : Parser) : Parser := p.withRmc { p.s.rmc with valid := isValidLetter p.text }

/-- `RMC_SPEED` (R153). -/
def Parser.rmcSpeed (p : Parser) : Parser := p.withRmc { p.s.rmc with speed := toFx (decDec p.text) }

/-- `RMC_COURSE` (R154). -/
def Parser.rmcCourse (p : Parser) : Parser := p.withRmc { p.s.rmc with course := toFx (decDec p.text) }

/-- `RMC_DATE` (R155). -/
def Parser.rmcDate (p : Parser) : Parser :=
  p.withRmc { p.s.rmc with dd := dec2d p.text 0, mo := dec2d p.text 2, yy := dec2d p.text 4 }

/-- `RMC_VAR` (R156). -/
def Parser.rmcVar (p : Parser) : Parser := p.withRmc { p.s.rmc with var := toFx (decDec p.text) }

/-- `RMC_VAREW` (R157). -/
def Parser.rmcVarew (p : Parser) : Parser :=
  if isWest p.text then p.withRmc { p.s.rmc with var := negFx p.s.rmc.var } else p

/-! ### FINALIZE -/

/-- The GGA side of `FINALIZE` (R140). -/
def Parser.finalizeGga (p : Parser) : Parser :=
  match p.tidx.toNat with
  | 1 => p.ggaTime
  | 2 => p.ggaLat
  | 3 => p.ggaNs
  | 4 => p.ggaLon
  | 5 => p.ggaEw
  | 6 => p.ggaFixq
  | 7 => p.ggaSats
  | 9 => p.ggaAlt
  | 11 => p.ggaGeoid
  | _ => p

/-- The RMC side of `FINALIZE` (R140). -/
def Parser.finalizeRmc (p : Parser) : Parser :=
  match p.tidx.toNat with
  | 2 => p.rmcValid
  | 7 => p.rmcSpeed
  | 8 => p.rmcCourse
  | 9 => p.rmcDate
  | 10 => p.rmcVar
  | 11 => p.rmcVarew
  | _ => p

/-- `FINALIZE` (R140). -/
def Parser.finalize (cfg : Config) (p : Parser) : Parser :=
  if p.tidx = 0 then p.identifyTerm cfg
  else
    match p.kind with
    | .gga => p.finalizeGga
    | .rmc => p.finalizeRmc
    | .unknown => p

/-! ### Meanings -/

/-- `T_ID` (R141). -/
def execTId (s : State) : Host.Outcome State Fault Refusal := .next (s.withP (s.p.identifyTerm s.cfg))

/-- `GGA_TIME` (R142). -/
def execGgaTime (s : State) : Host.Outcome State Fault Refusal := .next (s.withP s.p.ggaTime)

/-- `GGA_LAT` (R143). -/
def execGgaLat (s : State) : Host.Outcome State Fault Refusal := .next (s.withP s.p.ggaLat)

/-- `GGA_NS` (R144). -/
def execGgaNs (s : State) : Host.Outcome State Fault Refusal := .next (s.withP s.p.ggaNs)

/-- `GGA_LON` (R145). -/
def execGgaLon (s : State) : Host.Outcome State Fault Refusal := .next (s.withP s.p.ggaLon)

/-- `GGA_EW` (R146). -/
def execGgaEw (s : State) : Host.Outcome State Fault Refusal := .next (s.withP s.p.ggaEw)

/-- `GGA_FIXQ` (R147). -/
def execGgaFixq (s : State) : Host.Outcome State Fault Refusal := .next (s.withP s.p.ggaFixq)

/-- `GGA_SATS` (R148). -/
def execGgaSats (s : State) : Host.Outcome State Fault Refusal := .next (s.withP s.p.ggaSats)

/-- `GGA_ALT` (R149). -/
def execGgaAlt (s : State) : Host.Outcome State Fault Refusal := .next (s.withP s.p.ggaAlt)

/-- `GGA_GEOID` (R150). -/
def execGgaGeoid (s : State) : Host.Outcome State Fault Refusal := .next (s.withP s.p.ggaGeoid)

/-- `RMC_VALID` (R152). -/
def execRmcValid (s : State) : Host.Outcome State Fault Refusal := .next (s.withP s.p.rmcValid)

/-- `RMC_SPEED` (R153). -/
def execRmcSpeed (s : State) : Host.Outcome State Fault Refusal := .next (s.withP s.p.rmcSpeed)

/-- `RMC_COURSE` (R154). -/
def execRmcCourse (s : State) : Host.Outcome State Fault Refusal := .next (s.withP s.p.rmcCourse)

/-- `RMC_DATE` (R155). -/
def execRmcDate (s : State) : Host.Outcome State Fault Refusal := .next (s.withP s.p.rmcDate)

/-- `RMC_VAR` (R156). -/
def execRmcVar (s : State) : Host.Outcome State Fault Refusal := .next (s.withP s.p.rmcVar)

/-- `RMC_VAREW` (R157). -/
def execRmcVarew (s : State) : Host.Outcome State Fault Refusal := .next (s.withP s.p.rmcVarew)

/-- `T_NONE`: no state change (R159). -/
def execTNone (s : State) : Host.Outcome State Fault Refusal := .next s

end Sys2Proof.Machine
end

