-- ==== Sys2Proof/Machine/Bytes.lean ====
section
/-!
DEFINITION. The byte operations (format BYTE, spec 40_parser_bytes.md rules R125 to R129): the effect of each
on the state, and its meaning as an operation.
-/

namespace Sys2Proof.Machine

/-! ### Effects -/

/-- `PB_DOLLAR` (R125). -/
def State.byteDollar (s : State) : State := (s.withP (s.p.restart.termAdd Ascii.dollar)).withEv .none

/-- `PB_COMMA` (R126): finalize, then XOR the comma whether or not the star was seen (90_conflicts.md C1),
then start the next term. -/
def State.byteComma (s : State) : State :=
  (s.withP ((s.p.finalize s.cfg).crcAdd Ascii.comma).termNext).withEv .none

/-- `PB_STAR` (R127): finalize, then set the star flag, then start the next term (90_conflicts.md C10). -/
def State.byteStar (s : State) : State := (s.withP (s.p.finalize s.cfg).setStar.termNext).withEv .none

/-- `PB_CR` (R128): compare, then publish. -/
def State.byteCr (s : State) : State := if s.crcOk then s.publish else s.withEv .dropCrc

/-- Step 1 of `PB_OTHER` (R129): XOR the byte unless the star was seen. -/
def Parser.crcOther (p : Parser) (b : Byte) : Parser := if p.star then p else p.crcAdd b

/-- `PB_OTHER` (R129): XOR, then append; the event tells whether the byte was kept. -/
def State.byteOther (s : State) (b : Byte) : State :=
  (s.withP ((s.p.crcOther b).termAdd b)).withEv (if s.p.termFull then .trunc else .none)

/-- `PB b`, the dispatcher (R92, R124). -/
def State.byteStep (s : State) (b : Byte) : State :=
  if b = Ascii.dollar then s.byteDollar
  else if b = Ascii.comma then s.byteComma
  else if b = Ascii.star then s.byteStar
  else if b = Ascii.cr then s.byteCr
  else s.byteOther b

/-- The successive `PB` of a span, in increasing index (R130). -/
def State.byteSpan (s : State) : List Byte → State
  | [] => s
  | b :: bs => (s.byteStep b).byteSpan bs

/-! ### Meanings -/

/-- `PB_DOLLAR` (R125). -/
def execPbDollar (s : State) : Host.Outcome State Fault Refusal := serially s s.byteDollar

/-- `PB_COMMA` (R126). -/
def execPbComma (s : State) : Host.Outcome State Fault Refusal := serially s s.byteComma

/-- `PB_STAR` (R127). -/
def execPbStar (s : State) : Host.Outcome State Fault Refusal := serially s s.byteStar

/-- `PB_CR` (R128). -/
def execPbCr (s : State) : Host.Outcome State Fault Refusal := serially s s.byteCr

/-- `PB_OTHER` (R129). -/
def execPbOther (b : Byte) (s : State) : Host.Outcome State Fault Refusal := serially s (s.byteOther b)

end Sys2Proof.Machine
end

