-- ==== Sys2Proof/Machine/Parser.lean ====
section
/-!
DEFINITION. The parser-port commands (format PCMD, spec 30_encoding.md rule R110, 40_parser_bytes.md rules
R123, R124, R130), and the micro-steps of a `P_PROCESS` in progress.
-/

namespace Sys2Proof.Machine

/-- The effect of `P_INIT` (R123): all of `p` and all of `fix` zero; event `EV_NONE` (R232). -/
def State.initParser (s : State) : State := ((s.withP Parser.zero).withFix Records.zero).withEv .none

/-- `P_NOP` (R110): no state change; `p_ev` is 0. -/
def execPNop (s : State) : Host.Outcome State Fault Refusal := .next (s.withEv .none)

/-- `P_INIT` (R123). -/
def execPInit (s : State) : Host.Outcome State Fault Refusal := serially s s.initParser

/-- `PB` (R124). -/
def execPb (b : Byte) (s : State) : Host.Outcome State Fault Refusal := serially s (s.byteStep b)

/-- `P_PROCESS` (R130): every byte of the span, in order. An empty span presents no byte, so it drives no
event (log 16). -/
def execPProcess (bytes : List Byte) (s : State) : Host.Outcome State Fault Refusal :=
  serially s (s.byteSpan bytes)

/-! ### `P_PROCESS` byte by byte -/

/-- Start a `P_PROCESS` whose bytes are presented one step at a time; an empty span is finished at once
(R130). -/
def startProcess (bytes : List Byte) (s : State) : Host.Outcome State Fault Refusal :=
  serially s (if bytes = [] then s else s.withSpanning (some bytes))

/-- The next `PB` of the span in progress; after its last byte the span is finished (R130). -/
def advanceParser (s : State) : Host.Outcome State Fault Refusal :=
  match s.spanning with
  | none => .refused .nothingInProgress
  | some [] => .next (s.withSpanning none)
  | some [b] => .next ((s.byteStep b).withSpanning none)
  | some (b :: c :: cs) => .next ((s.byteStep b).withSpanning (some (c :: cs)))

end Sys2Proof.Machine
end

