-- ==== Sys2Proof/Machine/RingBuffer.lean ====
section
/-!
DEFINITION. The ring-buffer commands (format RBCMD, spec 44_ring_buffer.md) as whole operations, and the
micro-steps of a transfer in progress (20_memory.md rules R71 to R73; log 15).
-/

namespace Sys2Proof.Machine

/-! ### Whole operations -/

/-- Both cursors to 0; the cells keep their bytes (R201, R202). -/
def State.emptyRing (s : State) : State := s.withRb { s.rb with r := 0, w := 0 }

/-- `RB_INIT` (R201). -/
def execRbInit (s : State) : Host.Outcome State Fault Refusal := ifQuiescent s s.emptyRing

/-- `RB_RESET` (R202). -/
def execRbReset (s : State) : Host.Outcome State Fault Refusal := ifQuiescent s s.emptyRing

/-- The effect of `RB_WRITE` on `rb` with count `k` (R205). -/
def State.writeRing (s : State) (k : Nat) (data : List Byte) : Ring :=
  { mem := Memory.store s.cfg.C s.rb.mem s.rb.w (data.take k), r := s.rb.r, w := (s.rb.w + k) % s.cfg.C }

/-- `RB_WRITE` (R205). -/
def execRbWrite (data : List Byte) (s : State) : Host.Outcome State Fault Refusal :=
  let k := writeCount s.cfg.C s.rb.r s.rb.w data.length
  ifNotWriting s ((s.withRb (s.writeRing k data)).withProdOut ⟨k, []⟩)

/-- The read cursor moved on by `k` (R206). -/
def State.advanceRead (s : State) (k : Nat) : State := s.withRb { s.rb with r := (s.rb.r + k) % s.cfg.C }

/-- `RB_READ` (R206). -/
def execRbRead (n : Nat) (s : State) : Host.Outcome State Fault Refusal :=
  let k := readCount s.cfg.C s.rb.r s.rb.w n
  ifNotReading s ((s.advanceRead k).withConsOut ⟨k, s.load s.rb.r k⟩)

/-- `RB_PEEK` (R207). -/
def execRbPeek (skip n : Nat) (s : State) : Host.Outcome State Fault Refusal :=
  let k := peekCount s.cfg.C s.rb.r s.rb.w skip n
  ifNotReading s (s.withConsOut ⟨k, s.load (s.rb.r + skip) k⟩)

/-- `RB_FREE` (R204). That it answers at once while a transfer of its own port is in progress is the model's choice
(log 22). -/
def execRbFree (port : Agent) (s : State) : Host.Outcome State Fault Refusal :=
  .next (s.respond port ⟨s.free, []⟩)

/-- `RB_OCC` (R203). That it answers at once while a transfer of its own port is in progress is the model's choice
(log 22). -/
def execRbOcc (port : Agent) (s : State) : Host.Outcome State Fault Refusal :=
  .next (s.respond port ⟨s.occ, []⟩)

/-- The reserved command 7 (R114, R215): returns 0, or is refused if the parameter says so (U4; log 18). That it runs
at once while a transfer of its own port is in progress is the model's choice (log 22). -/
def execRbRsvd7 (port : Agent) (s : State) : Host.Outcome State Fault Refusal :=
  match s.cfg.reserved with
  | .noOperation => .next (s.respond port ⟨0, []⟩)
  | .refuse => .refused .reservedCommand

/-! ### Micro-steps of a write -/

/-- W1: snapshot both cursors and compute the count (R71). -/
def startWrite (data : List Byte) (s : State) : Host.Outcome State Fault Refusal :=
  ifNotWriting s (s.withWriting (some
    { r0 := s.rb.r, w0 := s.rb.w, k := writeCount s.cfg.C s.rb.r s.rb.w data.length, i := 0, data := data }))

/-- W2: store byte `i` (R71). -/
def State.writeOne (s : State) (x : WriteTransfer) : State :=
  (s.withRb { s.rb with mem := Memory.write s.rb.mem ((x.w0 + x.i) % s.cfg.C) (charAt x.data x.i) }).withWriting
    (some { x with i := x.i + 1 })

/-- W3: commit the write cursor and return the count (R71). -/
def State.writeCommit (s : State) (x : WriteTransfer) : State :=
  ((s.withRb { s.rb with w := (x.w0 + x.k) % s.cfg.C }).withWriting none).withProdOut ⟨x.k, []⟩

/-- The next micro-step of the write in progress (R71). -/
def advanceWrite (s : State) : Host.Outcome State Fault Refusal :=
  match s.writing with
  | none => .refused .nothingInProgress
  | some x => .next (if x.i < x.k then s.writeOne x else s.writeCommit x)

/-! ### Micro-steps of a read or a peek -/

/-- R1: snapshot both cursors and compute the count (R72). -/
def startRead (n : Nat) (s : State) : Host.Outcome State Fault Refusal :=
  ifNotReading s (s.withReading (some
    { commits := true, r0 := s.rb.r, w0 := s.rb.w, skip := 0, k := readCount s.cfg.C s.rb.r s.rb.w n, out := [] }))

/-- The end of a peek, which has no commit: its result is returned (R73; log 15). -/
def State.peekReturn (s : State) (out : List Byte) : State :=
  (s.withReading none).withConsOut ⟨out.length, out⟩

/-- P1: snapshot and count; a peek of no bytes ends here (R73; log 15). -/
def startPeek (skip n : Nat) (s : State) : Host.Outcome State Fault Refusal :=
  let k := peekCount s.cfg.C s.rb.r s.rb.w skip n
  ifNotReading s
    (if k = 0 then s.peekReturn []
     else s.withReading (some
      { commits := false, r0 := s.rb.r, w0 := s.rb.w, skip := skip, k := k, out := [] }))

/-- The transfer with one more byte moved: R2 or P2 (R72, R73). -/
def State.readOne (s : State) (x : ReadTransfer) : ReadTransfer :=
  { x with out := x.out ++ [s.cell ((x.r0 + x.skip + x.out.length) % s.cfg.C)] }

/-- R3: commit the read cursor and return the bytes (R72). -/
def State.readCommit (s : State) (x : ReadTransfer) : State :=
  ((s.withRb { s.rb with r := (x.r0 + x.k) % s.cfg.C }).withReading none).withConsOut ⟨x.k, x.out⟩

/-- The state after one more byte of a read or peek; the last P2 of a peek ends it (R72, R73; log 15). -/
def State.readMore (s : State) (x : ReadTransfer) : State :=
  if x.commits || (s.readOne x).out.length < x.k then s.withReading (some (s.readOne x))
  else s.peekReturn (s.readOne x).out

/-- The next micro-step of the read or peek in progress (R72, R73). -/
def advanceRead (s : State) : Host.Outcome State Fault Refusal :=
  match s.reading with
  | none => .refused .nothingInProgress
  | some x =>
    .next (if x.out.length < x.k then s.readMore x
      else if x.commits then s.readCommit x
      else s.peekReturn x.out)

end Sys2Proof.Machine
end

