-- ==== Sys2Proof/Machine/Dispatch.lean ====
section
/-!
DEFINITION. The dispatch: one arm per operation of opcode_table.json.
-/

namespace Sys2Proof.Machine

def exec (i : Instr) (s : State) : Host.Outcome State Fault Refusal :=
  match i with
  | .pbDollar => Sys2Proof.Machine.execPbDollar s
  | .pbComma => Sys2Proof.Machine.execPbComma s
  | .pbStar => Sys2Proof.Machine.execPbStar s
  | .pbCr => Sys2Proof.Machine.execPbCr s
  | .pbOther b => Sys2Proof.Machine.execPbOther b s
  | .pNop => Sys2Proof.Machine.execPNop s
  | .pInit => Sys2Proof.Machine.execPInit s
  | .pb b => Sys2Proof.Machine.execPb b s
  | .pProcess bytes => Sys2Proof.Machine.execPProcess bytes s
  | .rbInit _ => Sys2Proof.Machine.execRbInit s
  | .rbReset _ => Sys2Proof.Machine.execRbReset s
  | .rbWrite data => Sys2Proof.Machine.execRbWrite data s
  | .rbRead n => Sys2Proof.Machine.execRbRead n s
  | .rbPeek skip n => Sys2Proof.Machine.execRbPeek skip n s
  | .rbFree port => Sys2Proof.Machine.execRbFree port s
  | .rbOcc port => Sys2Proof.Machine.execRbOcc port s
  | .rbRsvd7 port => Sys2Proof.Machine.execRbRsvd7 port s
  | .tId => Sys2Proof.Machine.execTId s
  | .ggaTime => Sys2Proof.Machine.execGgaTime s
  | .ggaLat => Sys2Proof.Machine.execGgaLat s
  | .ggaNs => Sys2Proof.Machine.execGgaNs s
  | .ggaLon => Sys2Proof.Machine.execGgaLon s
  | .ggaEw => Sys2Proof.Machine.execGgaEw s
  | .ggaFixq => Sys2Proof.Machine.execGgaFixq s
  | .ggaSats => Sys2Proof.Machine.execGgaSats s
  | .ggaAlt => Sys2Proof.Machine.execGgaAlt s
  | .ggaGeoid => Sys2Proof.Machine.execGgaGeoid s
  | .rmcValid => Sys2Proof.Machine.execRmcValid s
  | .rmcSpeed => Sys2Proof.Machine.execRmcSpeed s
  | .rmcCourse => Sys2Proof.Machine.execRmcCourse s
  | .rmcDate => Sys2Proof.Machine.execRmcDate s
  | .rmcVar => Sys2Proof.Machine.execRmcVar s
  | .rmcVarew => Sys2Proof.Machine.execRmcVarew s
  | .tNone _ _ => Sys2Proof.Machine.execTNone s

end Sys2Proof.Machine
end

