-- ==== Sys2Proof/Machine/Step.lean ====
section
/-!
DEFINITION. One step of the machine: it takes the next entry of the schedule (spec 20_memory.md rules R70,
R77; log 1). With an empty schedule no agent issues an operation and the block is idle with its state held
(60_exceptions.md rule R245).
-/

namespace Sys2Proof.Machine

/-- Present a transaction: decode it and run the operation to its end (R110, R112). -/
def present (t : Transaction) (s : State) : Host.Outcome State Fault Refusal :=
  match decode t with
  | .error why => .refused (.rejected why)
  | .ok i => exec i s

/-- The first micro-step of an operation: a transfer only takes its snapshot, a `P_PROCESS` only accepts its
span, and every other operation is one micro-step (R70 to R73, R130). -/
def begin (i : Instr) (s : State) : Host.Outcome State Fault Refusal :=
  match i with
  | .rbWrite data => startWrite data s
  | .rbRead n => startRead n s
  | .rbPeek skip n => startPeek skip n s
  | .pProcess bytes => startProcess bytes s
  | i => exec i s

/-- Present a transaction and take its first micro-step only. -/
def start (t : Transaction) (s : State) : Host.Outcome State Fault Refusal :=
  match decode t with
  | .error why => .refused (.rejected why)
  | .ok i => begin i s

/-- The next micro-step of the operation in progress on a lane. -/
def advance (lane : Lane) (s : State) : Host.Outcome State Fault Refusal :=
  match lane with
  | .write => advanceWrite s
  | .read => advanceRead s
  | .parser => advanceParser s

/-- What an entry of the schedule does. -/
def act (input : Input) (s : State) : Host.Outcome State Fault Refusal :=
  match input with
  | .present t => present t s
  | .start t => start t s
  | .advance lane => advance lane s
  | .hardwareReset => .next s.hardwareReset

/-- One step: the next entry of the schedule, or nothing when there is none. -/
def step (s : State) : Host.Outcome State Fault Refusal :=
  match s.sched with
  | [] => .next s
  | input :: rest => act input (s.withSched rest)

/-- `s` with the transaction of a table word at the head of its schedule, so that the very next step runs
it (log 1, log 2). -/
def State.withFetchWord (s : State) (nbits w : Nat) : State :=
  s.withSched (.present (tableTransaction nbits w) :: s.sched)

end Sys2Proof.Machine
end

