-- ==== Sys2Proof/Safety.lean ====
section
/-!
DEFINITION. What a safe state and a safe run are, in the terms the claims use: the invariants of spec
10_state.md rule R45, 40_parser_bytes.md rule R136 and 20_memory.md rules R74, R78, R79, R85, and which
schedules the agents can produce (00_scope.md rule R12).
-/

namespace Sys2Proof.Machine

/-! ### Invariants -/

/-- The kept characters of a term: no comma, star or carriage return, a dollar only in cell 0, and that only
in term 0 (R45, R136). The bounds of `p.tlen`, `p.kind` and `p.tidx` stand in their types (U5). -/
def Parser.Inv (p : Parser) : Prop :=
  (∀ b ∈ p.text, b ≠ Ascii.comma ∧ b ≠ Ascii.star ∧ b ≠ Ascii.cr) ∧
  (∀ b ∈ p.text.tail, b ≠ Ascii.dollar) ∧
  (p.text.head? = some Ascii.dollar → p.tidx = 0)

/-- The ring buffer (R45, R63, R85): both cursors below `C`, the written cells in canonical form and below
`C`, and every cell of the occupied region written. -/
def State.RingInv (s : State) : Prop :=
  s.rb.r < s.cfg.C ∧ s.rb.w < s.cfg.C ∧ Memory.wf s.rb.mem ∧ (∀ c ∈ s.rb.mem, c.1 < s.cfg.C) ∧
  ∀ i < s.occ, (Memory.read? s.rb.mem ((s.rb.r + i) % s.cfg.C)).isSome

/-- A write in progress (R71, R74, R78, R79): the write cursor is still the snapshot, the count fits the free
space of the snapshot, the read cursor has only moved towards the write cursor since, and the bytes moved so
far stand in their cells. -/
def State.WriteSound (s : State) (x : WriteTransfer) : Prop :=
  x.w0 = s.rb.w ∧ x.r0 < s.cfg.C ∧ x.i ≤ x.k ∧ x.k ≤ x.data.length ∧ x.k ≤ freeSpace s.cfg.C x.r0 x.w0 ∧
  s.occ ≤ occupancy s.cfg.C x.r0 s.rb.w ∧
  ∀ j < x.i, Memory.read? s.rb.mem ((x.w0 + j) % s.cfg.C) = x.data[j]?

/-- A read or peek in progress (R72, R73, R74, R78, R79): the read cursor is still the snapshot, the bytes
wanted lie in the occupied region of the snapshot, the write cursor has only moved away since, and the bytes
moved so far are the ones in their cells. -/
def State.ReadSound (s : State) (x : ReadTransfer) : Prop :=
  x.r0 = s.rb.r ∧ x.w0 < s.cfg.C ∧ x.out.length ≤ x.k ∧ (x.commits = false → x.out.length < x.k) ∧
  (x.commits = true → x.skip = 0) ∧
  x.skip + x.k ≤ occupancy s.cfg.C x.r0 x.w0 ∧ occupancy s.cfg.C x.r0 x.w0 ≤ s.occ ∧
  ∀ j < x.out.length, Memory.read? s.rb.mem ((x.r0 + x.skip + j) % s.cfg.C) = x.out[j]?

/-- The invariant of the whole machine. -/
def State.Inv (s : State) : Prop :=
  s.p.Inv ∧ s.RingInv ∧ (∀ x, s.writing = some x → s.WriteSound x) ∧
  (∀ x, s.reading = some x → s.ReadSound x) ∧ s.spanning ≠ some []

/-- No operation is between its first and its last step. -/
def State.Quiescent (s : State) : Prop := s.writing = none ∧ s.reading = none ∧ s.spanning = none

/-! ### Frames -/

/-- What `FINALIZE` and every micro-operation leave alone: the framing and the checksum (R140). -/
def Parser.SameFraming (p q : Parser) : Prop :=
  q.term = p.term ∧ q.tlen = p.tlen ∧ q.tidx = p.tidx ∧ q.star = p.star ∧ q.csum = p.csum

/-- `t` differs from `s` in the parser state, `fix` and the event output at most. -/
def State.SameOutsideParser (s t : State) : Prop :=
  t.rb = s.rb ∧ t.writing = s.writing ∧ t.reading = s.reading ∧ t.spanning = s.spanning ∧
  t.prodOut = s.prodOut ∧ t.consOut = s.consOut ∧ t.cfg = s.cfg ∧ t.epoch = s.epoch ∧ t.sched = s.sched

/-- `t` differs from `s` in the ring buffer, its transfers in progress and its outputs at most. -/
def State.SameOutsideRing (s t : State) : Prop :=
  t.p = s.p ∧ t.fix = s.fix ∧ t.spanning = s.spanning ∧ t.pEv = s.pEv ∧ t.cfg = s.cfg ∧ t.epoch = s.epoch ∧
  t.sched = s.sched

/-- Two parser states that differ at most in cells beyond the length of the term, which no rule reads (R31,
93_implementation_defined.md U6). -/
def Parser.Looks (p q : Parser) : Prop :=
  q.text = p.text ∧ q.tlen = p.tlen ∧ q.kind = p.kind ∧ q.tidx = p.tidx ∧ q.star = p.star ∧ q.csum = p.csum ∧
  q.s = p.s

/-! ### Agents and schedules -/

/-- A transaction that an agent can present: not a bare dispatch key, which is internal (R97; log 3). -/
def isAgentTransaction : Transaction → Bool
  | .byte _ => true
  | .parser _ _ _ _ => true
  | .ring _ _ _ _ _ => true
  | .term _ => false

/-- An entry of the schedule that the agents and the reset input can produce. -/
def isAgentInput : Input → Bool
  | .present t => isAgentTransaction t
  | .start t => isAgentTransaction t
  | .advance _ => true
  | .hardwareReset => true

/-- A safe outcome: the machine goes on (R8, R230). -/
def Safe (o : Host.Outcome State Fault Refusal) : Prop := ∃ t, o = .next t

/-! ### Running operations one after another -/

/-- Run operations one after another, each to its end. -/
def execAll : List Instr → State → Host.Outcome State Fault Refusal
  | [], s => .next s
  | i :: is, s =>
    match exec i s with
    | .next t => execAll is t
    | .fault r => .fault r
    | .refused r => .refused r

/-- Take `n` steps. -/
def stepAll (n : Nat) (s : State) : Host.Outcome State Fault Refusal :=
  match n with
  | 0 => .next s
  | n + 1 =>
    match step s with
    | .next t => stepAll n t
    | .fault r => .fault r
    | .refused r => .refused r

/-- The bytes accepted by the writes of a sequence of operations run one after another (R69). -/
def acceptedBytes : List Instr → State → List Byte
  | [], _ => []
  | i :: is, s =>
    match exec i s with
    | .next t =>
      (match i with
        | .rbWrite data => data.take t.prodOut.k
        | _ => []) ++ acceptedBytes is t
    | _ => []

/-- The bytes returned by the reads of a sequence of operations run one after another (R69). -/
def returnedBytes : List Instr → State → List Byte
  | [], _ => []
  | i :: is, s =>
    match exec i s with
    | .next t =>
      (match i with
        | .rbRead _ => t.consOut.out
        | _ => []) ++ returnedBytes is t
    | _ => []

/-- The operation empties the ring buffer (R69 speaks of sequences without one). -/
def emptiesRing : Instr → Bool
  | .rbInit _ => true
  | .rbReset _ => true
  | _ => false

/-- What a step may do to the stored bytes (R69, R74). -/
inductive RingMove where
  /-- They stay, and so do both cursors. -/
  | keeps
  /-- A write is committed and these bytes enter at the end. -/
  | appends (bytes : List Byte)
  /-- A read is committed and the first `k` bytes leave. -/
  | removes (k : Nat)
  /-- An initialisation, a reset or hardware reset discards them. -/
  | empties
deriving DecidableEq, Repr

/-- What an operation run to its end does to the stored bytes, from the operation and the sizes before it. -/
def State.moveOf (s : State) : Instr → RingMove
  | .rbWrite data => .appends (data.take s.free)
  | .rbRead n => .removes (min n s.occ)
  | i => if emptiesRing i then .empties else .keeps

/-- What the first micro-step of an operation does to the stored bytes: W1, R1 and P1 nothing, and an operation
that is one micro-step all it does (R71 to R73). -/
def moveOfStart (i : Instr) : RingMove := if emptiesRing i then .empties else .keeps

/-- What the next micro-step of a write does to the stored bytes: W2 nothing, W3 the commit (R71). -/
def moveOfWrite (x : WriteTransfer) : RingMove := if x.i < x.k then .keeps else .appends (x.data.take x.k)

/-- What the next micro-step of a read or peek does to the stored bytes: R2 and P2 nothing, R3 the commit (R72,
R73). -/
def moveOfRead (x : ReadTransfer) : RingMove :=
  if x.commits && !decide (x.out.length < x.k) then .removes x.k else .keeps

/-- What the next step does to the stored bytes, read from the head of the schedule and from the transfer that
it advances, and not from the step's result. -/
def State.nextMove (s : State) : RingMove :=
  match s.sched with
  | .present tr :: _ =>
    match decode tr with
    | .ok i => s.moveOf i
    | .error _ => .keeps
  | .start tr :: _ =>
    match decode tr with
    | .ok i => moveOfStart i
    | .error _ => .keeps
  | .advance .write :: _ => (s.writing.map moveOfWrite).getD .keeps
  | .advance .read :: _ => (s.reading.map moveOfRead).getD .keeps
  | .advance .parser :: _ => .keeps
  | .hardwareReset :: _ => .empties
  | [] => .keeps

/-! ### Numbers and sentences on the wire -/

/-- The value of a string of digits, most significant first (R98). -/
def digitsNumber (ds : Text) : Nat := ds.foldl (fun acc c => acc * 10 + (c.toNat - 0x30)) 0

/-- The bytes of a field or an identifier: none of the four special bytes (R90). -/
def plainText (t : Text) : Bool := t.all (fun b => !isSpecialByte b)

/-- `{ ',' field }` (R90). -/
def fieldsText (fields : List Text) : Text := (fields.map (fun f => Ascii.comma :: f)).flatten

/-- The bytes strictly between `'$'` and `'*'` (R90). -/
def sentenceBody (ident : Text) (fields : List Text) : Text := ident ++ fieldsText fields

/-- The 8-bit XOR of a string (R90, R190). -/
def xorAll (t : Text) : Byte := t.foldl (fun acc b => acc ^^^ b) 0

/-- A sentence up to and including its carriage return (R90). -/
def sentence (ident : Text) (fields : List Text) (hi lo : Byte) : Text :=
  Ascii.dollar :: (sentenceBody ident fields ++ [Ascii.star, hi, lo, Ascii.cr])

end Sys2Proof.Machine
end

