-- ==== Sys2Proof/Certificates/Slice0/Obligations.lean ====
section
/-!
DEFINITION. The statements for the provers, in the order: encoding and the step, reset and invariants, byte
operations, parser commands, term operations, numeric decoders, whole-parser rules, ring buffer, transfers in
progress, whole-machine rules.
-/

open Sys2Proof Sys2Proof.Machine

/-! ### Encoding and the step -/

/-- Decoding an encoded well-formed operation gives it back, with every operand. -/
def Obligations.DecodeOfEncodeIsTheOperation : Prop :=
  ∀ i : Instr, i.wf = true → decode (encode i) = .ok i

/-- 30_encoding.md sections 1, 2, 5 and 6 (R117): whatever decodes is well formed and carries the mnemonic that the
operation table, read by priority, gives its selector; and what does not decode. Only the producer's port takes
`RB_WRITE` and only the consumer's `RB_READ` and `RB_PEEK` (R74, R112, R240); that such a command on the other
port is no operation (log 10), and that one with fewer data bytes than its count is none (log 11), are the model's. -/
def Obligations.DecodedOperationIsItsTableRow : Prop :=
  (∀ (t : Transaction) (i : Instr), decode t = .ok i →
    i.wf = true ∧ tableMnemonic t.format t.selector = some i.mnemonic) ∧
  (∀ (t : Transaction) (why : DecodeReject), decode t = .error why ↔
    (why = .writeIsTheProducers ∧ ∃ n skip data, t = .ring .consumer 2 n skip data) ∨
    (why = .readIsTheConsumers ∧ ∃ n skip data,
      t = .ring .producer 3 n skip data ∨ t = .ring .producer 4 n skip data) ∨
    (why = .dataShorterThanCount ∧
      ((∃ n skip data, t = .ring .producer 2 n skip data ∧ data.length < n) ∨
       (∃ b bytes len, t = .parser 3 b bytes len ∧ bytes.length < len))))

/-- R92: exactly one class for each of the 256 byte values. -/
def Obligations.EveryByteHasExactlyOneClass : Prop :=
  ∀ b : Byte, ∃ i, decode (.byte b) = .ok i ∧
    (b = 0x24 → i = .pbDollar) ∧ (b = 0x2C → i = .pbComma) ∧ (b = 0x2A → i = .pbStar) ∧
    (b = 0x0D → i = .pbCr) ∧
    (b ≠ 0x24 → b ≠ 0x2C → b ≠ 0x2A → b ≠ 0x0D → i = .pbOther b)

/-- Selectors written out from the tables of 30_encoding.md decode to the operations they stand for. That a write
with more data bytes than its count means the first that many is the model's choice (log 11). -/
def Obligations.SelectorsOfTheTablesDecode : Prop :=
  decode (.byte 0b00100100) = .ok .pbDollar ∧ decode (.byte 0b01000001) = .ok (.pbOther 0x41) ∧
  decode (.parser 0b01 0 [] 0) = .ok .pInit ∧ decode (.parser 0b10 0x24 [] 0) = .ok (.pb 0x24) ∧
  decode (.ring .producer 0b010 2 0 [0x61, 0x62, 0x63]) = .ok (.rbWrite [0x61, 0x62]) ∧
  decode (.ring .consumer 0b100 9 5 []) = .ok (.rbPeek 5 9) ∧
  decode (.term 0b0100001001) = .ok .ggaAlt ∧ decode (.term 0b1000001001) = .ok .rmcDate ∧
  decode (.term 0b1000000000) = .ok .tId ∧ decode (.term 0b0100001000) = .ok (.tNone 1 8)

/-- A step runs the decoded operation: with a transaction at the head of the schedule that decodes to `i`, the
step is `exec i` on the state without that entry. With nothing scheduled the block holds its state (R245). The
schedule is the model's own (log 1), and so is that a transaction which is no operation is refused by name (log 10,
log 11). -/
def Obligations.StepRunsThePresentedOperation : Prop :=
  ∀ s : State,
    (s.sched = [] → step s = .next s) ∧
    (∀ t rest, s.sched = .present t :: rest →
      (∀ i, decode t = .ok i → step s = exec i (s.withSched rest)) ∧
      (∀ why, decode t = .error why → step s = .refused (.rejected why)))

/-! ### Reset and invariants -/

/-- Hardware reset at any moment: all of `p`, all of `fix` and both cursors zero, the ring empty, no cell known,
no transfer in progress; the parameters stay. The spec's own decision (92_eei_decisions.md D21, U1). The model's
own are that operations in progress end (log 6), the counter `epoch` (log 5) and the schedule (log 1). -/
def Obligations.HardwareResetZeroesEverythingButTheCells : Prop :=
  ∀ s rest, s.sched = .hardwareReset :: rest →
    ∃ t, step s = .next t ∧ t.p = Parser.zero ∧ t.fix = Records.zero ∧ t.rb.r = 0 ∧ t.rb.w = 0 ∧
      t.empty = true ∧ t.full = false ∧ t.occ = 0 ∧ t.free = s.cfg.C - 1 ∧
      (∀ a, Memory.read? t.rb.mem a = none) ∧ t.epoch = s.epoch + 1 ∧
      t.writing = none ∧ t.reading = none ∧ t.spanning = none ∧ t.cfg = s.cfg ∧ t.sched = rest

/-- Hardware reset leaves what `P_INIT` followed by `RB_INIT` would leave in `p`, `fix` and the cursors
(70_reset_and_hazards.md section 1, the spec's own decision D21). -/
def Obligations.HardwareResetIsInitOfBothComponents : Prop :=
  ∀ s port, s.Quiescent →
    ∃ t, execAll [.pInit, .rbInit port] s = .next t ∧ t.p = s.hardwareReset.p ∧ t.fix = s.hardwareReset.fix ∧
      t.rb.r = s.hardwareReset.rb.r ∧ t.rb.w = s.hardwareReset.rb.w ∧ t.rb.mem = s.rb.mem

/-- The state after reset meets the invariant, for every parameter setting. -/
def Obligations.StateAfterResetMeetsTheInvariant : Prop :=
  ∀ cfg n, (State.afterReset cfg n).Inv ∧ (State.afterReset cfg n).Quiescent

/-- Every step keeps the invariant: cursors below `C`, the cells in canonical form, the occupied region written,
the kept characters legal, and transfers in progress consistent with the cursors and the cells, whatever the
interleaving (R45, R136, R63, R78, R85). -/
def Obligations.EveryStepKeepsTheInvariant : Prop :=
  ∀ s t, s.Inv → step s = .next t → t.Inv

/-! ### Byte operations -/

/-- R125. -/
def Obligations.DollarRestartsTheParser : Prop :=
  ∀ s : State, s.spanning = none →
    ∃ t, exec .pbDollar s = .next t ∧ t.p.kind = .unknown ∧ t.p.tidx = 0 ∧ t.p.star = false ∧ t.p.csum = 0 ∧
      t.p.s = Records.zero ∧ t.p.tlen = 1 ∧ t.p.tc 0 = 0x24 ∧ (∀ i, 0 < i → t.p.tc i = 0) ∧
      t.pEv = .none ∧ t.fix = s.fix ∧ s.SameOutsideParser t

/-- R126 (the comma after a star is the spec's decision D14): the operation that the dispatch key selects runs
first, then the comma is XORed whatever the star flag, then the next term starts (R121; that its index saturates
at 255 is the spec's decision D11). -/
def Obligations.CommaFinalizesThenXorsThenStartsATerm : Prop :=
  ∀ s : State, s.spanning = none →
    ∃ i u t, decode (.term s.p.key) = .ok i ∧ exec i s = .next u ∧ exec .pbComma s = .next t ∧
      t.p.kind = u.p.kind ∧ t.p.s = u.p.s ∧ t.p.csum = s.p.csum ^^^ 0x2C ∧ t.p.star = s.p.star ∧
      t.p.tidx.toNat = min (s.p.tidx.toNat + 1) 255 ∧ t.p.tlen = 0 ∧ (∀ j, t.p.tc j = 0) ∧
      t.pEv = .none ∧ t.fix = s.fix ∧ s.SameOutsideParser t

/-- R127, and R121 for the next term (that its index saturates at 255 is the spec's decision D11): the operation
that the dispatch key selects runs first, then the star flag is set; the star is neither XORed nor stored. -/
def Obligations.StarFinalizesThenEndsTheChecksum : Prop :=
  ∀ s : State, s.spanning = none →
    ∃ i u t, decode (.term s.p.key) = .ok i ∧ exec i s = .next u ∧ exec .pbStar s = .next t ∧
      t.p.kind = u.p.kind ∧ t.p.s = u.p.s ∧ t.p.csum = s.p.csum ∧ t.p.star = true ∧
      t.p.tidx.toNat = min (s.p.tidx.toNat + 1) 255 ∧ t.p.tlen = 0 ∧ (∀ j, t.p.tc j = 0) ∧
      t.pEv = .none ∧ t.fix = s.fix ∧ s.SameOutsideParser t

/-- R128, R193 (decisions D9 and D10 of the spec): the two first characters of the current term against the
running checksum; the star flag and the kind do not enter; under `REJECT` both must be hexadecimal. Without
a match nothing changes but the event; on a match the group of the kind, and no other, is the scratch record
(R160), and kind Unknown writes nothing. -/
def Obligations.CarriageReturnPublishesExactlyOnAMatch : Prop :=
  ∀ s : State, s.spanning = none →
    ∃ t, exec .pbCr s = .next t ∧ t.p = s.p ∧ s.SameOutsideParser t ∧
      (((hexVal (s.p.tc 0)).1 * 16 + (hexVal (s.p.tc 1)).1 = s.p.csum.toNat ∧
          (s.cfg.hexInvalid = .reject → (hexVal (s.p.tc 0)).2 = true ∧ (hexVal (s.p.tc 1)).2 = true)) →
        t.pEv = (match s.p.kind with
          | .gga => .pubGga
          | .rmc => .pubRmc
          | .unknown => .dropUnknown) ∧
        t.fix = (match s.p.kind with
          | .gga => ⟨s.p.s.gga, s.fix.rmc⟩
          | .rmc => ⟨s.fix.gga, s.p.s.rmc⟩
          | .unknown => s.fix)) ∧
      (¬ ((hexVal (s.p.tc 0)).1 * 16 + (hexVal (s.p.tc 1)).1 = s.p.csum.toNat ∧
          (s.cfg.hexInvalid = .reject → (hexVal (s.p.tc 0)).2 = true ∧ (hexVal (s.p.tc 1)).2 = true)) →
        t.pEv = .dropCrc ∧ t.fix = s.fix)

/-- R160: on a match the whole group of the sentence's kind is replaced and nothing else; Unknown writes
nothing; publishing twice leaves what once leaves. -/
def Obligations.PublicationReplacesOneWholeGroup : Prop :=
  ∀ s : State, s.spanning = none → s.crcOk = true →
    ∃ t, exec .pbCr s = .next t ∧ t.p = s.p ∧ s.SameOutsideParser t ∧
      (s.p.kind = .gga → t.fix.gga = s.p.s.gga ∧ t.fix.rmc = s.fix.rmc ∧ t.pEv = .pubGga) ∧
      (s.p.kind = .rmc → t.fix.rmc = s.p.s.rmc ∧ t.fix.gga = s.fix.gga ∧ t.pEv = .pubRmc) ∧
      (s.p.kind = .unknown → t.fix = s.fix ∧ t.pEv = .dropUnknown) ∧
      exec .pbCr t = .next t

/-- R195: a mismatch resets nothing and is not remembered: the next `'$'` gives what it would have given
without the failed carriage return. -/
def Obligations.MismatchIsNotRemembered : Prop :=
  ∀ s : State, s.spanning = none → s.crcOk = false →
    exec .pbCr s = .next { s with pEv := .dropCrc } ∧
    execAll [.pbCr, .pbDollar] s = exec .pbDollar s ∧
    ∃ t, exec .pbDollar s = .next t ∧ t.fix = s.fix

/-- R129: the XOR does not depend on whether the byte is kept; the 13th character is dropped and reported. -/
def Obligations.OtherByteIsXoredAndKeptIfItFits : Prop :=
  ∀ (s : State) (b : Byte), s.spanning = none → Instr.wf (.pbOther b) = true →
    ∃ t, exec (.pbOther b) s = .next t ∧
      t.p.csum = (if s.p.star then s.p.csum else s.p.csum ^^^ b) ∧
      (s.p.tlen.val < 12 → t.p.tlen.val = s.p.tlen.val + 1 ∧ t.p.tc s.p.tlen.val = b ∧
        (∀ i < s.p.tlen.val, t.p.tc i = s.p.tc i) ∧ t.pEv = .none) ∧
      (s.p.tlen.val = 12 → t.p.tlen = s.p.tlen ∧ t.p.term = s.p.term ∧ t.pEv = .trunc) ∧
      t.p.kind = s.p.kind ∧ t.p.tidx = s.p.tidx ∧ t.p.star = s.p.star ∧ t.p.s = s.p.s ∧
      t.fix = s.fix ∧ s.SameOutsideParser t

/-! ### Parser commands -/

/-- R123 without its remark on the rest of the sentence (that is `NoDollarNoFix`), and the no-operation of R110
(the spec's decision D15): the first zeroes all of `p` and `fix`, the second changes nothing but the event. -/
def Obligations.InitZeroesParserAndFixAndNopNothing : Prop :=
  ∀ s : State,
    (s.spanning = none →
      ∃ t, exec .pInit s = .next t ∧ t.p = Parser.zero ∧ t.fix = Records.zero ∧ t.pEv = .none ∧
        s.SameOutsideParser t) ∧
    (∃ t, exec .pNop s = .next t ∧ t.p = s.p ∧ t.fix = s.fix ∧ t.pEv = .none ∧ s.SameOutsideParser t)

/-- R124: `PB b` is the operation that the class of `b` selects. -/
def Obligations.PbIsTheOperationOfTheClassOfItsByte : Prop :=
  ∀ (b : Byte) (i : Instr), decode (.byte b) = .ok i → ∀ s : State,
    exec (.pb b) s = exec i s ∧ (s.spanning = none → ∃ t, exec (.pb b) s = .next t)

/-- R130: a span is its bytes one after another, all of them, and how a stream is split into spans has no
effect; a span of no bytes does nothing (that it drives no event, so that the event output keeps its value, is
the model's choice, log 16). -/
def Obligations.ProcessIsEveryByteInOrder : Prop :=
  ∀ s : State, s.spanning = none →
    (∀ bytes, exec (.pProcess bytes) s = execAll (bytes.map .pb) s ∧
      ∃ t, exec (.pProcess bytes) s = .next t) ∧
    (∀ spans : List (List Byte), execAll (spans.map .pProcess) s = exec (.pProcess spans.flatten) s) ∧
    exec (.pProcess []) s = .next s

/-- R130, each `PB` a step of its own (the model's stepwise form, log 16): starting a span and then taking one
step per byte ends where the whole operation ends. -/
def Obligations.SpanByteByByteEndsAsTheWholeSpan : Prop :=
  ∀ (s : State) (bytes : List Byte) (rest : List Input), s.spanning = none →
    s.sched = .start (encode (.pProcess bytes)) :: (List.replicate bytes.length (.advance .parser) ++ rest) →
      stepAll (bytes.length + 1) s = exec (.pProcess bytes) (s.withSched rest)

/-! ### Term operations -/

/-- R141 (the two settings of `P_ID_MATCH` are the spec's decision D8): the kind, the zeroed record, and what
stays. -/
def Obligations.IdentifierSetsTheKind : Prop :=
  ∀ s : State,
    let names : Text → Prop := fun lit =>
      match s.cfg.idMatch with
      | .wholeTerm => s.p.tlen.val = 6 ∧ ∀ i < 6, s.p.tc i = charAt lit i
      | .prefix6 => ∀ i < 6, s.p.tc i = charAt lit i
    ∃ t, exec .tId s = .next t ∧
      (names [0x24, 0x47, 0x50, 0x47, 0x47, 0x41] ∨ names [0x24, 0x47, 0x4E, 0x47, 0x47, 0x41] →
        t.p.kind = .gga ∧ t.p.s.gga = GgaRecord.zero ∧ t.p.s.rmc = s.p.s.rmc) ∧
      (names [0x24, 0x47, 0x50, 0x52, 0x4D, 0x43] ∨ names [0x24, 0x47, 0x4E, 0x52, 0x4D, 0x43] →
        t.p.kind = .rmc ∧ t.p.s.rmc = RmcRecord.zero ∧ t.p.s.gga = s.p.s.gga) ∧
      (¬ names [0x24, 0x47, 0x50, 0x47, 0x47, 0x41] → ¬ names [0x24, 0x47, 0x4E, 0x47, 0x47, 0x41] →
        ¬ names [0x24, 0x47, 0x50, 0x52, 0x4D, 0x43] → ¬ names [0x24, 0x47, 0x4E, 0x52, 0x4D, 0x43] →
        t.p.kind = .unknown ∧ t.p.s = s.p.s) ∧
      s.p.SameFraming t.p ∧ t.fix = s.fix ∧ t.pEv = s.pEv ∧ s.SameOutsideParser t

/-- R142, R155, R177 (a character that is no digit counts 0: the spec's decision D5): three groups of two
digits at fixed positions, into three fields; everything else stays. -/
def Obligations.TimeAndDateReadThreeGroups : Prop :=
  ∀ s : State,
    let d : Nat → Nat := fun i =>
      if 0x30 ≤ (s.p.tc i).toNat ∧ (s.p.tc i).toNat ≤ 0x39 then (s.p.tc i).toNat - 0x30 else 0
    (∃ t, exec .ggaTime s = .next t ∧ t.p.s.gga.hh.toNat = 10 * d 0 + d 1 ∧
      t.p.s.gga.mm.toNat = 10 * d 2 + d 3 ∧ t.p.s.gga.ss.toNat = 10 * d 4 + d 5 ∧
      t = s.withP (s.p.withGga { s.p.s.gga with
        hh := t.p.s.gga.hh, mm := t.p.s.gga.mm, ss := t.p.s.gga.ss })) ∧
    (∃ t, exec .rmcDate s = .next t ∧ t.p.s.rmc.dd.toNat = 10 * d 0 + d 1 ∧
      t.p.s.rmc.mo.toNat = 10 * d 2 + d 3 ∧ t.p.s.rmc.yy.toNat = 10 * d 4 + d 5 ∧
      t = s.withP (s.p.withRmc { s.p.s.rmc with
        dd := t.p.s.rmc.dd, mo := t.p.s.rmc.mo, yy := t.p.s.rmc.yy }))

/-- R143, R145, R183: the 64-bit field holds the decoder's integer exactly; everything else stays. The number
format is the spec's decision D1. -/
def Obligations.LatitudeAndLongitudeStoreTheExactDmm : Prop :=
  ∀ s : State,
    (∃ t, exec .ggaLat s = .next t ∧ t.p.s.gga.lat.toInt = decDmm s.p.text ∧
      t = s.withP (s.p.withGga { s.p.s.gga with lat := t.p.s.gga.lat })) ∧
    (∃ t, exec .ggaLon s = .next t ∧ t.p.s.gga.lon.toInt = decDmm s.p.text ∧
      t = s.withP (s.p.withGga { s.p.s.gga with lon := t.p.s.gga.lon }))

/-- R149, R150, R153, R154, R156, R183: the five generic decimal fields. The number format is the spec's
decision D1. -/
def Obligations.DecimalFieldsStoreTheExactDecimal : Prop :=
  ∀ s : State,
    (∃ t, exec .ggaAlt s = .next t ∧ t.p.s.gga.alt.toInt = decDec s.p.text ∧
      t = s.withP (s.p.withGga { s.p.s.gga with alt := t.p.s.gga.alt })) ∧
    (∃ t, exec .ggaGeoid s = .next t ∧ t.p.s.gga.geoid.toInt = decDec s.p.text ∧
      t = s.withP (s.p.withGga { s.p.s.gga with geoid := t.p.s.gga.geoid })) ∧
    (∃ t, exec .rmcSpeed s = .next t ∧ t.p.s.rmc.speed.toInt = decDec s.p.text ∧
      t = s.withP (s.p.withRmc { s.p.s.rmc with speed := t.p.s.rmc.speed })) ∧
    (∃ t, exec .rmcCourse s = .next t ∧ t.p.s.rmc.course.toInt = decDec s.p.text ∧
      t = s.withP (s.p.withRmc { s.p.s.rmc with course := t.p.s.rmc.course })) ∧
    (∃ t, exec .rmcVar s = .next t ∧ t.p.s.rmc.var.toInt = decDec s.p.text ∧
      t = s.withP (s.p.withRmc { s.p.s.rmc with var := t.p.s.rmc.var }))

/-- R147, R148, R173: the integer fields hold the non-negative remainder modulo 256 (the spec's decision D3). -/
def Obligations.IntegerFieldsStoreTheRemainderOf256 : Prop :=
  ∀ s : State,
    (∃ t, exec .ggaFixq s = .next t ∧ (t.p.s.gga.fixq.toNat : Int) = decInt s.p.text % 256 ∧
      t = s.withP (s.p.withGga { s.p.s.gga with fixq := t.p.s.gga.fixq })) ∧
    (∃ t, exec .ggaSats s = .next t ∧ (t.p.s.gga.sats.toNat : Int) = decInt s.p.text % 256 ∧
      t = s.withP (s.p.withGga { s.p.s.gga with sats := t.p.s.gga.sats }))

/-- R144, R146, R157, R178 (which letters count is the spec's decision D6): the sign letter negates the field,
any other first character leaves the state as it is. The one value whose negation overflows is -2^63, which
no decoder produces (R183). -/
def Obligations.SignLettersNegateTheirField : Prop :=
  ∀ s : State,
    (∃ t, exec .ggaNs s = .next t ∧
      (s.p.tc 0 = 0x53 ∨ s.p.tc 0 = 0x73 →
        t = s.withP (s.p.withGga { s.p.s.gga with lat := t.p.s.gga.lat }) ∧
        (s.p.s.gga.lat.toInt ≠ -(2 ^ 63) → t.p.s.gga.lat.toInt = -s.p.s.gga.lat.toInt)) ∧
      (s.p.tc 0 ≠ 0x53 → s.p.tc 0 ≠ 0x73 → t = s)) ∧
    (∃ t, exec .ggaEw s = .next t ∧
      (s.p.tc 0 = 0x57 ∨ s.p.tc 0 = 0x77 →
        t = s.withP (s.p.withGga { s.p.s.gga with lon := t.p.s.gga.lon }) ∧
        (s.p.s.gga.lon.toInt ≠ -(2 ^ 63) → t.p.s.gga.lon.toInt = -s.p.s.gga.lon.toInt)) ∧
      (s.p.tc 0 ≠ 0x57 → s.p.tc 0 ≠ 0x77 → t = s)) ∧
    (∃ t, exec .rmcVarew s = .next t ∧
      (s.p.tc 0 = 0x57 ∨ s.p.tc 0 = 0x77 →
        t = s.withP (s.p.withRmc { s.p.s.rmc with var := t.p.s.rmc.var }) ∧
        (s.p.s.rmc.var.toInt ≠ -(2 ^ 63) → t.p.s.rmc.var.toInt = -s.p.s.rmc.var.toInt)) ∧
      (s.p.tc 0 ≠ 0x57 → s.p.tc 0 ≠ 0x77 → t = s))

/-- R152: only an upper-case `'A'` at position 0 counts (the spec's decision D7). -/
def Obligations.ValidityIsAnUpperCaseA : Prop :=
  ∀ s : State, ∃ t, exec .rmcValid s = .next t ∧
    (t.p.s.rmc.valid = true ↔ s.p.tc 0 = 0x41) ∧
    t = s.withP (s.p.withRmc { s.p.s.rmc with valid := t.p.s.rmc.valid })

/-- R159: the keys that select `T_NONE`, by kind, and that it changes nothing, whichever key selected it. -/
def Obligations.UnlistedTermsAreIgnored : Prop :=
  (∀ (kind : Kind) (tidx : Byte), tidx ≠ 0 →
    ((kind = .unknown ∨
      (kind = .gga ∧ (tidx = 8 ∨ tidx = 10 ∨ 12 ≤ tidx.toNat)) ∨
      (kind = .rmc ∧ (tidx = 1 ∨ tidx = 3 ∨ tidx = 4 ∨ tidx = 5 ∨ tidx = 6 ∨ 12 ≤ tidx.toNat))) ↔
      decode (.term (makeKey kind.code tidx)) = .ok (.tNone kind.code tidx))) ∧
  ∀ (bits : BitVec 2) (tidx : Byte) (s : State), exec (.tNone bits tidx) s = .next s

/-- 41_term_dispatch.md section 1 and 60_exceptions.md R246: a term operation changes the scratch record and
the kind at most: not the framing, not the checksum, not `fix`, not the event, nothing outside the parser. -/
def Obligations.TermOperationsTouchOnlyTheScratchRecord : Prop :=
  ∀ (i : Instr) (s : State), (encode i).format = .term →
    ∃ t, exec i s = .next t ∧ s.p.SameFraming t.p ∧ t.fix = s.fix ∧ t.pEv = s.pEv ∧ s.SameOutsideParser t ∧
      (i ≠ .tId → t.p.kind = s.p.kind) ∧
      (∀ tidx, i = decodeGga tidx → t.p.s.rmc = s.p.s.rmc) ∧
      (∀ tidx, i = decodeRmc tidx → t.p.s.gga = s.p.s.gga)

/-- 41_term_dispatch.md section 5 (R162): what every term operation does with an empty term. -/
def Obligations.EmptyTermsDecodeToZero : Prop :=
  ∀ s : State, s.p.tlen = 0 →
    (∃ t, exec .tId s = .next t ∧ t.p.kind = .unknown) ∧
    (exec .ggaTime s = .next (s.withP (s.p.withGga { s.p.s.gga with hh := 0, mm := 0, ss := 0 }))) ∧
    (exec .ggaLat s = .next (s.withP (s.p.withGga { s.p.s.gga with lat := 0 }))) ∧
    (exec .ggaNs s = .next s) ∧
    (exec .ggaLon s = .next (s.withP (s.p.withGga { s.p.s.gga with lon := 0 }))) ∧
    (exec .ggaEw s = .next s) ∧
    (exec .ggaFixq s = .next (s.withP (s.p.withGga { s.p.s.gga with fixq := 0 }))) ∧
    (exec .ggaSats s = .next (s.withP (s.p.withGga { s.p.s.gga with sats := 0 }))) ∧
    (exec .ggaAlt s = .next (s.withP (s.p.withGga { s.p.s.gga with alt := 0 }))) ∧
    (exec .ggaGeoid s = .next (s.withP (s.p.withGga { s.p.s.gga with geoid := 0 }))) ∧
    (exec .rmcValid s = .next (s.withP (s.p.withRmc { s.p.s.rmc with valid := false }))) ∧
    (exec .rmcSpeed s = .next (s.withP (s.p.withRmc { s.p.s.rmc with speed := 0 }))) ∧
    (exec .rmcCourse s = .next (s.withP (s.p.withRmc { s.p.s.rmc with course := 0 }))) ∧
    (exec .rmcDate s = .next (s.withP (s.p.withRmc { s.p.s.rmc with dd := 0, mo := 0, yy := 0 }))) ∧
    (exec .rmcVar s = .next (s.withP (s.p.withRmc { s.p.s.rmc with var := 0 }))) ∧
    (exec .rmcVarew s = .next s)

/-! ### Numeric decoders -/

/-- R98, R171, R172, R174, R181 (the grammar is the spec's decision D4): spaces, an optional minus, digits, a point,
digits, then anything that starts with no digit; and the same without a fraction. Digits may be absent on either
side of the point. The integer decoder stops at the point. -/
def Obligations.DecimalTextIsReadByItsGrammar : Prop :=
  ∀ (n : Nat) (neg : Bool) (ds es garbage : Text),
    (∀ c ∈ ds, isDigit c = true) → (∀ c ∈ es, isDigit c = true) →
    let front : Text := List.replicate n 0x20 ++ (if neg then [0x2D] else []) ++ ds
    ((∀ c ∈ garbage.head?, isDigit c = false) →
      decFix (front ++ 0x2E :: (es ++ garbage)) = ⟨neg, digitsNumber (ds ++ es), es.length⟩ ∧
      decInt (front ++ 0x2E :: (es ++ garbage)) = if neg then -(digitsNumber ds : Int) else (digitsNumber ds : Int)) ∧
    ((∀ c ∈ garbage.head?, isDigit c = false ∧ c ≠ 0x2E ∧ (ds = [] → neg = false → c ≠ 0x20 ∧ c ≠ 0x2D)) →
      decFix (front ++ garbage) = ⟨neg, digitsNumber ds, 0⟩ ∧
      decInt (front ++ garbage) = if neg then -(digitsNumber ds : Int) else (digitsNumber ds : Int))

/-- 42_numeric_decoders.md section 8 (R180; the number format is the spec's decision D1): a decimal field is the
exact value truncated toward zero to a multiple of 10^-6, with the sign of the text. -/
def Obligations.DecimalFieldsTruncateTowardZero : Prop :=
  ∀ t : Text, let f := decFix t
    (decDec t).natAbs * 10 ^ f.frac ≤ f.mag * 10 ^ 6 ∧
    f.mag * 10 ^ 6 < ((decDec t).natAbs + 1) * 10 ^ f.frac ∧
    (f.neg = true → decDec t ≤ 0) ∧ (f.neg = false → 0 ≤ decDec t)

/-- 42_numeric_decoders.md section 8 (R180; D1): degrees are the raw value divided by 100 toward zero, and the
result is degrees plus minutes / 60 truncated toward zero to a multiple of 10^-7, all on the magnitude. -/
def Obligations.DegreesAndMinutesTruncateTowardZero : Prop :=
  ∀ (t : Text) (deg minutes : Nat), let f := decFix t
    f.mag = deg * (100 * 10 ^ f.frac) + minutes → minutes < 100 * 10 ^ f.frac →
    (decDmm t).natAbs * (60 * 10 ^ f.frac) ≤ (deg * (60 * 10 ^ f.frac) + minutes) * 10 ^ 7 ∧
    (deg * (60 * 10 ^ f.frac) + minutes) * 10 ^ 7 < ((decDmm t).natAbs + 1) * (60 * 10 ^ f.frac) ∧
    (f.neg = true → decDmm t ≤ 0) ∧ (f.neg = false → 0 ≤ decDmm t)

/-- 42_numeric_decoders.md section 8 (R183): with at most 12 characters no decoder leaves its width, and the
64-bit register holds the result exactly, also after the sign operation (R178). -/
def Obligations.DecodersFitTheirRegisters : Prop :=
  ∀ t : Text, t.length ≤ 12 →
    (decFix t).mag < 10 ^ 12 ∧ (decFix t).frac ≤ 11 ∧ (decInt t).natAbs < 10 ^ 12 ∧
    (decDec t).natAbs < 10 ^ 18 ∧ (decDmm t).natAbs < 2 ^ 63 ∧
    (toFx (decDec t)).toInt = decDec t ∧ (toFx (decDmm t)).toInt = decDmm t ∧
    (negFx (toFx (decDec t))).toInt = -decDec t ∧ (negFx (toFx (decDmm t))).toInt = -decDmm t

/-- R191, R192 (the value of another character is the spec's decision D9): two hexadecimal characters, in either
case, give their byte whatever follows them; a character that is not hexadecimal counts 0 and is invalid. -/
def Obligations.HexPairGivesItsByte : Prop :=
  let upper : Nat → Byte := fun d => if d < 10 then BitVec.ofNat 8 (0x30 + d) else BitVec.ofNat 8 (0x41 + (d - 10))
  let lower : Nat → Byte := fun d => if d < 10 then BitVec.ofNat 8 (0x30 + d) else BitVec.ofNat 8 (0x61 + (d - 10))
  (∀ hi lo : Nat, hi < 16 → lo < 16 → ∀ (a b : Byte) (rest : Text),
    (a = upper hi ∨ a = lower hi) → (b = upper lo ∨ b = lower lo) →
    (expectedValue (a :: b :: rest)).toNat = hi * 16 + lo ∧ expectedValid (a :: b :: rest) = true) ∧
  (∀ c : Byte, (∀ d < 16, c ≠ upper d ∧ c ≠ lower d) → hexVal c = (0, false))

/-! ### Whole-parser rules -/

/-- 60_exceptions.md section 1 (R246): `fix` changes only by `P_INIT`, or by a carriage return whose checksum
matches in a sentence of a known kind, whichever operation brings that carriage return. -/
def Obligations.FixChangesOnlyByInitOrAMatchingSentence : Prop :=
  ∀ (i : Instr) (s t : State), exec i s = .next t → t.fix ≠ s.fix →
    i = .pInit ∨
    ((i = .pbCr ∨ i = .pb 0x0D) ∧ s.crcOk = true ∧ s.p.kind ≠ .unknown) ∨
    ∃ before after u, i = .pProcess (before ++ 0x0D :: after) ∧ exec (.pProcess before) s = .next u ∧
      u.crcOk = true ∧ u.p.kind ≠ .unknown

/-- 20_memory.md section 8 (R84): in one step of anything but a whole span, each group of `fix` stays as it was,
or becomes the scratch record, or becomes zero, as a whole. -/
def Obligations.NoStepMixesAFixGroup : Prop :=
  ∀ (s t : State), step s = .next t →
    (∀ tr rest bytes, s.sched = .present tr :: rest → decode tr ≠ .ok (.pProcess bytes)) →
    (t.fixPortGga = s.fixPortGga ∨ t.fixPortGga = s.p.s.gga ∨ t.fixPortGga = GgaRecord.zero) ∧
    (t.fixPortRmc = s.fixPortRmc ∨ t.fixPortRmc = s.p.s.rmc ∨ t.fixPortRmc = RmcRecord.zero)

/-- 40_parser_bytes.md section 4 (R133): from the zero parser state no byte sequence free of `'$'` changes
`fix`, and the kind stays Unknown. -/
def Obligations.NoDollarNoFix : Prop :=
  ∀ (s : State) (bytes : List Byte), s.spanning = none → s.p = Parser.zero → (0x24 : Byte) ∉ bytes →
    ∃ t, exec (.pProcess bytes) s = .next t ∧ t.fix = s.fix ∧ t.p.kind = .unknown

/-- 43_crc_validator.md (R190; the comma after a star is the spec's decision D14): the running checksum after a
`'$'`, bytes without star, and then possibly a star and bytes of any class but dollar. -/
def Obligations.ChecksumIsTheXorOfTheCoveredBytes : Prop :=
  ∀ (s : State) (xs ys : List Byte), s.spanning = none →
    (0x24 : Byte) ∉ xs → (0x2A : Byte) ∉ xs → (0x24 : Byte) ∉ ys →
    (∃ t, exec (.pProcess (0x24 :: xs)) s = .next t ∧ t.p.csum = xorAll (xs.filter (· != 0x0D))) ∧
    (∃ t, exec (.pProcess (0x24 :: (xs ++ 0x2A :: ys))) s = .next t ∧
      t.p.csum = xorAll (xs.filter (· != 0x0D)) ^^^ xorAll (ys.filter (· == 0x2C)))

/-- 30_encoding.md sections 1, 2, 4 and 43_crc_validator.md (R90, R94, R106, R194): a sentence of the wire
format whose two hexadecimal characters are the XOR of its body publishes exactly the group of its kind, from any
parser state and under every parameter setting; with any other two hexadecimal characters it publishes nothing;
with an unknown identifier it publishes nothing. -/
def Obligations.WellFormedSentencePublishesByItsChecksum : Prop :=
  ∀ (s : State) (ident : Text) (fields : List Text) (hi lo : Byte), s.spanning = none →
    ident.length = 5 → plainText ident = true → (∀ f ∈ fields, plainText f = true) →
    (hexVal hi).2 = true → (hexVal lo).2 = true →
    ∃ t, exec (.pProcess (sentence ident fields hi lo)) s = .next t ∧
      ((hexVal hi).1 * 16 + (hexVal lo).1 ≠ (xorAll (sentenceBody ident fields)).toNat →
        t.pEv = .dropCrc ∧ t.fix = s.fix) ∧
      ((hexVal hi).1 * 16 + (hexVal lo).1 = (xorAll (sentenceBody ident fields)).toNat →
        ((ident = [0x47, 0x50, 0x47, 0x47, 0x41] ∨ ident = [0x47, 0x4E, 0x47, 0x47, 0x41]) →
          t.pEv = .pubGga ∧ t.fix.gga = t.p.s.gga ∧ t.fix.rmc = s.fix.rmc) ∧
        ((ident = [0x47, 0x50, 0x52, 0x4D, 0x43] ∨ ident = [0x47, 0x4E, 0x52, 0x4D, 0x43]) →
          t.pEv = .pubRmc ∧ t.fix.rmc = t.p.s.rmc ∧ t.fix.gga = s.fix.gga) ∧
        (ident ≠ [0x47, 0x50, 0x47, 0x47, 0x41] → ident ≠ [0x47, 0x4E, 0x47, 0x47, 0x41] →
          ident ≠ [0x47, 0x50, 0x52, 0x4D, 0x43] → ident ≠ [0x47, 0x4E, 0x52, 0x4D, 0x43] →
          t.pEv = .dropUnknown ∧ t.fix = s.fix))

/-- 40_parser_bytes.md section 4 (R135): a byte string that begins with `'$'` fed twice leaves the same `fix` and
the same last event as fed once; a second `'$'` or `'\r'` straight after the first changes nothing more. -/
def Obligations.RepetitionDoesNotDrift : Prop :=
  ∀ s : State, s.spanning = none →
    (∀ bytes, ∃ t u, exec (.pProcess (0x24 :: bytes)) s = .next t ∧ exec (.pProcess (0x24 :: bytes)) t = .next u ∧
      u.fix = t.fix ∧ u.pEv = t.pEv ∧ t.p.Looks u.p) ∧
    execAll [.pbDollar, .pbDollar] s = exec .pbDollar s ∧
    execAll [.pbCr, .pbCr] s = exec .pbCr s

/-- 10_state.md sections 4 and 93_implementation_defined.md U6 (R31): cells beyond the length of the term are
never read: two states that differ only there go on alike under every operation. -/
def Obligations.StaleTermCellsAreNeverRead : Prop :=
  ∀ (i : Instr) (s t : State) (q : Parser), s.p.Looks q → exec i s = .next t →
    ∃ q', exec i (s.withP q) = .next (t.withP q') ∧ t.p.Looks q'

/-! ### Ring buffer -/

/-- R203, R204: occupancy and free space as non-negative remainders, their ranges, and that the queries change
nothing but the result of the port they came on, `prodOut` or `consOut`. That they answer at once while a transfer of their own port is in
progress is the model's choice (log 22). -/
def Obligations.SizeQueriesAnswerFromTheCursors : Prop :=
  ∀ (s : State) (port : Agent),
    (∃ k : Nat,
      exec (.rbOcc port) s = .next (match port with
        | .producer => { s with prodOut := ⟨k, []⟩ }
        | .consumer => { s with consOut := ⟨k, []⟩ }) ∧
      (k : Int) = ((s.rb.w : Int) - s.rb.r) % s.cfg.C ∧ k ≤ s.cfg.C - 1 ∧
      (s.rb.r = s.rb.w → k = 0) ∧ (s.rb.r < s.cfg.C → s.full = true → k = s.cfg.C - 1)) ∧
    (∃ k : Nat,
      exec (.rbFree port) s = .next (match port with
        | .producer => { s with prodOut := ⟨k, []⟩ }
        | .consumer => { s with consOut := ⟨k, []⟩ }) ∧
      (k : Int) = s.cfg.C - 1 - ((s.rb.w : Int) - s.rb.r) % s.cfg.C ∧ k ≤ s.cfg.C - 1 ∧
      (s.rb.r = s.rb.w → k = s.cfg.C - 1) ∧ (s.rb.r < s.cfg.C → s.full = true → k = 0))

/-- R205. -/
def Obligations.WriteStoresTheBytesThatFit : Prop :=
  ∀ (s : State) (data : List Byte), s.writing = none → s.rb.r < s.cfg.C → s.rb.w < s.cfg.C →
    ∃ t k, exec (.rbWrite data) s = .next t ∧ k = min data.length s.free ∧ t.prodOut = ⟨k, []⟩ ∧
      (∀ i < k, t.cell ((s.rb.w + i) % s.cfg.C) = charAt data i) ∧
      (∀ a, (∀ i < k, a ≠ (s.rb.w + i) % s.cfg.C) → t.cell a = s.cell a) ∧
      t.rb.w = (s.rb.w + k) % s.cfg.C ∧ t.rb.r = s.rb.r ∧
      (0 < k → t.empty = false) ∧ (t.full = true ↔ k = s.free) ∧ (k = 0 → t.rb = s.rb) ∧
      s.SameOutsideRing t ∧ t.writing = none ∧ t.reading = s.reading ∧ t.consOut = s.consOut

/-- R206. -/
def Obligations.ReadReturnsTheOldestBytes : Prop :=
  ∀ (s : State) (n : Nat), s.reading = none → s.rb.r < s.cfg.C → s.rb.w < s.cfg.C →
    ∃ t k, exec (.rbRead n) s = .next t ∧ k = min n s.occ ∧ t.consOut.k = k ∧ t.consOut.out.length = k ∧
      (∀ i < k, charAt t.consOut.out i = s.cell ((s.rb.r + i) % s.cfg.C)) ∧
      t.rb.r = (s.rb.r + k) % s.cfg.C ∧ t.rb.w = s.rb.w ∧ t.rb.mem = s.rb.mem ∧
      (0 < k → t.full = false) ∧ (t.empty = true ↔ k = s.occ) ∧ (k = 0 → t.rb = s.rb) ∧
      s.SameOutsideRing t ∧ t.writing = s.writing ∧ t.reading = none ∧ t.prodOut = s.prodOut

/-- R207 (the bound of a peek is the spec's decision D18): a peek changes only the result of the consumer's port,
and answers what a read of `skip` bytes followed by a read of `n` bytes would answer second. -/
def Obligations.PeekAnswersWhatReadingWould : Prop :=
  ∀ (s : State) (skip n : Nat), s.reading = none → s.rb.r < s.cfg.C → s.rb.w < s.cfg.C →
    ∃ o u, exec (.rbPeek skip n) s = .next { s with consOut := o } ∧ o.out.length = o.k ∧
      execAll [.rbRead skip, .rbRead n] s = .next u ∧ u.consOut = o ∧
      (s.occ ≤ skip → o = ⟨0, []⟩)

/-- R201, R202, R273 (what they set, and when they may be issued, are the spec's decisions D17 and D22): both empty
the ring and keep the cells; during a transfer they are refused (U2, log 9). -/
def Obligations.InitAndResetEmptyTheRing : Prop :=
  ∀ (s : State) (i : Instr), emptiesRing i = true →
    (s.writing = none → s.reading = none →
      ∃ t, exec i s = .next t ∧ t.rb.r = 0 ∧ t.rb.w = 0 ∧ t.rb.mem = s.rb.mem ∧ t.occ = 0 ∧
        t.free = s.cfg.C - 1 ∧ t.empty = true ∧ t.full = false ∧ s.SameOutsideRing t ∧
        t.writing = none ∧ t.reading = none ∧ t.prodOut = s.prodOut ∧ t.consOut = s.consOut) ∧
    (¬ (s.writing = none ∧ s.reading = none) → exec i s = .refused .transferInProgress)

/-- R114, R215 and 93_implementation_defined.md U4 (the spec's decision D16): the reserved command returns 0 on
the port it came on and changes nothing, or is refused, as its parameter says. That it runs at once while a transfer of its own port is in
progress is the model's choice (log 22). -/
def Obligations.ReservedCommandDoesNothing : Prop :=
  ∀ (s : State) (port : Agent),
    (s.cfg.reserved = .noOperation →
      exec (.rbRsvd7 port) s = .next (match port with
        | .producer => { s with prodOut := ⟨0, []⟩ }
        | .consumer => { s with consOut := ⟨0, []⟩ })) ∧
    (s.cfg.reserved = .refuse → exec (.rbRsvd7 port) s = .refused .reservedCommand)

/-- 44_ring_buffer.md (R25, R208, R212): exactly one of empty, neither, full; the flags agree with the sizes; the
sizes add up to `C - 1`. -/
def Obligations.FlagsAgreeWithTheSizes : Prop :=
  ∀ s : State, s.rb.r < s.cfg.C → s.rb.w < s.cfg.C →
    (s.empty = true ↔ s.occ = 0) ∧ (s.full = true ↔ s.occ = s.cfg.C - 1) ∧
    ¬ (s.empty = true ∧ s.full = true) ∧ s.occ + s.free = s.cfg.C - 1 ∧
    (s.cfg.C = 2 → s.empty = true ∨ s.full = true)

/-- 44_ring_buffer.md (R211) and 00_scope.md (R6): cursor arithmetic needs one conditional addition or
subtraction of `C`, and a cursor fits `CURW` bits. -/
def Obligations.CursorArithmeticIsOneCorrection : Prop :=
  ∀ s : State, s.rb.r < s.cfg.C → s.rb.w < s.cfg.C →
    s.occ = (if s.rb.r ≤ s.rb.w then s.rb.w - s.rb.r else s.rb.w + s.cfg.C - s.rb.r) ∧
    (∀ k ≤ s.cfg.C - 1, (s.rb.w + k) % s.cfg.C =
      if s.rb.w + k < s.cfg.C then s.rb.w + k else s.rb.w + k - s.cfg.C) ∧
    s.rb.w < 2 ^ s.cfg.cursorBits ∧ s.rb.r < 2 ^ s.cfg.cursorBits

/-- 30_encoding.md section 5 (R112, the spec's decision D26): a count above `C - 1` behaves as `C - 1`. -/
def Obligations.CountsSaturateAtTheUsableCapacity : Prop :=
  ∀ (s : State) (skip n : Nat) (data : List Byte),
    exec (.rbRead n) s = exec (.rbRead (min n (s.cfg.C - 1))) s ∧
    exec (.rbPeek skip n) s = exec (.rbPeek skip (min n (s.cfg.C - 1))) s ∧
    exec (.rbWrite data) s = exec (.rbWrite (data.take (s.cfg.C - 1))) s

/-- 20_memory.md section 5 (R69): for operations run one after another, none of which empties the ring, what was
stored before followed by what was accepted is what was returned followed by what is stored after. From an
empty ring, the bytes returned are therefore a prefix of the bytes accepted. -/
def Obligations.BytesLeaveInTheOrderTheyEntered : Prop :=
  ∀ (is : List Instr) (s t : State), s.RingInv → (∀ i ∈ is, emptiesRing i = false) → execAll is s = .next t →
    s.contents ++ acceptedBytes is s = returnedBytes is s ++ t.contents ∧
    (s.occ = 0 → returnedBytes is s <+: acceptedBytes is s)

/-- 20_memory.md (R85): neither an operation nor, in any interleaving, a micro-step reads a cell that nothing has
written: the unspecified contents of those cells, which `epoch` selects (log 5), do not reach any result. Hardware
reset, which makes every cell unspecified again, is left aside. -/
def Obligations.UnwrittenCellsAreNeverRead : Prop :=
  (∀ (i : Instr) (s t : State) (n : Nat), s.RingInv → exec i s = .next t →
    exec i { s with epoch := n } = .next { t with epoch := n }) ∧
  (∀ (s t : State) (n : Nat), s.Inv → (∀ rest, s.sched ≠ .hardwareReset :: rest) → step s = .next t →
    step { s with epoch := n } = .next { t with epoch := n })

/-! ### Transfers in progress -/

/-- 20_memory.md section 6 (R71; the micro-steps are the spec's decision D19): a write taken micro-step by
micro-step with nothing in between, W1, one W2 a byte, W3, is the whole write. -/
def Obligations.MicroStepsOfAWriteAreTheWholeWrite : Prop :=
  ∀ (s : State) (data : List Byte) (k : Nat) (rest : List Input), s.writing = none →
    k = min data.length s.free →
    s.sched = .start (encode (.rbWrite data)) :: (List.replicate (k + 1) (.advance .write) ++ rest) →
      stepAll (k + 2) s = exec (.rbWrite data) (s.withSched rest)

/-- 20_memory.md section 6 (R72, R73; D19; that a peek ends with its last P2 is the model's reading, log 15): a read
is R1, one R2 a byte, R3; a peek is P1 and one P2 a byte. -/
def Obligations.MicroStepsOfAReadAreTheWholeRead : Prop :=
  ∀ (s : State) (skip n k : Nat) (rest : List Input), s.reading = none →
    (k = min n s.occ →
      s.sched = .start (encode (.rbRead n)) :: (List.replicate (k + 1) (.advance .read) ++ rest) →
        stepAll (k + 2) s = exec (.rbRead n) (s.withSched rest)) ∧
    (k = min n (s.occ - skip) →
      s.sched = .start (encode (.rbPeek skip n)) :: (List.replicate k (.advance .read) ++ rest) →
        stepAll (k + 1) s = exec (.rbPeek skip n) (s.withSched rest))

/-- 20_memory.md section 6 (R79): the count of a transfer in progress is never larger than the true free space or
the true occupancy. -/
def Obligations.StaleCountsAreConservative : Prop :=
  ∀ s : State, s.Inv →
    (∀ x, s.writing = some x → x.k ≤ s.free) ∧
    (∀ x, s.reading = some x → x.skip + x.k ≤ s.occ)

/-- 20_memory.md sections 5 and 6 (R69, R74, R78; the micro-steps are the spec's decision D19): in every
interleaving, what a step does to the stored bytes is what the head of the schedule and the transfer it advances say
(`State.nextMove`). The commit of a write, W3 or a whole `RB_WRITE`, appends the bytes it accepts and returns their
number; the commit of a read, R3 or a whole `RB_READ`, takes from the front exactly the bytes it returns; `RB_INIT`,
`RB_RESET` and hardware reset leave none; every other step, W1, W2, R1, R2 and the peeks included, leaves the stored
bytes and both cursors as they are. -/
def Obligations.EveryInterleavingKeepsTheByteOrder : Prop :=
  ∀ s t : State, s.Inv → step s = .next t →
    match s.nextMove with
    | .keeps => t.contents = s.contents ∧ t.rb.r = s.rb.r ∧ t.rb.w = s.rb.w
    | .appends bytes => t.contents = s.contents ++ bytes ∧ t.prodOut = ⟨bytes.length, []⟩ ∧ t.rb.r = s.rb.r ∧
        t.rb.w = (s.rb.w + bytes.length) % s.cfg.C
    | .removes k => s.contents = t.consOut.out ++ t.contents ∧ t.consOut.k = k ∧ t.consOut.out.length = k ∧
        t.rb.w = s.rb.w ∧ t.rb.r = (s.rb.r + k) % s.cfg.C
    | .empties => t.contents = [] ∧ t.rb.r = 0 ∧ t.rb.w = 0

/-- 93_implementation_defined.md U2, U3 (R74, R270, R273; refusing is the model's, log 9, and so is the schedule,
log 1): a second write, a second read or peek, `RB_INIT` and `RB_RESET` during a transfer, and a parser operation
during a span in progress are refused, both run to their end and started only; nothing else waits for the other
side. -/
def Obligations.OverlappingOperationsAreRefused : Prop :=
  ∀ s : State,
    ((s.writing ≠ none → ∀ data, exec (.rbWrite data) s = .refused .writeInProgress) ∧
      (s.reading ≠ none → ∀ skip n, exec (.rbRead n) s = .refused .readInProgress ∧
        exec (.rbPeek skip n) s = .refused .readInProgress) ∧
      (s.spanning ≠ none → ∀ b bytes, exec (.pb b) s = .refused .parserBusy ∧
        exec (.pProcess bytes) s = .refused .parserBusy ∧ exec .pInit s = .refused .parserBusy) ∧
      (s.writing = none → ∀ data, ∃ t, exec (.rbWrite data) s = .next t) ∧
      (s.reading = none → ∀ skip n,
        (∃ t, exec (.rbRead n) s = .next t) ∧ ∃ t, exec (.rbPeek skip n) s = .next t)) ∧
    (∀ tr rest i, s.sched = .present tr :: rest ∨ s.sched = .start tr :: rest → decode tr = .ok i →
      ((∃ data, i = .rbWrite data) →
        (s.writing ≠ none → step s = .refused .writeInProgress) ∧ (s.writing = none → ∃ t, step s = .next t)) ∧
      ((∃ n, i = .rbRead n) ∨ (∃ skip n, i = .rbPeek skip n) →
        (s.reading ≠ none → step s = .refused .readInProgress) ∧ (s.reading = none → ∃ t, step s = .next t)) ∧
      (emptiesRing i = true →
        (s.writing ≠ none ∨ s.reading ≠ none → step s = .refused .transferInProgress) ∧
        (s.writing = none → s.reading = none → ∃ t, step s = .next t)) ∧
      ((encode i).format = .byte ∨ (encode i).format = .pcmd → i ≠ .pNop →
        (s.spanning ≠ none → step s = .refused .parserBusy) ∧ (s.spanning = none → ∃ t, step s = .next t)))

/-! ### Whole-machine rules -/

/-- 00_scope.md section 6 (R8): with nothing in progress every operation yields a next state, for every operand;
with the reserved command at its default setting there is no exception to it. -/
def Obligations.EveryOperationIsTotalWhenNothingIsInProgress : Prop :=
  ∀ (i : Instr) (s : State), s.Quiescent → s.cfg.reserved = .noOperation →
    ∃ t, exec i s = .next t ∧ t.Quiescent

/-- 10_state.md section 10 (R43) and 00_scope.md section 5 (R6): parser operations leave the ring buffer alone and
ring operations the parser and `fix`; no operation changes the parameters, and every step keeps them. That no
operation changes the schedule and a step takes exactly its head is the model's own (log 1). -/
def Obligations.OperationsStayOnTheirSide : Prop :=
  (∀ (i : Instr) (s t : State), exec i s = .next t →
    ((encode i).format = .rbcmd → s.SameOutsideRing t ∧ t.writing = s.writing ∧ t.reading = s.reading) ∧
    ((encode i).format ≠ .rbcmd → s.SameOutsideParser t)) ∧
  (∀ s t : State, step s = .next t → t.cfg = s.cfg ∧ t.sched = s.sched.tail)
end

