-- ==== Sys2Proof/Laws/State.lean ====
section
/-!
SUPPORT. One lemma per field per named update of State and ParserState, so that no proof unfolds a record update.
-/

namespace Sys2Proof.Machine

@[simp] theorem State.withRb_rb (s : State) (rb : Ring) : (s.withRb rb).rb = rb := rfl
@[simp] theorem State.withRb_p (s : State) (rb : Ring) : (s.withRb rb).p = s.p := rfl
@[simp] theorem State.withRb_fix (s : State) (rb : Ring) : (s.withRb rb).fix = s.fix := rfl
@[simp] theorem State.withRb_writing (s : State) (rb : Ring) : (s.withRb rb).writing = s.writing := rfl
@[simp] theorem State.withRb_reading (s : State) (rb : Ring) : (s.withRb rb).reading = s.reading := rfl
@[simp] theorem State.withRb_spanning (s : State) (rb : Ring) : (s.withRb rb).spanning = s.spanning := rfl
@[simp] theorem State.withRb_pEv (s : State) (rb : Ring) : (s.withRb rb).pEv = s.pEv := rfl
@[simp] theorem State.withRb_prodOut (s : State) (rb : Ring) : (s.withRb rb).prodOut = s.prodOut := rfl
@[simp] theorem State.withRb_consOut (s : State) (rb : Ring) : (s.withRb rb).consOut = s.consOut := rfl
@[simp] theorem State.withRb_cfg (s : State) (rb : Ring) : (s.withRb rb).cfg = s.cfg := rfl
@[simp] theorem State.withRb_epoch (s : State) (rb : Ring) : (s.withRb rb).epoch = s.epoch := rfl
@[simp] theorem State.withRb_sched (s : State) (rb : Ring) : (s.withRb rb).sched = s.sched := rfl

@[simp] theorem State.withP_rb (s : State) (p : Parser) : (s.withP p).rb = s.rb := rfl
@[simp] theorem State.withP_p (s : State) (p : Parser) : (s.withP p).p = p := rfl
@[simp] theorem State.withP_fix (s : State) (p : Parser) : (s.withP p).fix = s.fix := rfl
@[simp] theorem State.withP_writing (s : State) (p : Parser) : (s.withP p).writing = s.writing := rfl
@[simp] theorem State.withP_reading (s : State) (p : Parser) : (s.withP p).reading = s.reading := rfl
@[simp] theorem State.withP_spanning (s : State) (p : Parser) : (s.withP p).spanning = s.spanning := rfl
@[simp] theorem State.withP_pEv (s : State) (p : Parser) : (s.withP p).pEv = s.pEv := rfl
@[simp] theorem State.withP_prodOut (s : State) (p : Parser) : (s.withP p).prodOut = s.prodOut := rfl
@[simp] theorem State.withP_consOut (s : State) (p : Parser) : (s.withP p).consOut = s.consOut := rfl
@[simp] theorem State.withP_cfg (s : State) (p : Parser) : (s.withP p).cfg = s.cfg := rfl
@[simp] theorem State.withP_epoch (s : State) (p : Parser) : (s.withP p).epoch = s.epoch := rfl
@[simp] theorem State.withP_sched (s : State) (p : Parser) : (s.withP p).sched = s.sched := rfl

@[simp] theorem State.withFix_rb (s : State) (fix : Records) : (s.withFix fix).rb = s.rb := rfl
@[simp] theorem State.withFix_p (s : State) (fix : Records) : (s.withFix fix).p = s.p := rfl
@[simp] theorem State.withFix_fix (s : State) (fix : Records) : (s.withFix fix).fix = fix := rfl
@[simp] theorem State.withFix_writing (s : State) (fix : Records) : (s.withFix fix).writing = s.writing := rfl
@[simp] theorem State.withFix_reading (s : State) (fix : Records) : (s.withFix fix).reading = s.reading := rfl
@[simp] theorem State.withFix_spanning (s : State) (fix : Records) : (s.withFix fix).spanning = s.spanning := rfl
@[simp] theorem State.withFix_pEv (s : State) (fix : Records) : (s.withFix fix).pEv = s.pEv := rfl
@[simp] theorem State.withFix_prodOut (s : State) (fix : Records) : (s.withFix fix).prodOut = s.prodOut := rfl
@[simp] theorem State.withFix_consOut (s : State) (fix : Records) : (s.withFix fix).consOut = s.consOut := rfl
@[simp] theorem State.withFix_cfg (s : State) (fix : Records) : (s.withFix fix).cfg = s.cfg := rfl
@[simp] theorem State.withFix_epoch (s : State) (fix : Records) : (s.withFix fix).epoch = s.epoch := rfl
@[simp] theorem State.withFix_sched (s : State) (fix : Records) : (s.withFix fix).sched = s.sched := rfl

@[simp] theorem State.withWriting_rb (s : State) (x : Option WriteTransfer) : (s.withWriting x).rb = s.rb := rfl
@[simp] theorem State.withWriting_p (s : State) (x : Option WriteTransfer) : (s.withWriting x).p = s.p := rfl
@[simp] theorem State.withWriting_fix (s : State) (x : Option WriteTransfer) : (s.withWriting x).fix = s.fix := rfl
@[simp] theorem State.withWriting_writing (s : State) (x : Option WriteTransfer) : (s.withWriting x).writing = x := rfl
@[simp] theorem State.withWriting_reading (s : State) (x : Option WriteTransfer) : (s.withWriting x).reading = s.reading := rfl
@[simp] theorem State.withWriting_spanning (s : State) (x : Option WriteTransfer) : (s.withWriting x).spanning = s.spanning := rfl
@[simp] theorem State.withWriting_pEv (s : State) (x : Option WriteTransfer) : (s.withWriting x).pEv = s.pEv := rfl
@[simp] theorem State.withWriting_prodOut (s : State) (x : Option WriteTransfer) : (s.withWriting x).prodOut = s.prodOut := rfl
@[simp] theorem State.withWriting_consOut (s : State) (x : Option WriteTransfer) : (s.withWriting x).consOut = s.consOut := rfl
@[simp] theorem State.withWriting_cfg (s : State) (x : Option WriteTransfer) : (s.withWriting x).cfg = s.cfg := rfl
@[simp] theorem State.withWriting_epoch (s : State) (x : Option WriteTransfer) : (s.withWriting x).epoch = s.epoch := rfl
@[simp] theorem State.withWriting_sched (s : State) (x : Option WriteTransfer) : (s.withWriting x).sched = s.sched := rfl

@[simp] theorem State.withReading_rb (s : State) (x : Option ReadTransfer) : (s.withReading x).rb = s.rb := rfl
@[simp] theorem State.withReading_p (s : State) (x : Option ReadTransfer) : (s.withReading x).p = s.p := rfl
@[simp] theorem State.withReading_fix (s : State) (x : Option ReadTransfer) : (s.withReading x).fix = s.fix := rfl
@[simp] theorem State.withReading_writing (s : State) (x : Option ReadTransfer) : (s.withReading x).writing = s.writing := rfl
@[simp] theorem State.withReading_reading (s : State) (x : Option ReadTransfer) : (s.withReading x).reading = x := rfl
@[simp] theorem State.withReading_spanning (s : State) (x : Option ReadTransfer) : (s.withReading x).spanning = s.spanning := rfl
@[simp] theorem State.withReading_pEv (s : State) (x : Option ReadTransfer) : (s.withReading x).pEv = s.pEv := rfl
@[simp] theorem State.withReading_prodOut (s : State) (x : Option ReadTransfer) : (s.withReading x).prodOut = s.prodOut := rfl
@[simp] theorem State.withReading_consOut (s : State) (x : Option ReadTransfer) : (s.withReading x).consOut = s.consOut := rfl
@[simp] theorem State.withReading_cfg (s : State) (x : Option ReadTransfer) : (s.withReading x).cfg = s.cfg := rfl
@[simp] theorem State.withReading_epoch (s : State) (x : Option ReadTransfer) : (s.withReading x).epoch = s.epoch := rfl
@[simp] theorem State.withReading_sched (s : State) (x : Option ReadTransfer) : (s.withReading x).sched = s.sched := rfl

@[simp] theorem State.withSpanning_rb (s : State) (x : Option (List Byte)) : (s.withSpanning x).rb = s.rb := rfl
@[simp] theorem State.withSpanning_p (s : State) (x : Option (List Byte)) : (s.withSpanning x).p = s.p := rfl
@[simp] theorem State.withSpanning_fix (s : State) (x : Option (List Byte)) : (s.withSpanning x).fix = s.fix := rfl
@[simp] theorem State.withSpanning_writing (s : State) (x : Option (List Byte)) : (s.withSpanning x).writing = s.writing := rfl
@[simp] theorem State.withSpanning_reading (s : State) (x : Option (List Byte)) : (s.withSpanning x).reading = s.reading := rfl
@[simp] theorem State.withSpanning_spanning (s : State) (x : Option (List Byte)) : (s.withSpanning x).spanning = x := rfl
@[simp] theorem State.withSpanning_pEv (s : State) (x : Option (List Byte)) : (s.withSpanning x).pEv = s.pEv := rfl
@[simp] theorem State.withSpanning_prodOut (s : State) (x : Option (List Byte)) : (s.withSpanning x).prodOut = s.prodOut := rfl
@[simp] theorem State.withSpanning_consOut (s : State) (x : Option (List Byte)) : (s.withSpanning x).consOut = s.consOut := rfl
@[simp] theorem State.withSpanning_cfg (s : State) (x : Option (List Byte)) : (s.withSpanning x).cfg = s.cfg := rfl
@[simp] theorem State.withSpanning_epoch (s : State) (x : Option (List Byte)) : (s.withSpanning x).epoch = s.epoch := rfl
@[simp] theorem State.withSpanning_sched (s : State) (x : Option (List Byte)) : (s.withSpanning x).sched = s.sched := rfl

@[simp] theorem State.withEv_rb (s : State) (e : Event) : (s.withEv e).rb = s.rb := rfl
@[simp] theorem State.withEv_p (s : State) (e : Event) : (s.withEv e).p = s.p := rfl
@[simp] theorem State.withEv_fix (s : State) (e : Event) : (s.withEv e).fix = s.fix := rfl
@[simp] theorem State.withEv_writing (s : State) (e : Event) : (s.withEv e).writing = s.writing := rfl
@[simp] theorem State.withEv_reading (s : State) (e : Event) : (s.withEv e).reading = s.reading := rfl
@[simp] theorem State.withEv_spanning (s : State) (e : Event) : (s.withEv e).spanning = s.spanning := rfl
@[simp] theorem State.withEv_pEv (s : State) (e : Event) : (s.withEv e).pEv = e := rfl
@[simp] theorem State.withEv_prodOut (s : State) (e : Event) : (s.withEv e).prodOut = s.prodOut := rfl
@[simp] theorem State.withEv_consOut (s : State) (e : Event) : (s.withEv e).consOut = s.consOut := rfl
@[simp] theorem State.withEv_cfg (s : State) (e : Event) : (s.withEv e).cfg = s.cfg := rfl
@[simp] theorem State.withEv_epoch (s : State) (e : Event) : (s.withEv e).epoch = s.epoch := rfl
@[simp] theorem State.withEv_sched (s : State) (e : Event) : (s.withEv e).sched = s.sched := rfl

@[simp] theorem State.withProdOut_rb (s : State) (o : RingOutput) : (s.withProdOut o).rb = s.rb := rfl
@[simp] theorem State.withProdOut_p (s : State) (o : RingOutput) : (s.withProdOut o).p = s.p := rfl
@[simp] theorem State.withProdOut_fix (s : State) (o : RingOutput) : (s.withProdOut o).fix = s.fix := rfl
@[simp] theorem State.withProdOut_writing (s : State) (o : RingOutput) : (s.withProdOut o).writing = s.writing := rfl
@[simp] theorem State.withProdOut_reading (s : State) (o : RingOutput) : (s.withProdOut o).reading = s.reading := rfl
@[simp] theorem State.withProdOut_spanning (s : State) (o : RingOutput) : (s.withProdOut o).spanning = s.spanning := rfl
@[simp] theorem State.withProdOut_pEv (s : State) (o : RingOutput) : (s.withProdOut o).pEv = s.pEv := rfl
@[simp] theorem State.withProdOut_prodOut (s : State) (o : RingOutput) : (s.withProdOut o).prodOut = o := rfl
@[simp] theorem State.withProdOut_consOut (s : State) (o : RingOutput) : (s.withProdOut o).consOut = s.consOut := rfl
@[simp] theorem State.withProdOut_cfg (s : State) (o : RingOutput) : (s.withProdOut o).cfg = s.cfg := rfl
@[simp] theorem State.withProdOut_epoch (s : State) (o : RingOutput) : (s.withProdOut o).epoch = s.epoch := rfl
@[simp] theorem State.withProdOut_sched (s : State) (o : RingOutput) : (s.withProdOut o).sched = s.sched := rfl

@[simp] theorem State.withConsOut_rb (s : State) (o : RingOutput) : (s.withConsOut o).rb = s.rb := rfl
@[simp] theorem State.withConsOut_p (s : State) (o : RingOutput) : (s.withConsOut o).p = s.p := rfl
@[simp] theorem State.withConsOut_fix (s : State) (o : RingOutput) : (s.withConsOut o).fix = s.fix := rfl
@[simp] theorem State.withConsOut_writing (s : State) (o : RingOutput) : (s.withConsOut o).writing = s.writing := rfl
@[simp] theorem State.withConsOut_reading (s : State) (o : RingOutput) : (s.withConsOut o).reading = s.reading := rfl
@[simp] theorem State.withConsOut_spanning (s : State) (o : RingOutput) : (s.withConsOut o).spanning = s.spanning := rfl
@[simp] theorem State.withConsOut_pEv (s : State) (o : RingOutput) : (s.withConsOut o).pEv = s.pEv := rfl
@[simp] theorem State.withConsOut_prodOut (s : State) (o : RingOutput) : (s.withConsOut o).prodOut = s.prodOut := rfl
@[simp] theorem State.withConsOut_consOut (s : State) (o : RingOutput) : (s.withConsOut o).consOut = o := rfl
@[simp] theorem State.withConsOut_cfg (s : State) (o : RingOutput) : (s.withConsOut o).cfg = s.cfg := rfl
@[simp] theorem State.withConsOut_epoch (s : State) (o : RingOutput) : (s.withConsOut o).epoch = s.epoch := rfl
@[simp] theorem State.withConsOut_sched (s : State) (o : RingOutput) : (s.withConsOut o).sched = s.sched := rfl

@[simp] theorem State.withSched_rb (s : State) (l : List Input) : (s.withSched l).rb = s.rb := rfl
@[simp] theorem State.withSched_p (s : State) (l : List Input) : (s.withSched l).p = s.p := rfl
@[simp] theorem State.withSched_fix (s : State) (l : List Input) : (s.withSched l).fix = s.fix := rfl
@[simp] theorem State.withSched_writing (s : State) (l : List Input) : (s.withSched l).writing = s.writing := rfl
@[simp] theorem State.withSched_reading (s : State) (l : List Input) : (s.withSched l).reading = s.reading := rfl
@[simp] theorem State.withSched_spanning (s : State) (l : List Input) : (s.withSched l).spanning = s.spanning := rfl
@[simp] theorem State.withSched_pEv (s : State) (l : List Input) : (s.withSched l).pEv = s.pEv := rfl
@[simp] theorem State.withSched_prodOut (s : State) (l : List Input) : (s.withSched l).prodOut = s.prodOut := rfl
@[simp] theorem State.withSched_consOut (s : State) (l : List Input) : (s.withSched l).consOut = s.consOut := rfl
@[simp] theorem State.withSched_cfg (s : State) (l : List Input) : (s.withSched l).cfg = s.cfg := rfl
@[simp] theorem State.withSched_epoch (s : State) (l : List Input) : (s.withSched l).epoch = s.epoch := rfl
@[simp] theorem State.withSched_sched (s : State) (l : List Input) : (s.withSched l).sched = l := rfl

@[simp] theorem Parser.termNext_kind (p : Parser) : p.termNext.kind = p.kind := rfl
@[simp] theorem Parser.termNext_term (p : Parser) : p.termNext.term = p.term := rfl
@[simp] theorem Parser.termNext_tlen (p : Parser) : p.termNext.tlen = 0 := rfl
@[simp] theorem Parser.termNext_tidx (p : Parser) : p.termNext.tidx = nextIndex p.tidx := rfl
@[simp] theorem Parser.termNext_star (p : Parser) : p.termNext.star = p.star := rfl
@[simp] theorem Parser.termNext_csum (p : Parser) : p.termNext.csum = p.csum := rfl
@[simp] theorem Parser.termNext_s (p : Parser) : p.termNext.s = p.s := rfl

@[simp] theorem Parser.crcAdd_kind (p : Parser) (b : Byte) : (p.crcAdd b).kind = p.kind := rfl
@[simp] theorem Parser.crcAdd_term (p : Parser) (b : Byte) : (p.crcAdd b).term = p.term := rfl
@[simp] theorem Parser.crcAdd_tlen (p : Parser) (b : Byte) : (p.crcAdd b).tlen = p.tlen := rfl
@[simp] theorem Parser.crcAdd_tidx (p : Parser) (b : Byte) : (p.crcAdd b).tidx = p.tidx := rfl
@[simp] theorem Parser.crcAdd_star (p : Parser) (b : Byte) : (p.crcAdd b).star = p.star := rfl
@[simp] theorem Parser.crcAdd_csum (p : Parser) (b : Byte) : (p.crcAdd b).csum = p.csum ^^^ b := rfl
@[simp] theorem Parser.crcAdd_s (p : Parser) (b : Byte) : (p.crcAdd b).s = p.s := rfl

@[simp] theorem Parser.restart_kind (p : Parser) : p.restart.kind = .unknown := rfl
@[simp] theorem Parser.restart_term (p : Parser) : p.restart.term = p.term := rfl
@[simp] theorem Parser.restart_tlen (p : Parser) : p.restart.tlen = 0 := rfl
@[simp] theorem Parser.restart_tidx (p : Parser) : p.restart.tidx = 0 := rfl
@[simp] theorem Parser.restart_star (p : Parser) : p.restart.star = false := rfl
@[simp] theorem Parser.restart_csum (p : Parser) : p.restart.csum = 0 := rfl
@[simp] theorem Parser.restart_s (p : Parser) : p.restart.s = Records.zero := rfl

@[simp] theorem Parser.setStar_kind (p : Parser) : p.setStar.kind = p.kind := rfl
@[simp] theorem Parser.setStar_term (p : Parser) : p.setStar.term = p.term := rfl
@[simp] theorem Parser.setStar_tlen (p : Parser) : p.setStar.tlen = p.tlen := rfl
@[simp] theorem Parser.setStar_tidx (p : Parser) : p.setStar.tidx = p.tidx := rfl
@[simp] theorem Parser.setStar_star (p : Parser) : p.setStar.star = true := rfl
@[simp] theorem Parser.setStar_csum (p : Parser) : p.setStar.csum = p.csum := rfl
@[simp] theorem Parser.setStar_s (p : Parser) : p.setStar.s = p.s := rfl

@[simp] theorem Parser.withGga_kind (p : Parser) (g : GgaRecord) : (p.withGga g).kind = p.kind := rfl
@[simp] theorem Parser.withGga_term (p : Parser) (g : GgaRecord) : (p.withGga g).term = p.term := rfl
@[simp] theorem Parser.withGga_tlen (p : Parser) (g : GgaRecord) : (p.withGga g).tlen = p.tlen := rfl
@[simp] theorem Parser.withGga_tidx (p : Parser) (g : GgaRecord) : (p.withGga g).tidx = p.tidx := rfl
@[simp] theorem Parser.withGga_star (p : Parser) (g : GgaRecord) : (p.withGga g).star = p.star := rfl
@[simp] theorem Parser.withGga_csum (p : Parser) (g : GgaRecord) : (p.withGga g).csum = p.csum := rfl
@[simp] theorem Parser.withGga_s (p : Parser) (g : GgaRecord) : (p.withGga g).s = { p.s with gga := g } := rfl

@[simp] theorem Parser.withRmc_kind (p : Parser) (r : RmcRecord) : (p.withRmc r).kind = p.kind := rfl
@[simp] theorem Parser.withRmc_term (p : Parser) (r : RmcRecord) : (p.withRmc r).term = p.term := rfl
@[simp] theorem Parser.withRmc_tlen (p : Parser) (r : RmcRecord) : (p.withRmc r).tlen = p.tlen := rfl
@[simp] theorem Parser.withRmc_tidx (p : Parser) (r : RmcRecord) : (p.withRmc r).tidx = p.tidx := rfl
@[simp] theorem Parser.withRmc_star (p : Parser) (r : RmcRecord) : (p.withRmc r).star = p.star := rfl
@[simp] theorem Parser.withRmc_csum (p : Parser) (r : RmcRecord) : (p.withRmc r).csum = p.csum := rfl
@[simp] theorem Parser.withRmc_s (p : Parser) (r : RmcRecord) : (p.withRmc r).s = { p.s with rmc := r } := rfl

/-- The state after reset, field by field. -/
@[simp] theorem State.afterReset_rb (cfg : Config) (n : Nat) : (State.afterReset cfg n).rb = ⟨[], 0, 0⟩ := rfl
@[simp] theorem State.afterReset_p (cfg : Config) (n : Nat) : (State.afterReset cfg n).p = Parser.zero := rfl
@[simp] theorem State.afterReset_fix (cfg : Config) (n : Nat) : (State.afterReset cfg n).fix = Records.zero := rfl
@[simp] theorem State.afterReset_writing (cfg : Config) (n : Nat) : (State.afterReset cfg n).writing = none := rfl
@[simp] theorem State.afterReset_reading (cfg : Config) (n : Nat) : (State.afterReset cfg n).reading = none := rfl
@[simp] theorem State.afterReset_spanning (cfg : Config) (n : Nat) : (State.afterReset cfg n).spanning = none := rfl
@[simp] theorem State.afterReset_cfg (cfg : Config) (n : Nat) : (State.afterReset cfg n).cfg = cfg := rfl
@[simp] theorem State.afterReset_epoch (cfg : Config) (n : Nat) : (State.afterReset cfg n).epoch = n := rfl
@[simp] theorem State.afterReset_sched (cfg : Config) (n : Nat) : (State.afterReset cfg n).sched = [] := rfl

end Sys2Proof.Machine
end

