-- ==== Sys2Proof/Laws/Memory.lean ====
section
/-!
SUPPORT. The backing array: reading after writing, and that every memory operation keeps the canonical form.
-/

namespace Sys2Proof.Machine

namespace Memory

@[simp] theorem read?_nil (a : Nat) : read? [] a = none := rfl

theorem read?_cons (x : Nat) (b : Byte) (m : List Host.Cell) (a : Nat) :
    read? ((x, b) :: m) a = if x = a then some b else read? m a := rfl

@[simp] theorem wf_nil : wf [] := List.Pairwise.nil

/-- A cell below every listed index is not listed. -/
theorem read?_none_of_lt {m : List Host.Cell} {a : Nat} (h : ∀ c ∈ m, a < c.1) : read? m a = none := by
  induction m with
  | nil => rfl
  | cons c m ih =>
    obtain ⟨x, b⟩ := c
    have hx : a < x := h (x, b) (by simp)
    rw [read?_cons, if_neg (by omega)]
    exact ih fun c hc => h c (by simp [hc])

/-- A read after a write to the same cell gives the byte written. -/
@[simp] theorem read?_write_same (m : List Host.Cell) (a : Nat) (v : Byte) : read? (write m a v) a = some v := by
  induction m with
  | nil => simp [write, read?_cons]
  | cons c m ih =>
    obtain ⟨x, b⟩ := c
    unfold write
    split
    · simp [read?_cons]
    · split
      · simp [read?_cons]
      · rw [read?_cons, if_neg (by assumption), ih]

/-- A write leaves every other cell alone. -/
theorem read?_write_other (m : List Host.Cell) {a a' : Nat} (v : Byte) (h : a' ≠ a) :
    read? (write m a v) a' = read? m a' := by
  induction m with
  | nil => simp [write, read?_cons, Ne.symm h]
  | cons c m ih =>
    obtain ⟨x, b⟩ := c
    unfold write
    split
    · rw [read?_cons a v, if_neg (Ne.symm h)]
    · split
      · subst_vars
        rw [read?_cons, if_neg (Ne.symm h), read?_cons, if_neg (Ne.symm h)]
      · rw [read?_cons, read?_cons, ih]

theorem read?_write (m : List Host.Cell) (a a' : Nat) (v : Byte) :
    read? (write m a v) a' = if a' = a then some v else read? m a' := by
  split
  · subst_vars; simp
  · exact read?_write_other m v (by assumption)

/-- A write lists no index but the old ones and its own. -/
theorem mem_write {m : List Host.Cell} {a : Nat} {v : Byte} {c : Host.Cell} (h : c ∈ write m a v) :
    c = (a, v) ∨ c ∈ m := by
  induction m with
  | nil => left; simpa [write] using h
  | cons d m ih =>
    obtain ⟨x, b⟩ := d
    unfold write at h
    split at h
    · simpa using h
    · split at h
      · rcases List.mem_cons.1 h with h | h
        · exact .inl h
        · exact .inr (by simp [h])
      · rcases List.mem_cons.1 h with h | h
        · exact .inr (by simp [h])
        · rcases ih h with h | h
          · exact .inl h
          · exact .inr (by simp [h])

/-- A write keeps the canonical form. -/
theorem wf_write {m : List Host.Cell} (a : Nat) (v : Byte) (h : wf m) : wf (write m a v) := by
  induction m with
  | nil => simp [write]
  | cons d m ih =>
    obtain ⟨x, b⟩ := d
    obtain ⟨hx, hm⟩ := List.pairwise_cons.1 h
    unfold write
    split
    · rename_i hlt
      refine List.pairwise_cons.2 ⟨?_, h⟩
      intro c hc
      rcases List.mem_cons.1 hc with rfl | hc
      · exact hlt
      · exact lt_trans hlt (hx c hc)
    · rename_i hge
      split
      · subst_vars
        exact List.pairwise_cons.2 ⟨hx, hm⟩
      · rename_i hne
        refine List.pairwise_cons.2 ⟨?_, ih hm⟩
        intro c hc
        rcases mem_write hc with rfl | hc
        · show x < a
          omega
        · exact hx c hc

/-- A write below a bound keeps every index below it. -/
theorem bound_write {m : List Host.Cell} {a n : Nat} {v : Byte} (ha : a < n) (h : ∀ c ∈ m, c.1 < n) :
    ∀ c ∈ write m a v, c.1 < n := by
  intro c hc
  rcases mem_write hc with rfl | hc
  · exact ha
  · exact h c hc

@[simp] theorem store_nil (C : Nat) (m : List Host.Cell) (c : Nat) : store C m c [] = m := rfl

theorem store_cons (C : Nat) (m : List Host.Cell) (c : Nat) (b : Byte) (bs : List Byte) :
    store C m c (b :: bs) = store C (write m (c % C) b) (c + 1) bs := rfl

/-- A span of writes keeps the canonical form. -/
theorem wf_store (C : Nat) (bs : List Byte) :
    ∀ {m : List Host.Cell} (c : Nat), wf m → wf (store C m c bs) := by
  induction bs with
  | nil => intro m c h; exact h
  | cons b bs ih => intro m c h; exact ih (c + 1) (wf_write _ _ h)

/-- A span of writes stays below `C`. -/
theorem bound_store {C : Nat} (hC : 0 < C) (bs : List Byte) :
    ∀ {m : List Host.Cell} (c : Nat), (∀ x ∈ m, x.1 < C) → ∀ x ∈ store C m c bs, x.1 < C := by
  induction bs with
  | nil => intro m c h; exact h
  | cons b bs ih => intro m c h; exact ih (c + 1) (bound_write (Nat.mod_lt _ hC) h)

/-- Storing one more byte at the end of a span is one more write. -/
theorem store_append (C : Nat) (bs cs : List Byte) :
    ∀ (m : List Host.Cell) (c : Nat), store C m c (bs ++ cs) = store C (store C m c bs) (c + bs.length) cs := by
  induction bs with
  | nil => intro m c; simp
  | cons b bs ih =>
    intro m c
    simp only [List.cons_append, store_cons, ih, List.length_cons]
    congr 1
    omega

end Memory

/-- Two offsets below `C` from one cursor name one cell only when they are equal (R62, R63). -/
theorem offset_inj {C c i j : Nat} (hi : i < C) (hj : j < C) (h : (c + i) % C = (c + j) % C) : i = j := by
  have h' : i ≡ j [MOD C] := Nat.ModEq.add_left_cancel' c h
  rwa [Nat.ModEq, Nat.mod_eq_of_lt hi, Nat.mod_eq_of_lt hj] at h'

namespace Memory

/-- A span of writes leaves every cell outside the span alone (R62). -/
theorem read?_store_other {C : Nat} (bs : List Byte) :
    ∀ (m : List Host.Cell) (c a : Nat), (∀ i < bs.length, a ≠ (c + i) % C) →
      read? (store C m c bs) a = read? m a := by
  induction bs with
  | nil => intro m c a _; rfl
  | cons b bs ih =>
    intro m c a h
    rw [store_cons, ih]
    · exact read?_write_other m b (by simpa using h 0 (by simp))
    · intro i hi
      have := h (i + 1) (by simpa using hi)
      rwa [show c + 1 + i = c + (i + 1) by omega]

/-- After a span of at most `C` writes, byte `i` stands in cell `(c + i) mod C` (R62, R63). -/
theorem read?_store {C : Nat} (bs : List Byte) (hlen : bs.length ≤ C) (m : List Host.Cell) (c i : Nat)
    (hi : i < bs.length) : read? (store C m c bs) ((c + i) % C) = bs[i]? := by
  induction bs generalizing m c i with
  | nil => simp at hi
  | cons b bs ih =>
    rw [store_cons]
    simp only [List.length_cons] at hlen hi
    cases i with
    | zero =>
      rw [read?_store_other]
      · simp
      · intro j hj h
        rw [show c + 1 + j = c + (j + 1) by omega] at h
        have := offset_inj (C := C) (c := c) (i := 0) (j := j + 1) (by omega) (by omega) h
        omega
    | succ i =>
      rw [show c + (i + 1) = c + 1 + i by omega, ih (by omega) _ _ _ (by omega)]
      simp

end Memory

end Sys2Proof.Machine
end

