-- ==== Sys2Proof/Laws/Parser.lean ====
section
/-!
SUPPORT. The term buffer as a string, the frame of `FINALIZE`, and what a byte can change.
-/

namespace Sys2Proof.Machine

/-! ### The term as a string -/

@[simp] theorem Parser.text_length (p : Parser) : p.text.length = p.tlen.val := by
  simp [Parser.text]

/-- `tc(i)` is position `i` of the term's text (R31). -/
theorem Parser.tc_eq_charAt (p : Parser) (i : Nat) : p.tc i = charAt p.text i := by
  unfold Parser.tc charAt Parser.text
  split
  · rename_i h
    simp [List.getD, h]
  · rename_i h
    simp [List.getD, h]

theorem Parser.text_eq_of {p q : Parser} (ht : p.term = q.term) (hl : p.tlen = q.tlen) : p.text = q.text := by
  simp [Parser.text, ht, hl]

theorem Parser.text_eq_nil {p : Parser} (h : p.tlen = 0) : p.text = [] := by simp [Parser.text, h]

@[simp] theorem Parser.text_zero : Parser.zero.text = [] := Parser.text_eq_nil rfl
@[simp] theorem Parser.text_termNext (p : Parser) : p.termNext.text = [] := Parser.text_eq_nil rfl
@[simp] theorem Parser.text_restart (p : Parser) : p.restart.text = [] := Parser.text_eq_nil rfl
@[simp] theorem Parser.text_crcAdd (p : Parser) (b : Byte) : (p.crcAdd b).text = p.text := rfl
@[simp] theorem Parser.text_setStar (p : Parser) : p.setStar.text = p.text := rfl
@[simp] theorem Parser.text_withGga (p : Parser) (g : GgaRecord) : (p.withGga g).text = p.text := rfl
@[simp] theorem Parser.text_withRmc (p : Parser) (r : RmcRecord) : (p.withRmc r).text = p.text := rfl

/-- `TERM_ADD` appends while fewer than 12 characters are kept (R120). -/
theorem Parser.text_termAdd {p : Parser} (b : Byte) (h : p.tlen.val < 12) : (p.termAdd b).text = p.text ++ [b] := by
  apply List.ext_getElem?
  intro i
  simp only [Parser.termAdd, dif_pos h, Parser.text, List.getElem?_take, List.getElem?_append, List.length_take,
    Vector.length_toList]
  rw [show min p.tlen.val 13 = p.tlen.val by omega]
  by_cases hi : i < p.tlen.val
  · rw [if_pos (by omega), if_pos hi, if_pos hi]
    simp [Vector.toList_set, Nat.ne_of_gt hi]
  · by_cases he : i = p.tlen.val
    · subst he
      have : p.tlen.val < 13 := p.tlen.isLt
      simp [Vector.toList_set, this]
    · rw [if_neg (by omega), if_neg hi]
      have : 1 ≤ i - p.tlen.val := by omega
      obtain ⟨j, hj⟩ : ∃ j, i - p.tlen.val = j + 1 := ⟨i - p.tlen.val - 1, by omega⟩
      simp [hj]

/-- `TERM_ADD` on a full buffer does nothing (R120). -/
theorem Parser.termAdd_full {p : Parser} (b : Byte) (h : ¬ p.tlen.val < 12) : p.termAdd b = p := by
  simp [Parser.termAdd, h]

@[simp] theorem Parser.termAdd_kind (p : Parser) (b : Byte) : (p.termAdd b).kind = p.kind := by
  unfold Parser.termAdd; split <;> rfl
@[simp] theorem Parser.termAdd_tidx (p : Parser) (b : Byte) : (p.termAdd b).tidx = p.tidx := by
  unfold Parser.termAdd; split <;> rfl
@[simp] theorem Parser.termAdd_star (p : Parser) (b : Byte) : (p.termAdd b).star = p.star := by
  unfold Parser.termAdd; split <;> rfl
@[simp] theorem Parser.termAdd_csum (p : Parser) (b : Byte) : (p.termAdd b).csum = p.csum := by
  unfold Parser.termAdd; split <;> rfl
@[simp] theorem Parser.termAdd_s (p : Parser) (b : Byte) : (p.termAdd b).s = p.s := by
  unfold Parser.termAdd; split <;> rfl

/-- `TERM_ADD` keeps what was there and adds at most one character (R120). -/
theorem Parser.termAdd_cases (p : Parser) (b : Byte) :
    (p.termAdd b).text = p.text ++ [b] ∨ p.termAdd b = p := by
  by_cases h : p.tlen.val < 12
  · exact .inl (Parser.text_termAdd b h)
  · exact .inr (Parser.termAdd_full b h)

@[simp] theorem Parser.crcOther_text (p : Parser) (b : Byte) : (p.crcOther b).text = p.text := by
  unfold Parser.crcOther; split <;> rfl
@[simp] theorem Parser.crcOther_kind (p : Parser) (b : Byte) : (p.crcOther b).kind = p.kind := by
  unfold Parser.crcOther; split <;> rfl
@[simp] theorem Parser.crcOther_tlen (p : Parser) (b : Byte) : (p.crcOther b).tlen = p.tlen := by
  unfold Parser.crcOther; split <;> rfl
@[simp] theorem Parser.crcOther_tidx (p : Parser) (b : Byte) : (p.crcOther b).tidx = p.tidx := by
  unfold Parser.crcOther; split <;> rfl
@[simp] theorem Parser.crcOther_star (p : Parser) (b : Byte) : (p.crcOther b).star = p.star := by
  unfold Parser.crcOther; split <;> rfl
@[simp] theorem Parser.crcOther_s (p : Parser) (b : Byte) : (p.crcOther b).s = p.s := by
  unfold Parser.crcOther; split <;> rfl
theorem Parser.crcOther_csum (p : Parser) (b : Byte) :
    (p.crcOther b).csum = if p.star then p.csum else p.csum ^^^ b := by
  unfold Parser.crcOther; split <;> rfl

/-! ### FINALIZE -/

theorem Parser.SameFraming.text {p q : Parser} (h : p.SameFraming q) : q.text = p.text :=
  Parser.text_eq_of h.1 h.2.1

theorem Parser.sameFraming_refl (p : Parser) : p.SameFraming p := ⟨rfl, rfl, rfl, rfl, rfl⟩
theorem Parser.sameFraming_withGga (p : Parser) (g : GgaRecord) : p.SameFraming (p.withGga g) :=
  ⟨rfl, rfl, rfl, rfl, rfl⟩
theorem Parser.sameFraming_withRmc (p : Parser) (r : RmcRecord) : p.SameFraming (p.withRmc r) :=
  ⟨rfl, rfl, rfl, rfl, rfl⟩

theorem Parser.sameFraming_identify (cfg : Config) (p : Parser) : p.SameFraming (p.identifyTerm cfg) := by
  unfold Parser.identifyTerm
  split <;> exact ⟨rfl, rfl, rfl, rfl, rfl⟩

theorem Parser.sameFraming_ggaNs (p : Parser) : p.SameFraming p.ggaNs := by
  unfold Parser.ggaNs
  split
  · exact p.sameFraming_withGga _
  · exact p.sameFraming_refl

theorem Parser.sameFraming_ggaEw (p : Parser) : p.SameFraming p.ggaEw := by
  unfold Parser.ggaEw
  split
  · exact p.sameFraming_withGga _
  · exact p.sameFraming_refl

theorem Parser.sameFraming_rmcVarew (p : Parser) : p.SameFraming p.rmcVarew := by
  unfold Parser.rmcVarew
  split
  · exact p.sameFraming_withRmc _
  · exact p.sameFraming_refl

theorem Parser.sameFraming_finalizeGga (p : Parser) : p.SameFraming p.finalizeGga := by
  unfold Parser.finalizeGga
  split <;>
    first
    | exact p.sameFraming_ggaNs
    | exact p.sameFraming_ggaEw
    | exact p.sameFraming_refl

theorem Parser.sameFraming_finalizeRmc (p : Parser) : p.SameFraming p.finalizeRmc := by
  unfold Parser.finalizeRmc
  split <;>
    first
    | exact p.sameFraming_rmcVarew
    | exact p.sameFraming_refl

/-- `FINALIZE` does not change the framing or the checksum (R140). -/
theorem Parser.sameFraming_finalize (cfg : Config) (p : Parser) : p.SameFraming (p.finalize cfg) := by
  unfold Parser.finalize
  split
  · exact p.sameFraming_identify cfg
  · split
    · exact p.sameFraming_finalizeGga
    · exact p.sameFraming_finalizeRmc
    · exact p.sameFraming_refl

@[simp] theorem Parser.finalize_text (cfg : Config) (p : Parser) : (p.finalize cfg).text = p.text :=
  (p.sameFraming_finalize cfg).text
@[simp] theorem Parser.finalize_tidx (cfg : Config) (p : Parser) : (p.finalize cfg).tidx = p.tidx :=
  (p.sameFraming_finalize cfg).2.2.1
@[simp] theorem Parser.finalize_star (cfg : Config) (p : Parser) : (p.finalize cfg).star = p.star :=
  (p.sameFraming_finalize cfg).2.2.2.1
@[simp] theorem Parser.finalize_csum (cfg : Config) (p : Parser) : (p.finalize cfg).csum = p.csum :=
  (p.sameFraming_finalize cfg).2.2.2.2

/-! ### What a byte can change -/

theorem State.sameOutsideParser_refl (s : State) : s.SameOutsideParser s :=
  ⟨rfl, rfl, rfl, rfl, rfl, rfl, rfl, rfl, rfl⟩

theorem State.SameOutsideParser.trans {s t u : State} (h : s.SameOutsideParser t) (k : t.SameOutsideParser u) :
    s.SameOutsideParser u :=
  ⟨k.1.trans h.1, k.2.1.trans h.2.1, k.2.2.1.trans h.2.2.1, k.2.2.2.1.trans h.2.2.2.1,
   k.2.2.2.2.1.trans h.2.2.2.2.1, k.2.2.2.2.2.1.trans h.2.2.2.2.2.1, k.2.2.2.2.2.2.1.trans h.2.2.2.2.2.2.1,
   k.2.2.2.2.2.2.2.1.trans h.2.2.2.2.2.2.2.1, k.2.2.2.2.2.2.2.2.trans h.2.2.2.2.2.2.2.2⟩

/-- `PUBLISH` changes `fix` and the event only (R160). -/
theorem State.publish_cases (s : State) :
    (s.p.kind = .gga ∧ s.publish = (s.withFix { s.fix with gga := s.p.s.gga }).withEv .pubGga) ∨
    (s.p.kind = .rmc ∧ s.publish = (s.withFix { s.fix with rmc := s.p.s.rmc }).withEv .pubRmc) ∨
    (s.p.kind = .unknown ∧ s.publish = s.withEv .dropUnknown) := by
  unfold State.publish
  split
  · exact .inl ⟨by assumption, rfl⟩
  · exact .inr (.inl ⟨by assumption, rfl⟩)
  · exact .inr (.inr ⟨by assumption, rfl⟩)

theorem State.publish_outside (s : State) : s.SameOutsideParser s.publish := by
  obtain ⟨-, h⟩ | ⟨-, h⟩ | ⟨-, h⟩ := s.publish_cases <;> rw [h] <;> exact s.sameOutsideParser_refl

@[simp] theorem State.publish_p (s : State) : s.publish.p = s.p := by
  obtain ⟨-, h⟩ | ⟨-, h⟩ | ⟨-, h⟩ := s.publish_cases <;> rw [h] <;> rfl

/-- The five things a byte can be (R92, R124). -/
theorem State.byteStep_cases (s : State) (b : Byte) :
    (b = Ascii.dollar ∧ s.byteStep b = s.byteDollar) ∨ (b = Ascii.comma ∧ s.byteStep b = s.byteComma) ∨
    (b = Ascii.star ∧ s.byteStep b = s.byteStar) ∨ (b = Ascii.cr ∧ s.byteStep b = s.byteCr) ∨
    (b ≠ Ascii.dollar ∧ b ≠ Ascii.comma ∧ b ≠ Ascii.star ∧ b ≠ Ascii.cr ∧ s.byteStep b = s.byteOther b) := by
  unfold State.byteStep
  split_ifs <;> simp_all

theorem State.byteCr_cases (s : State) :
    (s.crcOk = true ∧ s.byteCr = s.publish) ∨ (s.crcOk = false ∧ s.byteCr = s.withEv .dropCrc) := by
  unfold State.byteCr
  split
  · exact .inl ⟨by assumption, rfl⟩
  · exact .inr ⟨by simpa using ‹¬ s.crcOk = true›, rfl⟩

theorem State.byteCr_outside (s : State) : s.SameOutsideParser s.byteCr := by
  obtain ⟨-, h⟩ | ⟨-, h⟩ := s.byteCr_cases
  · rw [h]; exact s.publish_outside
  · rw [h]; exact s.sameOutsideParser_refl

/-- `PB_CR` changes no ParserState register (R128). -/
@[simp] theorem State.byteCr_p (s : State) : s.byteCr.p = s.p := by
  obtain ⟨-, h⟩ | ⟨-, h⟩ := s.byteCr_cases <;> simp [h]

/-- A byte changes nothing outside the parser, `fix` and the event (R43). -/
theorem State.byteStep_outside (s : State) (b : Byte) : s.SameOutsideParser (s.byteStep b) := by
  obtain ⟨-, h⟩ | ⟨-, h⟩ | ⟨-, h⟩ | ⟨-, h⟩ | ⟨-, -, -, -, h⟩ := s.byteStep_cases b <;> rw [h]
  · exact s.sameOutsideParser_refl
  · exact s.sameOutsideParser_refl
  · exact s.sameOutsideParser_refl
  · exact s.byteCr_outside
  · exact s.sameOutsideParser_refl

theorem State.byteSpan_outside (bs : List Byte) : ∀ s : State, s.SameOutsideParser (s.byteSpan bs) := by
  induction bs with
  | nil => exact State.sameOutsideParser_refl
  | cons b bs ih => intro s; exact (s.byteStep_outside b).trans (ih _)

/-- Splitting a span changes nothing (R130). -/
theorem State.byteSpan_append (bs cs : List Byte) : ∀ s : State, s.byteSpan (bs ++ cs) = (s.byteSpan bs).byteSpan cs := by
  induction bs with
  | nil => intro s; rfl
  | cons b bs ih => intro s; exact ih _

/-! ### Guards -/

/-! ### A byte reads and writes the parser side only -/

theorem State.byteStep_withSpanning (s : State) (b : Byte) (x : Option (List Byte)) :
    (s.withSpanning x).byteStep b = (s.byteStep b).withSpanning x := by
  unfold State.byteStep
  split_ifs <;> try rfl
  unfold State.byteCr State.crcOk State.publish
  simp only [State.withSpanning_p, State.withSpanning_cfg]
  by_cases h : checksumMatches s.cfg.hexInvalid s.p.text s.p.csum = true
  · simp only [h, if_true]; split <;> rfl
  · simp only [h]; rfl

theorem State.byteStep_withSched (s : State) (b : Byte) (l : List Input) :
    (s.withSched l).byteStep b = (s.byteStep b).withSched l := by
  unfold State.byteStep
  split_ifs <;> try rfl
  unfold State.byteCr State.crcOk State.publish
  simp only [State.withSched_p, State.withSched_cfg]
  by_cases h : checksumMatches s.cfg.hexInvalid s.p.text s.p.csum = true
  · simp only [h, if_true]; split <;> rfl
  · simp only [h]; rfl

theorem State.byteSpan_withSpanning (bs : List Byte) :
    ∀ (s : State) (x : Option (List Byte)), (s.withSpanning x).byteSpan bs = (s.byteSpan bs).withSpanning x := by
  induction bs with
  | nil => intro s x; rfl
  | cons b bs ih => intro s x; rw [State.byteSpan, State.byteStep_withSpanning, ih]; rfl

theorem serially_busy {s t : State} (h : s.spanning ≠ none) : serially s t = .refused .parserBusy := by
  unfold serially
  split <;> simp_all

theorem serially_next {s t u : State} (h : serially s t = .next u) : s.spanning = none ∧ u = t := by
  unfold serially at h
  split at h
  · cases h; exact ⟨by assumption, rfl⟩
  · cases h

@[simp] theorem serially_none {s t : State} (h : s.spanning = none) : serially s t = .next t := by
  simp [serially, h]

/-- The next byte of a span in progress. -/
theorem advanceParser_next {s t : State} (h : advanceParser s = .next t) :
    (s.spanning = some [] ∧ t = s.withSpanning none) ∨
    (∃ b bs, s.spanning = some (b :: bs) ∧
      t = (s.byteStep b).withSpanning (if bs = [] then none else some bs)) := by
  unfold advanceParser at h
  split at h
  · cases h
  · cases h; exact .inl ⟨by assumption, rfl⟩
  · cases h; exact .inr ⟨_, [], by assumption, by simp⟩
  · cases h; exact .inr ⟨_, _, by assumption, by simp⟩

end Sys2Proof.Machine
end

