-- ==== Sys2Proof/Laws/PerInstr.lean ====
section
/-!
SUPPORT. Per operation: the signals `encode` gives it stand on the port of its table row, and opcode_table.json
gives those signals its mnemonic (spec 30_encoding.md rule R117).
-/

namespace Sys2Proof.Laws.TableRow

/-- The table's row for the encoded selector carries the operation's mnemonic. -/
def Statement (i : Instr) : Prop :=
  i.wf = true → tableMnemonic (encode i).format (encode i).selector = some i.mnemonic

theorem pbDollar : Statement .pbDollar := fun _ => by decide
theorem pbComma : Statement .pbComma := fun _ => by decide
theorem pbStar : Statement .pbStar := fun _ => by decide
theorem pbCr : Statement .pbCr := fun _ => by decide

/-- No special byte is `PB_OTHER`, every other byte is (R92). -/
theorem other_byte_row : ∀ b : Byte, isSpecialByte b = false →
    tableMnemonic .byte (b.setWidth 10) = some "PB_OTHER" := by decide

theorem pbOther (b : Byte) : Statement (.pbOther b) := fun h => other_byte_row b (by simpa [Instr.wf] using h)
theorem pNop : Statement .pNop := fun _ => by decide
theorem pInit : Statement .pInit := fun _ => by decide
theorem pb (b : Byte) : Statement (.pb b) := fun _ => by
  show tableMnemonic .pcmd 2 = some "PB"
  decide
theorem pProcess (bytes : List Byte) : Statement (.pProcess bytes) := fun _ => by
  show tableMnemonic .pcmd 3 = some "P_PROCESS"
  decide
theorem rbInit (port : Agent) : Statement (.rbInit port) := fun _ => by
  show tableMnemonic .rbcmd 0 = some "RB_INIT"
  decide
theorem rbReset (port : Agent) : Statement (.rbReset port) := fun _ => by
  show tableMnemonic .rbcmd 1 = some "RB_RESET"
  decide
theorem rbWrite (data : List Byte) : Statement (.rbWrite data) := fun _ => by
  show tableMnemonic .rbcmd 2 = some "RB_WRITE"
  decide
theorem rbRead (n : Nat) : Statement (.rbRead n) := fun _ => by
  show tableMnemonic .rbcmd 3 = some "RB_READ"
  decide
theorem rbPeek (skip n : Nat) : Statement (.rbPeek skip n) := fun _ => by
  show tableMnemonic .rbcmd 4 = some "RB_PEEK"
  decide
theorem rbFree (port : Agent) : Statement (.rbFree port) := fun _ => by
  show tableMnemonic .rbcmd 5 = some "RB_FREE"
  decide
theorem rbOcc (port : Agent) : Statement (.rbOcc port) := fun _ => by
  show tableMnemonic .rbcmd 6 = some "RB_OCC"
  decide
theorem rbRsvd7 (port : Agent) : Statement (.rbRsvd7 port) := fun _ => by
  show tableMnemonic .rbcmd 7 = some "RB_RSVD7"
  decide
theorem tId : Statement .tId := fun _ => by decide
theorem ggaTime : Statement .ggaTime := fun _ => by decide
theorem ggaLat : Statement .ggaLat := fun _ => by decide
theorem ggaNs : Statement .ggaNs := fun _ => by decide
theorem ggaLon : Statement .ggaLon := fun _ => by decide
theorem ggaEw : Statement .ggaEw := fun _ => by decide
theorem ggaFixq : Statement .ggaFixq := fun _ => by decide
theorem ggaSats : Statement .ggaSats := fun _ => by decide
theorem ggaAlt : Statement .ggaAlt := fun _ => by decide
theorem ggaGeoid : Statement .ggaGeoid := fun _ => by decide
theorem rmcValid : Statement .rmcValid := fun _ => by decide
theorem rmcSpeed : Statement .rmcSpeed := fun _ => by decide
theorem rmcCourse : Statement .rmcCourse := fun _ => by decide
theorem rmcDate : Statement .rmcDate := fun _ => by decide
theorem rmcVar : Statement .rmcVar := fun _ => by decide
theorem rmcVarew : Statement .rmcVarew := fun _ => by decide

/-- A key that no row of priority 0 matches has the default row (R117). -/
theorem default_key_row : ∀ (kind : BitVec 2) (tidx : Byte), selectsNothing kind tidx = true →
    tableMnemonic .term (makeKey kind tidx) = some "T_NONE" := by decide

theorem tNone (kind : BitVec 2) (tidx : Byte) : Statement (.tNone kind tidx) := fun h => default_key_row kind tidx h

end Sys2Proof.Laws.TableRow
end

