-- ==== Sys2Proof/Laws/Ring.lean ====
section
/-!
SUPPORT. Cursor arithmetic (spec 44_ring_buffer.md rule R211), the stored bytes, and what each ring operation
can do.
-/

namespace Sys2Proof

/-- There are at least two cells (R6, R201). -/
theorem Config.C_ge (c : Config) : 2 ≤ c.C := c.cells.property

theorem Config.C_pos (c : Config) : 0 < c.C := by have := Config.C_ge c; omega

end Sys2Proof

namespace Sys2Proof.Machine

/-! ### Cursor arithmetic -/

theorem occupancy_lt {C r w : Nat} (hC : 0 < C) : occupancy C r w < C := by
  have h1 := Int.emod_nonneg ((w : Int) - r) (b := (C : Int)) (by omega)
  have h2 := Int.emod_lt_of_pos ((w : Int) - r) (b := (C : Int)) (by omega)
  unfold occupancy
  omega

/-- `(w - r) mod C` needs at most one addition of `C` (R211). -/
theorem occupancy_eq {C r w : Nat} (hr : r < C) (hw : w < C) :
    occupancy C r w = if r ≤ w then w - r else w + C - r := by
  unfold occupancy
  split
  · rw [Int.emod_eq_of_lt (by omega) (by omega)]; omega
  · rw [← Int.add_emod_right, Int.emod_eq_of_lt (by omega) (by omega)]; omega

@[simp] theorem occupancy_self {C r : Nat} : occupancy C r r = 0 := by
  simp [occupancy]

theorem mod_step {C a k : Nat} (ha : a < C) (hk : k < C) :
    (a + k) % C = if a + k < C then a + k else a + k - C := by
  split
  · exact Nat.mod_eq_of_lt (by assumption)
  · rw [Nat.mod_eq_sub_mod (by omega), Nat.mod_eq_of_lt (by omega)]

/-- The write cursor is the read cursor advanced by the occupancy. -/
theorem cursor_add_occupancy {C r w : Nat} (hr : r < C) (hw : w < C) : (r + occupancy C r w) % C = w := by
  rw [mod_step hr (occupancy_lt (by omega)), occupancy_eq hr hw]
  split <;> split <;> omega

/-- Advancing the write cursor by `k` adds `k` to the occupancy while it stays below `C` (R212). -/
theorem occupancy_write {C r w k : Nat} (hr : r < C) (hw : w < C) (hk : occupancy C r w + k < C) :
    occupancy C r ((w + k) % C) = occupancy C r w + k := by
  have hkC : k < C := by omega
  rw [occupancy_eq hr (Nat.mod_lt _ (by omega)), mod_step hw hkC]
  rw [occupancy_eq hr hw] at hk ⊢
  split_ifs at hk ⊢ <;> omega

/-- Advancing the read cursor by `k` takes `k` from the occupancy (R212). -/
theorem occupancy_read {C r w k : Nat} (hr : r < C) (hw : w < C) (hk : k ≤ occupancy C r w) :
    occupancy C ((r + k) % C) w = occupancy C r w - k := by
  have hlt := occupancy_lt (C := C) (r := r) (w := w) (by omega)
  have hkC : k < C := by omega
  rw [occupancy_eq (Nat.mod_lt _ (by omega)) hw, mod_step hr hkC]
  rw [occupancy_eq hr hw] at hk ⊢
  split_ifs at hk ⊢ <;> omega

theorem writeCount_le_free {C r w n : Nat} : writeCount C r w n ≤ freeSpace C r w := Nat.min_le_right _ _

theorem writeCount_le_length {C r w n : Nat} : writeCount C r w n ≤ n := Nat.min_le_left _ _

theorem readCount_le {C r w n : Nat} : readCount C r w n ≤ occupancy C r w := Nat.min_le_right _ _

theorem peekCount_le {C r w skip n : Nat} (h : peekCount C r w skip n ≠ 0) :
    skip + peekCount C r w skip n ≤ occupancy C r w := by
  unfold peekCount at h ⊢
  split
  · simp_all
  · omega

/-- `occ + free = C - 1` (R24, R212). -/
theorem occupancy_add_free {C r w : Nat} (hC : 0 < C) : occupancy C r w + freeSpace C r w = C - 1 := by
  have := occupancy_lt (C := C) (r := r) (w := w) hC
  unfold freeSpace
  omega

/-! ### Loads -/

@[simp] theorem State.load_length (s : State) (c k : Nat) : (s.load c k).length = k := by simp [State.load]

theorem State.load_getElem? (s : State) (c k i : Nat) (h : i < k) :
    (s.load c k)[i]? = some (s.cell ((c + i) % s.cfg.C)) := by
  simp [State.load, h]

/-- Loading depends on `rb.mem`, `epoch` and `C` only. -/
theorem State.load_congr {s t : State} {c k : Nat} (hC : t.cfg = s.cfg)
    (h : ∀ i < k, t.cell ((c + i) % s.cfg.C) = s.cell ((c + i) % s.cfg.C)) : t.load c k = s.load c k := by
  unfold State.load
  rw [hC]
  exact List.map_congr_left fun i hi => h i (List.mem_range.1 hi)

/-- A load of `j + k` bytes is a load of `j` followed by one of `k`. -/
theorem State.load_add (s : State) (c j k : Nat) : s.load c (j + k) = s.load c j ++ s.load (c + j) k := by
  unfold State.load
  rw [List.range_add, List.map_append, List.map_map]
  congr 1
  exact List.map_congr_left fun i _ => by simp [Nat.add_assoc]

/-- A load may start from a cursor already reduced modulo `C`. -/
theorem State.load_mod (s : State) (c k : Nat) : s.load (c % s.cfg.C) k = s.load c k := by
  unfold State.load
  exact List.map_congr_left fun i _ => by rw [Nat.mod_add_mod]

/-- A listed cell reads as the byte listed. -/
theorem State.cell_of_read? {s : State} {a : Nat} {b : Byte} (h : Memory.read? s.rb.mem a = some b) :
    s.cell a = b := by
  simp [State.cell, h]

@[simp] theorem State.contents_length (s : State) : s.contents.length = s.occ := by simp [State.contents]

/-! ### What each operation can do -/

theorem ifNotWriting_next {s t u : State} (h : ifNotWriting s t = .next u) : s.writing = none ∧ u = t := by
  unfold ifNotWriting at h
  split at h
  · cases h; exact ⟨by assumption, rfl⟩
  · cases h

theorem ifNotReading_next {s t u : State} (h : ifNotReading s t = .next u) : s.reading = none ∧ u = t := by
  unfold ifNotReading at h
  split at h
  · cases h; exact ⟨by assumption, rfl⟩
  · cases h

theorem ifQuiescent_next {s t u : State} (h : ifQuiescent s t = .next u) :
    s.writing = none ∧ s.reading = none ∧ u = t := by
  unfold ifQuiescent at h
  split at h
  · cases h; exact ⟨by assumption, by assumption, rfl⟩
  · cases h

@[simp] theorem ifNotWriting_none {s t : State} (h : s.writing = none) : ifNotWriting s t = .next t := by
  simp [ifNotWriting, h]

@[simp] theorem ifNotReading_none {s t : State} (h : s.reading = none) : ifNotReading s t = .next t := by
  simp [ifNotReading, h]

@[simp] theorem ifQuiescent_none {s t : State} (hw : s.writing = none) (hr : s.reading = none) :
    ifQuiescent s t = .next t := by
  simp [ifQuiescent, hw, hr]

theorem ifNotWriting_busy {s t : State} (h : s.writing ≠ none) : ifNotWriting s t = .refused .writeInProgress := by
  unfold ifNotWriting
  split <;> simp_all

theorem ifNotReading_busy {s t : State} (h : s.reading ≠ none) : ifNotReading s t = .refused .readInProgress := by
  unfold ifNotReading
  split <;> simp_all

theorem ifQuiescent_busy {s t : State} (h : s.writing ≠ none ∨ s.reading ≠ none) :
    ifQuiescent s t = .refused .transferInProgress := by
  unfold ifQuiescent
  split <;> simp_all

/-- A port's result changes that port's output and nothing else. -/
theorem State.respond_cases (s : State) (port : Agent) (o : RingOutput) :
    s.respond port o = s.withProdOut o ∨ s.respond port o = s.withConsOut o := by
  cases port
  · exact .inl rfl
  · exact .inr rfl

/-- The next micro-step of a write stores a byte or commits. -/
theorem advanceWrite_next {s t : State} (h : advanceWrite s = .next t) :
    ∃ x, s.writing = some x ∧ ((x.i < x.k ∧ t = s.writeOne x) ∨ (¬ x.i < x.k ∧ t = s.writeCommit x)) := by
  unfold advanceWrite at h
  split at h
  · cases h
  · rename_i x hx
    refine ⟨x, hx, ?_⟩
    split at h
    · cases h; exact .inl ⟨by assumption, rfl⟩
    · cases h; exact .inr ⟨by assumption, rfl⟩

/-- The next micro-step of a read or peek moves a byte, commits, or returns. -/
theorem advanceRead_next {s t : State} (h : advanceRead s = .next t) :
    ∃ x, s.reading = some x ∧
      ((x.out.length < x.k ∧ t = s.readMore x) ∨
       (¬ x.out.length < x.k ∧ x.commits = true ∧ t = s.readCommit x) ∨
       (¬ x.out.length < x.k ∧ x.commits = false ∧ t = s.peekReturn x.out)) := by
  unfold advanceRead at h
  split at h
  · cases h
  · rename_i x hx
    refine ⟨x, hx, ?_⟩
    split at h
    · cases h; exact .inl ⟨by assumption, rfl⟩
    · split at h
      · cases h; exact .inr (.inl ⟨by assumption, by assumption, rfl⟩)
      · cases h; exact .inr (.inr ⟨by assumption, by simpa using ‹¬ x.commits = true›, rfl⟩)

/-! ### What the next step does to the stored bytes, by the head of the schedule -/

theorem State.nextMove_nil {s : State} (h : s.sched = []) : s.nextMove = .keeps := by
  simp [State.nextMove, h]

theorem State.nextMove_present {s : State} {tr : Transaction} {rest : List Input} {i : Instr}
    (h : s.sched = .present tr :: rest) (hi : decode tr = .ok i) : s.nextMove = s.moveOf i := by
  simp [State.nextMove, h, hi]

theorem State.nextMove_start {s : State} {tr : Transaction} {rest : List Input} {i : Instr}
    (h : s.sched = .start tr :: rest) (hi : decode tr = .ok i) : s.nextMove = moveOfStart i := by
  simp [State.nextMove, h, hi]

theorem State.nextMove_write {s : State} {rest : List Input} {x : WriteTransfer}
    (h : s.sched = .advance .write :: rest) (hx : s.writing = some x) : s.nextMove = moveOfWrite x := by
  simp [State.nextMove, h, hx]

theorem State.nextMove_read {s : State} {rest : List Input} {x : ReadTransfer}
    (h : s.sched = .advance .read :: rest) (hx : s.reading = some x) : s.nextMove = moveOfRead x := by
  simp [State.nextMove, h, hx]

theorem State.nextMove_parser {s : State} {rest : List Input} (h : s.sched = .advance .parser :: rest) :
    s.nextMove = .keeps := by
  simp [State.nextMove, h]

theorem State.nextMove_hardwareReset {s : State} {rest : List Input} (h : s.sched = .hardwareReset :: rest) :
    s.nextMove = .empties := by
  simp [State.nextMove, h]

end Sys2Proof.Machine
end

