-- ==== Sys2Proof/Tests/Slice0.lean ====
section
/-!
SUPPORT. The model's own tests (expected values from the examples of the rules and from spec
95_test_vectors.md) and one witness theorem for every obligation that has hypotheses.
-/

namespace Sys2Proof.Tests

open Sys2Proof Sys2Proof.Machine

/-! ### Helpers -/

/-- The state an outcome goes on with. -/
def after : Host.Outcome State Fault Refusal → Option State
  | .next t => some t
  | _ => none

/-- A parser state with a given kind, index, term, star flag and checksum; both scratch records zero. -/
def parserAt (kind : Kind) (tidx : Byte) (term : Text) (star : Bool) (csum : Byte) : Parser :=
  { term.foldl Parser.termAdd Parser.zero with kind := kind, tidx := tidx, star := star, csum := csum }

/-- The reset state with such a parser state. -/
def at_ (kind : Kind) (tidx : Byte) (term : Text) (star : Bool) (csum : Byte) : State :=
  State.reset.withP (parserAt kind tidx term star csum)

/-- The reset state with a term only. -/
def termed (term : Text) : State := at_ .unknown 1 term false 0

/-- Parameters with `C` cells and the other three at their defaults. -/
def cells (C : CellCount) : Config := { Config.initial with cells := C }

/-- A ring buffer of `C` cells. -/
def ringAt (C : CellCount) (mem : List Host.Cell) (r w : Nat) : State :=
  (State.afterReset (cells C) 0).withRb ⟨mem, r, w⟩

/-- Eight cells holding `D E l l o A B C` with `r = 3`, `w = 2` (95_test_vectors.md L2-R2). -/
def fullRing : State :=
  ringAt ⟨8, by decide⟩
    [(0, 0x44), (1, 0x45), (2, 0x6C), (3, 0x6C), (4, 0x6F), (5, 0x41), (6, 0x42), (7, 0x43)] 3 2

/-- Eight cells holding `hello` with `r = 0`, `w = 5` (95_test_vectors.md L2-R2). -/
def helloRing : State :=
  ringAt ⟨8, by decide⟩ [(0, 0x68), (1, 0x65), (2, 0x6C), (3, 0x6C), (4, 0x6F)] 0 5

/-- `helloRing` with a write of `AB` that has stored its first byte and a read of 2 bytes that has moved one. -/
def bothInProgress : State :=
  (({ helloRing with rb := ⟨helloRing.rb.mem ++ [(5, 0x41)], 0, 5⟩ } : State).withWriting
    (some ⟨0, 5, 2, 1, [0x41, 0x42]⟩)).withReading (some ⟨true, 0, 5, 0, 2, [0x68]⟩)

/-- The same write and read with all their bytes moved, each about to commit. -/
def bothToCommit : State :=
  (({ helloRing with rb := ⟨helloRing.rb.mem ++ [(5, 0x41), (6, 0x42)], 0, 5⟩ } : State).withWriting
    (some ⟨0, 5, 2, 2, [0x41, 0x42]⟩)).withReading (some ⟨true, 0, 5, 0, 2, [0x68, 0x65]⟩)

/-! ### Well-formedness: each check refuses an ill-formed term -/

theorem test_wf_refuses_special_bytes :
    Instr.wf (.pbOther 0x24) = false ∧ Instr.wf (.pbOther 0x2C) = false ∧ Instr.wf (.pbOther 0x2A) = false ∧
    Instr.wf (.pbOther 0x0D) = false ∧ Instr.wf (.pbOther 0x41) = true := by decide

theorem test_wf_refuses_keys_of_other_rows :
    Instr.wf (.tNone 1 1) = false ∧ Instr.wf (.tNone 1 11) = false ∧ Instr.wf (.tNone 2 2) = false ∧
    Instr.wf (.tNone 2 11) = false ∧ Instr.wf (.tNone 0 0) = false ∧ Instr.wf (.tNone 3 0) = false ∧
    Instr.wf (.tNone 1 8) = true ∧ Instr.wf (.tNone 2 1) = true := by decide

/-! ### Decoding: every operation's selector, written out from the tables of 30_encoding.md -/

/-- R92. -/
theorem test_decode_bytes :
    decode (.byte 0b00100100) = .ok .pbDollar ∧ decode (.byte 0b00101100) = .ok .pbComma ∧
    decode (.byte 0b00101010) = .ok .pbStar ∧ decode (.byte 0b00001101) = .ok .pbCr ∧
    decode (.byte 0b00001010) = .ok (.pbOther 0x0A) ∧ decode (.byte 0xFF) = .ok (.pbOther 0xFF) := by decide

/-- R110. -/
theorem test_decode_parser_port :
    decode (.parser 0b00 0x24 [0x24] 1) = .ok .pNop ∧ decode (.parser 0b01 0x24 [] 0) = .ok .pInit ∧
    decode (.parser 0b10 0x41 [] 0) = .ok (.pb 0x41) ∧
    decode (.parser 0b11 0 [0x24, 0x47, 0x50] 2) = .ok (.pProcess [0x24, 0x47]) := by decide

/-- R112. -/
theorem test_decode_ring_ports :
    decode (.ring .producer 0b000 0 0 []) = .ok (.rbInit .producer) ∧
    decode (.ring .consumer 0b001 0 0 []) = .ok (.rbReset .consumer) ∧
    decode (.ring .producer 0b010 3 0 [0x61, 0x62, 0x63]) = .ok (.rbWrite [0x61, 0x62, 0x63]) ∧
    decode (.ring .consumer 0b011 100 0 []) = .ok (.rbRead 100) ∧
    decode (.ring .consumer 0b100 9 5 []) = .ok (.rbPeek 5 9) ∧
    decode (.ring .producer 0b101 0 0 []) = .ok (.rbFree .producer) ∧
    decode (.ring .consumer 0b110 0 0 []) = .ok (.rbOcc .consumer) ∧
    decode (.ring .producer 0b111 0 0 []) = .ok (.rbRsvd7 .producer) := by decide

/-- R95, R97 and the keys of 95_test_vectors.md L2-T6. -/
theorem test_decode_gga_keys :
    decode (.term 0b0100000001) = .ok .ggaTime ∧ decode (.term 0b0100000010) = .ok .ggaLat ∧
    decode (.term 0b0100000011) = .ok .ggaNs ∧ decode (.term 0b0100000100) = .ok .ggaLon ∧
    decode (.term 0b0100000101) = .ok .ggaEw ∧ decode (.term 0b0100000110) = .ok .ggaFixq ∧
    decode (.term 0b0100000111) = .ok .ggaSats ∧ decode (.term 0b0100001001) = .ok .ggaAlt ∧
    decode (.term 0b0100001011) = .ok .ggaGeoid ∧ decode (.term 0x108) = .ok (.tNone 1 8) ∧
    decode (.term 0x1FF) = .ok (.tNone 1 255) ∧ decode (.term 0x100) = .ok .tId := by decide

/-- R96, R97 and the keys of 95_test_vectors.md L2-T6. -/
theorem test_decode_rmc_keys :
    decode (.term 0b1000000010) = .ok .rmcValid ∧ decode (.term 0b1000000111) = .ok .rmcSpeed ∧
    decode (.term 0b1000001000) = .ok .rmcCourse ∧ decode (.term 0b1000001001) = .ok .rmcDate ∧
    decode (.term 0b1000001010) = .ok .rmcVar ∧ decode (.term 0b1000001011) = .ok .rmcVarew ∧
    decode (.term 0x201) = .ok (.tNone 2 1) ∧ decode (.term 0x20C) = .ok (.tNone 2 12) ∧
    decode (.term 0x009) = .ok (.tNone 0 9) ∧ decode (.term 0x000) = .ok .tId ∧
    decode (.term 0x200) = .ok .tId := by decide

/-- R74, R112: one agent's commands are no operations of the other's port; log 11: too little data. -/
theorem test_decode_rejects_by_name :
    decode (.ring .consumer 2 1 0 [0x61]) = .error .writeIsTheProducers ∧
    decode (.ring .producer 3 1 0 []) = .error .readIsTheConsumers ∧
    decode (.ring .producer 4 1 0 []) = .error .readIsTheConsumers ∧
    decode (.ring .producer 2 2 0 [0x61]) = .error .dataShorterThanCount ∧
    decode (.parser 3 0 [0x61] 2) = .error .dataShorterThanCount := by decide

/-- The host's numbering of a table row's word (log 2). -/
theorem test_table_words :
    decodeTableWord 8 0x24 = some .pbDollar ∧ decodeTableWord 8 2 = some (.rbWrite []) ∧
    decodeTableWord 16 0x10B = some .ggaGeoid ∧ decodeTableWord 16 0x000 = some .tId ∧
    decodeTableWord 2 1 = some .pInit ∧ decodeTableWord 3 6 = some (.rbOcc .producer) := by decide

/-- The very next step runs the table word's operation. -/
theorem test_fetch_word_runs :
    step (State.reset.withFetchWord 8 0x2A) = exec .pbStar State.reset ∧
    step (State.reset.withFetchWord 16 0x102) = exec .ggaLat State.reset := ⟨rfl, rfl⟩

/-! ### Byte operations and parser commands -/

/-- The example of R125. -/
theorem test_dollar :
    (after (exec .pbDollar (at_ .gga 6 [0x31] true 0x5A))).map (fun t => t.p) =
      some (parserAt .unknown 0 [0x24] false 0) := by decide

/-- The example of R126. -/
theorem test_comma :
    (after (exec .pbComma (at_ .gga 6 [0x31] false 0x5A))).map
      (fun t => (t.p.s.gga.fixq, t.p.csum, t.p.tidx, t.p.tlen, t.p.kind)) = some (1, 0x76, 7, 0, .gga) := by decide

/-- Comma after the star: the checksum goes from 0x14 to 0x38 (95_test_vectors.md L2-P5). -/
theorem test_comma_after_star :
    (after (exec .pbComma (at_ .rmc 3 [0x31, 0x34] true 0x14))).map (fun t => (t.p.csum, t.p.tidx, t.p.star)) =
      some (0x38, 4, true) := by decide

/-- The example of R127: `W` at RMC term 11 negates the variation. -/
theorem test_star :
    (after (exec .pbStar (State.reset.withP
      ((parserAt .rmc 11 [0x57] false 0x3D).withRmc { RmcRecord.zero with var := 3100000 })))).map
      (fun t => (t.p.s.rmc.var.toInt, t.p.star, t.p.tidx, t.p.tlen, t.p.csum)) =
      some (-3100000, true, 12, 0, 0x3D) := by decide

/-- The example of R128: term `47` against checksum 0x47. -/
theorem test_cr_publishes :
    (after (exec .pbCr (State.reset.withP
      ((parserAt .gga 15 [0x34, 0x37] true 0x47).withGga { GgaRecord.zero with hh := 12 })))).map
      (fun t => (t.fix.gga.hh, t.pEv)) = some (12, .pubGga) := by decide

/-- The example of R128: term `46` changes nothing and drops. -/
theorem test_cr_drops :
    (after (exec .pbCr (at_ .gga 15 [0x34, 0x36] true 0x47))) =
      some ((at_ .gga 15 [0x34, 0x36] true 0x47).withEv .dropCrc) := by decide

/-- The example of R129. -/
theorem test_other :
    (after (exec (.pbOther 0x47) (at_ .unknown 0 [0x24] false 0))).map (fun t => (t.p.csum, t.p.text, t.pEv)) =
      some (0x47, [0x24, 0x47], .none) := by decide

/-- R120, R129: the 13th character is dropped but XORed. -/
theorem test_other_truncates :
    (after (exec (.pbOther 0x39) (at_ .gga 2 (List.replicate 12 0x38) false 0x10))).map
      (fun t => (t.p.csum, t.p.text, t.pEv)) = some (0x29, List.replicate 12 0x38, .trunc) := by decide

/-- The example of R123 on a state whose `fix` and `p` are not zero. -/
theorem test_init :
    (after (exec .pInit ((at_ .rmc 3 [0x41] true 0x14).withFix
      ⟨GgaRecord.zero, { RmcRecord.zero with valid := true }⟩))).map (fun t => (t.p, t.fix)) =
      some (Parser.zero, Records.zero) := by decide

/-- R110: no state change. -/
theorem test_nop : exec .pNop (at_ .rmc 3 [0x41] true 0x14) = .next (at_ .rmc 3 [0x41] true 0x14) := rfl

/-- The example of R124. -/
theorem test_pb : exec (.pb 0x41) State.reset = exec (.pbOther 0x41) State.reset := rfl

/-- `$GPGGA,123519,4807.038,N,01131.000,E,1,08,0.9,545.4,M,46.9,M,,*47` and `\r` (95_test_vectors.md L1-1). -/
def ggaSentence : List Byte :=
  [0x24, 0x47, 0x50, 0x47, 0x47, 0x41, 0x2C, 0x31, 0x32, 0x33, 0x35, 0x31, 0x39, 0x2C, 0x34, 0x38, 0x30,
   0x37, 0x2E, 0x30, 0x33, 0x38, 0x2C, 0x4E, 0x2C, 0x30, 0x31, 0x31, 0x33, 0x31, 0x2E, 0x30, 0x30, 0x30,
   0x2C, 0x45, 0x2C, 0x31, 0x2C, 0x30, 0x38, 0x2C, 0x30, 0x2E, 0x39, 0x2C, 0x35, 0x34, 0x35, 0x2E, 0x34] ++
  [0x2C, 0x4D, 0x2C, 0x34, 0x36, 0x2E, 0x39, 0x2C, 0x4D, 0x2C, 0x2C, 0x2A, 0x34, 0x37, 0x0D]

theorem test_process_gga_sentence :
    (after (exec (.pProcess ggaSentence) State.reset)).map (fun t => (t.fix.gga, t.pEv)) =
      some (⟨12, 35, 19, 481173000, 115166666, 1, 8, 545400000, 46900000⟩, .pubGga) := by decide +kernel

/-- `$GPRMC,123519,A,4807.038,N,01131.000,E,022.4,084.4,230394,003.1,W*6A` and `\r` (L1-2). -/
def rmcSentence : List Byte :=
  [0x24, 0x47, 0x50, 0x52, 0x4D, 0x43, 0x2C, 0x31, 0x32, 0x33, 0x35, 0x31, 0x39, 0x2C, 0x41, 0x2C, 0x34,
   0x38, 0x30, 0x37, 0x2E, 0x30, 0x33, 0x38, 0x2C, 0x4E, 0x2C, 0x30, 0x31, 0x31, 0x33, 0x31, 0x2E, 0x30,
   0x30, 0x30, 0x2C, 0x45, 0x2C, 0x30, 0x32, 0x32, 0x2E, 0x34, 0x2C, 0x30, 0x38, 0x34, 0x2E, 0x34, 0x2C] ++
  [0x32, 0x33, 0x30, 0x33, 0x39, 0x34, 0x2C, 0x30, 0x30, 0x33, 0x2E, 0x31, 0x2C, 0x57, 0x2A, 0x36, 0x41, 0x0D]

theorem test_process_rmc_sentence :
    (after (exec (.pProcess rmcSentence) State.reset)).map (fun t => (t.fix.rmc, t.pEv)) =
      some (⟨true, 22400000, 84400000, -3100000, 23, 3, 94⟩, .pubRmc) := by decide +kernel

/-! ### Term operations -/

/-- R94, R141: `$GNRMC`. -/
theorem test_t_id :
    (after (exec .tId (at_ .unknown 0 [0x24, 0x47, 0x4E, 0x52, 0x4D, 0x43] false 0))).map (fun t => t.p.kind) =
      some .rmc := by decide

/-- `$GPGGAX`: Unknown under `EXACT`, GGA under `PREFIX6` (95_test_vectors.md L2-P9). -/
theorem test_t_id_seven_characters :
    (Parser.identifyTerm Config.initial
      (parserAt .unknown 0 [0x24, 0x47, 0x50, 0x47, 0x47, 0x41, 0x58] false 0)).kind = .unknown ∧
    (Parser.identifyTerm { Config.initial with idMatch := .prefix6 }
      (parserAt .unknown 0 [0x24, 0x47, 0x50, 0x47, 0x47, 0x41, 0x58] false 0)).kind = .gga := by decide

/-- `996199` (L2-N4). -/
theorem test_gga_time :
    (after (exec .ggaTime (termed [0x39, 0x39, 0x36, 0x31, 0x39, 0x39]))).map
      (fun t => (t.p.s.gga.hh, t.p.s.gga.mm, t.p.s.gga.ss)) = some (99, 61, 99) := by decide

/-- `-4807.038` (L2-N3). -/
theorem test_gga_lat :
    (after (exec .ggaLat (termed [0x2D, 0x34, 0x38, 0x30, 0x37, 0x2E, 0x30, 0x33, 0x38]))).map
      (fun t => t.p.s.gga.lat.toInt) = some (-481173000) := by decide

/-- `4807.0389999` (L2-N3), the 12 characters kept of L2-P8. -/
theorem test_gga_lat_truncates :
    (after (exec .ggaLat (termed [0x34, 0x38, 0x30, 0x37, 0x2E, 0x30, 0x33, 0x38, 0x39, 0x39, 0x39, 0x39]))).map
      (fun t => t.p.s.gga.lat.toInt) = some 481173166 := by decide

/-- `s` (R144, L2-N5). -/
theorem test_gga_ns :
    (after (exec .ggaNs (State.reset.withP
      ((parserAt .gga 3 [0x73] false 0).withGga { GgaRecord.zero with lat := 481173000 })))).map
      (fun t => t.p.s.gga.lat.toInt) = some (-481173000) := by decide

/-- `01131.000` (L2-N3). -/
theorem test_gga_lon :
    (after (exec .ggaLon (termed [0x30, 0x31, 0x31, 0x33, 0x31, 0x2E, 0x30, 0x30, 0x30]))).map
      (fun t => t.p.s.gga.lon.toInt) = some 115166666 := by decide

/-- `E` negates nothing (R146). -/
theorem test_gga_ew :
    (after (exec .ggaEw (State.reset.withP
      ((parserAt .gga 5 [0x45] false 0).withGga { GgaRecord.zero with lon := 7 })))).map
      (fun t => t.p.s.gga.lon.toInt) = some 7 := by decide

/-- `-12.3` modulo 256 (L2-N1). -/
theorem test_gga_fixq :
    (after (exec .ggaFixq (termed [0x2D, 0x31, 0x32, 0x2E, 0x33]))).map (fun t => t.p.s.gga.fixq) = some 244 := by
  decide

/-- `300` modulo 256 (L2-N1). -/
theorem test_gga_sats :
    (after (exec .ggaSats (termed [0x33, 0x30, 0x30]))).map (fun t => t.p.s.gga.sats) = some 44 := by decide

/-- `-.5` (L2-N2). -/
theorem test_gga_alt :
    (after (exec .ggaAlt (termed [0x2D, 0x2E, 0x35]))).map (fun t => t.p.s.gga.alt.toInt) = some (-500000) := by
  decide

/-- `12.3.4` (L2-N2). -/
theorem test_gga_geoid :
    (after (exec .ggaGeoid (termed [0x31, 0x32, 0x2E, 0x33, 0x2E, 0x34]))).map
      (fun t => t.p.s.gga.geoid.toInt) = some 12300000 := by decide

/-- `a` is not valid, `A` is (R152, L2-T5). -/
theorem test_rmc_valid :
    (after (exec .rmcValid (termed [0x61]))).map (fun t => t.p.s.rmc.valid) = some false ∧
    (after (exec .rmcValid (termed [0x41]))).map (fun t => t.p.s.rmc.valid) = some true := by decide

/-- `999999999999` (L2-N2). -/
theorem test_rmc_speed :
    (after (exec .rmcSpeed (termed (List.replicate 12 0x39)))).map (fun t => t.p.s.rmc.speed.toInt) =
      some 999999999999000000 := by decide

/-- `1.23456789` (L2-N2). -/
theorem test_rmc_course :
    (after (exec .rmcCourse (termed [0x31, 0x2E, 0x32, 0x33, 0x34, 0x35, 0x36, 0x37, 0x38, 0x39]))).map
      (fun t => t.p.s.rmc.course.toInt) = some 1234567 := by decide

/-- `230394` (L2-N4). -/
theorem test_rmc_date :
    (after (exec .rmcDate (termed [0x32, 0x33, 0x30, 0x33, 0x39, 0x34]))).map
      (fun t => (t.p.s.rmc.dd, t.p.s.rmc.mo, t.p.s.rmc.yy)) = some (23, 3, 94) := by decide

/-- `545.4M` (L2-N2). -/
theorem test_rmc_var :
    (after (exec .rmcVar (termed [0x35, 0x34, 0x35, 0x2E, 0x34, 0x4D]))).map (fun t => t.p.s.rmc.var.toInt) =
      some 545400000 := by decide

/-- `NEG(-3100000) = 3100000` (L2-N5). -/
theorem test_rmc_varew :
    (after (exec .rmcVarew (State.reset.withP
      ((parserAt .rmc 11 [0x57] false 0).withRmc { RmcRecord.zero with var := -3100000 })))).map
      (fun t => t.p.s.rmc.var.toInt) = some 3100000 := by decide

/-- R159. -/
theorem test_t_none : exec (.tNone 1 8) (termed [0x30]) = .next (termed [0x30]) := rfl

/-- `EXPECTED` on `6a`, `4`, `G7` and `47` followed by a line feed (L2-C1). -/
theorem test_expected :
    expectedValue [0x36, 0x61] = 0x6A ∧ expectedValid [0x36, 0x61] = true ∧
    expectedValue [0x34] = 0x40 ∧ expectedValid [0x34] = false ∧
    expectedValue [0x47, 0x37] = 0x07 ∧ expectedValid [0x47, 0x37] = false ∧
    expectedValue [0x34, 0x37, 0x0A] = 0x47 := by decide

/-- `CRC_OK` with checksum 0x40 and term `4` (L2-C2). -/
theorem test_hex_invalid_parameter :
    checksumMatches .zero [0x34] 0x40 = true ∧ checksumMatches .reject [0x34] 0x40 = false := by decide

/-! ### Ring buffer -/

/-- L2-R2: a write across the end of the array. -/
theorem test_rb_write_wraps :
    (after (exec (.rbWrite [0x41, 0x42, 0x43, 0x44, 0x45])
      (helloRing.withRb ⟨helloRing.rb.mem, 3, 5⟩))).map (fun t => (t.rb, t.prodOut.k)) =
      some (fullRing.rb, 5) := by decide

/-- L2-R6: an exact fit to the end leaves `w = 0`. -/
theorem test_rb_write_to_the_end :
    (after (exec (.rbWrite [0x78, 0x79, 0x7A]) (ringAt ⟨8, by decide⟩ [] 2 5))).map
      (fun t => (t.rb.w, t.occ, t.free)) = some (0, 6, 1) := by decide

/-- L2-R4: everything, oldest first. -/
theorem test_rb_read_all :
    (after (exec (.rbRead 100) fullRing)).map (fun t => (t.rb.r, t.empty, t.consOut)) =
      some (2, true, ⟨7, [0x6C, 0x6F, 0x41, 0x42, 0x43, 0x44, 0x45]⟩) := by decide

/-- L2-R1: reading an empty buffer. -/
theorem test_rb_read_empty :
    (after (exec (.rbRead 1) State.reset)).map (fun t => (t.rb.r, t.consOut)) = some (0, ⟨0, []⟩) := by decide

/-- L2-R3: `RB_PEEK 5, 9` and `RB_PEEK 7, 1`. -/
theorem test_rb_peek :
    (after (exec (.rbPeek 5 9) fullRing)).map (fun t => (t.rb.r, t.consOut)) = some (3, ⟨2, [0x44, 0x45]⟩) ∧
    (after (exec (.rbPeek 7 1) fullRing)).map (fun t => t.consOut) = some ⟨0, []⟩ := by decide

/-- L3-1 steps 6 and 7. -/
theorem test_rb_sizes :
    (after (exec (.rbOcc .consumer) fullRing)).map (fun t => t.consOut.k) = some 7 ∧
    (after (exec (.rbFree .producer) fullRing)).map (fun t => t.prodOut.k) = some 0 := by decide

/-- The examples of R203 and R204. -/
theorem test_rb_sizes_wrapped :
    (ringAt ⟨8, by decide⟩ [] 6 2).occ = 4 ∧ (ringAt ⟨8, by decide⟩ [] 6 2).free = 3 := by decide

/-- L2-R7. -/
theorem test_rb_init_and_reset :
    (after (exec (.rbInit .producer) (fullRing.withRb ⟨fullRing.rb.mem, 5, 2⟩))).map (fun t => t.rb) =
      some ⟨fullRing.rb.mem, 0, 0⟩ ∧
    (after (exec (.rbReset .consumer) (fullRing.withRb ⟨fullRing.rb.mem, 5, 2⟩))).map (fun t => t.rb) =
      some ⟨fullRing.rb.mem, 0, 0⟩ := by decide

/-- R114, R215. -/
theorem test_rb_reserved :
    (after (exec (.rbRsvd7 .producer) fullRing)).map (fun t => (t.rb, t.prodOut.k)) = some (fullRing.rb, 0) := by
  decide

/-- W2 and R3 of 95_test_vectors.md L2-R9, rows 6 and 16, on the schedule. -/
theorem test_micro_steps :
    (after (step (((ringAt ⟨8, by decide⟩ [(6, 0x41), (7, 0x42)] 6 6).withWriting
      (some ⟨6, 6, 4, 2, [0x41, 0x42, 0x43, 0x44]⟩)).withSched [.advance .write]))).map
      (fun t => (t.cell 0, t.rb.w)) = some (0x43, 6) ∧
    (after (step (((ringAt ⟨8, by decide⟩ [] 6 2).withReading
      (some ⟨true, 6, 2, 0, 4, [0x41, 0x42, 0x43, 0x44]⟩)).withSched [.advance .read]))).map
      (fun t => (t.rb.r, t.consOut)) = some (2, ⟨4, [0x41, 0x42, 0x43, 0x44]⟩) := by decide

/-- L2-X1: `\r` right after reset. -/
theorem test_cr_after_reset :
    (after (exec .pbCr State.reset)).map (fun t => t.pEv) = some .dropUnknown ∧
    (after (exec .pbCr (State.afterReset { Config.initial with hexInvalid := .reject } 0))).map
      (fun t => t.pEv) = some .dropCrc := by decide

/-- R260, R261 as a step. -/
theorem test_hardware_reset :
    step ((fullRing.withFix ⟨GgaRecord.zero, { RmcRecord.zero with valid := true }⟩).withSched
      [.hardwareReset]) = .next (State.afterReset (cells ⟨8, by decide⟩) 1) := rfl

/-! ### Witnesses: for each obligation with hypotheses, a state and operands that meet them -/

theorem witness_DecodeOfEncodeIsTheOperation :
    Instr.wf (.pbOther 0xFF) = true ∧ Instr.wf (.tNone 2 12) = true ∧ Instr.wf (.rbPeek 5 9) = true := by decide

theorem witness_DecodedOperationIsItsTableRow :
    decode (.term 0x209) = .ok .rmcDate ∧ decode (.byte 0x00) = .ok (.pbOther 0) ∧
    decode (.ring .consumer 2 1 0 [0x61]) = .error .writeIsTheProducers ∧
    decode (.ring .producer 3 1 0 []) = .error .readIsTheConsumers ∧
    decode (.ring .producer 4 1 0 []) = .error .readIsTheConsumers ∧
    decode (.ring .producer 2 1 0 []) = .error .dataShorterThanCount ∧
    decode (.parser 3 0 [] 1) = .error .dataShorterThanCount := by decide

theorem witness_StepRunsThePresentedOperation :
    State.reset.sched = [] ∧
    (State.reset.withSched [.present (.byte 0x24), .hardwareReset]).sched =
      .present (.byte 0x24) :: [.hardwareReset] ∧
    decode (.byte 0x24) = .ok .pbDollar ∧
    decode (.ring .consumer 2 0 0 []) = .error .writeIsTheProducers := by decide

theorem witness_HardwareResetZeroesEverythingButTheCells :
    (bothInProgress.withSched [.hardwareReset]).sched = .hardwareReset :: [] := rfl

theorem witness_HardwareResetIsInitOfBothComponents : fullRing.Quiescent := ⟨rfl, rfl, rfl⟩

/-- The invariant of a state with the zero parser state, from its other parts. -/
theorem inv_of_parts {s : State} (hp : s.p = Parser.zero) (hr : s.RingInv)
    (hw : ∀ x, s.writing = some x → s.WriteSound x) (hd : ∀ x, s.reading = some x → s.ReadSound x)
    (hn : s.spanning = none) : s.Inv := by
  refine ⟨?_, hr, hw, hd, by simp [hn]⟩
  rw [hp]
  exact ⟨by decide, by decide, by decide⟩

/-- The invariant holds with a write and a read in progress, whatever the schedule. -/
theorem bothInProgress_inv (l : List Input) : (bothInProgress.withSched l).Inv := by
  refine inv_of_parts rfl ?_ (fun x hx => ?_) (fun x hx => ?_) rfl
  · show bothInProgress.RingInv
    unfold State.RingInv
    decide
  · cases hx
    show bothInProgress.WriteSound ⟨0, 5, 2, 1, [0x41, 0x42]⟩
    unfold State.WriteSound
    decide
  · cases hx
    show bothInProgress.ReadSound ⟨true, 0, 5, 0, 2, [0x68]⟩
    unfold State.ReadSound
    decide

/-- The invariant holds with nothing in progress, whatever the schedule. -/
theorem helloRing_inv (l : List Input) : (helloRing.withSched l).Inv := by
  refine inv_of_parts rfl ?_ (fun x hx => nomatch hx) (fun x hx => nomatch hx) rfl
  show helloRing.RingInv
  unfold State.RingInv
  decide

/-- The invariant holds with a write and a read about to commit, whatever the schedule. -/
theorem bothToCommit_inv (l : List Input) : (bothToCommit.withSched l).Inv := by
  refine inv_of_parts rfl ?_ (fun x hx => ?_) (fun x hx => ?_) rfl
  · show bothToCommit.RingInv
    unfold State.RingInv
    decide
  · cases hx
    show bothToCommit.WriteSound ⟨0, 5, 2, 2, [0x41, 0x42]⟩
    unfold State.WriteSound
    decide
  · cases hx
    show bothToCommit.ReadSound ⟨true, 0, 5, 0, 2, [0x68, 0x65]⟩
    unfold State.ReadSound
    decide

theorem witness_EveryStepKeepsTheInvariant :
    (bothInProgress.withSched [.advance .write, .advance .read]).Inv ∧
    ∃ t, step (bothInProgress.withSched [.advance .write, .advance .read]) = .next t :=
  ⟨bothInProgress_inv _, _, rfl⟩

theorem witness_DollarRestartsTheParser : (at_ .gga 6 [0x31] true 0x5A).spanning = none := rfl
theorem witness_CommaFinalizesThenXorsThenStartsATerm : (at_ .gga 6 [0x31] false 0x5A).spanning = none := rfl
theorem witness_StarFinalizesThenEndsTheChecksum : (at_ .rmc 11 [0x57] false 0x3D).spanning = none := rfl

/-- A match for each kind and a mismatch, and the parameter `REJECT` on a hexadecimal and on another character. -/
theorem witness_CarriageReturnPublishesExactlyOnAMatch :
    (at_ .gga 15 [0x34, 0x37] true 0x47).spanning = none ∧
    (at_ .gga 15 [0x34, 0x37] true 0x47).crcOk = true ∧ (at_ .gga 15 [0x34, 0x36] true 0x47).crcOk = false ∧
    (at_ .rmc 12 [0x36, 0x61] true 0x6A).crcOk = true ∧ (at_ .unknown 4 [0x35, 0x33] true 0x53).crcOk = true ∧
    checksumMatches .reject [0x47, 0x37] 0x07 = false ∧ checksumMatches .reject [0x34, 0x37] 0x47 = true := by
  decide

/-- One state for each kind. -/
theorem witness_PublicationReplacesOneWholeGroup :
    (at_ .gga 15 [0x34, 0x37] true 0x47).spanning = none ∧ (at_ .gga 15 [0x34, 0x37] true 0x47).crcOk = true ∧
    (at_ .rmc 12 [0x36, 0x61] true 0x6A).crcOk = true ∧ (at_ .unknown 4 [0x35, 0x33] true 0x53).crcOk = true := by
  decide

theorem witness_MismatchIsNotRemembered :
    (at_ .gga 15 [0x34, 0x36] true 0x47).spanning = none ∧
    (at_ .gga 15 [0x34, 0x36] true 0x47).crcOk = false := by decide

/-- The last character kept and the first one dropped. -/
theorem witness_OtherByteIsXoredAndKeptIfItFits :
    (termed (List.replicate 11 0x38)).spanning = none ∧ Instr.wf (.pbOther 0x39) = true ∧
    (termed (List.replicate 11 0x38)).p.tlen.val < 12 ∧ (termed (List.replicate 12 0x38)).p.tlen.val = 12 := by
  decide

theorem witness_InitZeroesParserAndFixAndNopNothing : (at_ .gga 6 [0x31] true 0x5A).spanning = none := rfl

theorem witness_PbIsTheOperationOfTheClassOfItsByte :
    decode (.byte 0x0D) = .ok .pbCr ∧ decode (.byte 0x0E) = .ok (.pbOther 0x0E) ∧ State.reset.spanning = none := by
  decide

theorem witness_ProcessIsEveryByteInOrder : (at_ .gga 6 [0x31] false 0x5A).spanning = none := rfl

/-- A span of no bytes and one of two. -/
theorem witness_SpanByteByByteEndsAsTheWholeSpan :
    (State.reset.withSched [.start (.parser 3 0 [] 0)]).sched =
      .start (encode (.pProcess [])) :: (List.replicate 0 (.advance .parser) ++ []) ∧
    (State.reset.withSched [.start (.parser 3 0 [0x24, 0x47] 2), .advance .parser, .advance .parser]).sched =
      .start (encode (.pProcess [0x24, 0x47])) :: (List.replicate 2 (.advance .parser) ++ []) ∧
    State.reset.spanning = none := by decide

/-- Each literal, and a term that is none of them. -/
theorem witness_IdentifierSetsTheKind :
    identify .wholeTerm (termed [0x24, 0x47, 0x50, 0x47, 0x47, 0x41]).p.text = .gga ∧
    identify .prefix6 (termed [0x24, 0x47, 0x4E, 0x47, 0x47, 0x41, 0x58]).p.text = .gga ∧
    identify .wholeTerm (termed [0x24, 0x47, 0x50, 0x52, 0x4D, 0x43]).p.text = .rmc ∧
    identify .prefix6 (termed [0x24, 0x47, 0x4E, 0x52, 0x4D, 0x43]).p.text = .rmc ∧
    identify .wholeTerm (termed [0x24, 0x47, 0x50, 0x47, 0x47, 0x41, 0x58]).p.text = .unknown := by decide

/-- Both letters of each sign field, another letter, and a field that is not the most negative number. -/
theorem witness_SignLettersNegateTheirField :
    (termed [0x53]).p.tc 0 = 0x53 ∧ (termed [0x73]).p.tc 0 = 0x73 ∧ (termed [0x57]).p.tc 0 = 0x57 ∧
    (termed [0x77]).p.tc 0 = 0x77 ∧ (termed [0x4E]).p.tc 0 ≠ 0x53 ∧ (termed [0x4E]).p.tc 0 ≠ 0x73 ∧
    (termed [0x45]).p.tc 0 ≠ 0x57 ∧ (termed [0x45]).p.tc 0 ≠ 0x77 ∧
    (termed [0x53]).p.s.gga.lat.toInt ≠ -(2 ^ 63) ∧ (termed [0x57]).p.s.gga.lon.toInt ≠ -(2 ^ 63) ∧
    (termed [0x57]).p.s.rmc.var.toInt ≠ -(2 ^ 63) := by decide

theorem witness_UnlistedTermsAreIgnored :
    (8 : Byte) ≠ 0 ∧ decode (.term (makeKey Kind.gga.code 12)) = .ok (.tNone Kind.gga.code 12) ∧
    decode (.term (makeKey Kind.gga.code 11)) ≠ .ok (.tNone Kind.gga.code 11) ∧
    decode (.term (makeKey Kind.rmc.code 6)) = .ok (.tNone Kind.rmc.code 6) ∧
    decode (.term (makeKey Kind.unknown.code 255)) = .ok (.tNone Kind.unknown.code 255) := by decide

theorem witness_TermOperationsTouchOnlyTheScratchRecord :
    (encode .ggaGeoid).format = .term ∧ Instr.ggaGeoid ≠ .tId ∧ Instr.ggaGeoid = decodeGga 11 ∧
    Instr.rmcVarew = decodeRmc 11 := by decide

theorem witness_EmptyTermsDecodeToZero : (termed []).p.tlen = 0 := rfl

/-- Digits on both sides; garbage that begins with a letter, with a second point, and none. -/
theorem witness_DecimalTextIsReadByItsGrammar :
    (∀ c ∈ ([0x35, 0x34] : Text), isDigit c = true) ∧ (∀ c ∈ ([0x34] : Text), isDigit c = true) ∧
    (∀ c ∈ ([0x2E, 0x34] : Text).head?, isDigit c = false) ∧
    (∀ c ∈ ([] : Text).head?, isDigit c = false) ∧
    (∀ c ∈ ([0x61] : Text).head?, isDigit c = false ∧ c ≠ 0x2E ∧
      (([] : Text) = [] → false = false → c ≠ 0x20 ∧ c ≠ 0x2D)) ∧
    (∀ c ∈ ([0x2D] : Text).head?, isDigit c = false ∧ c ≠ 0x2E ∧
      (([0x35] : Text) = [] → false = false → c ≠ 0x20 ∧ c ≠ 0x2D)) := by simp [isDigit]

/-- `4807.038`: degrees 48, minutes 7038 thousandths. -/
theorem witness_DegreesAndMinutesTruncateTowardZero :
    (decFix [0x34, 0x38, 0x30, 0x37, 0x2E, 0x30, 0x33, 0x38]).mag =
      48 * (100 * 10 ^ (decFix [0x34, 0x38, 0x30, 0x37, 0x2E, 0x30, 0x33, 0x38]).frac) + 7038 ∧
    7038 < 100 * 10 ^ (decFix [0x34, 0x38, 0x30, 0x37, 0x2E, 0x30, 0x33, 0x38]).frac ∧
    (decFix [0x34, 0x38, 0x30, 0x37, 0x2E, 0x30, 0x33, 0x38]).neg = false ∧
    (decFix [0x2D, 0x37]).neg = true := by decide

/-- A sign of each kind. -/
theorem witness_DecimalFieldsTruncateTowardZero :
    (decFix [0x2D, 0x30, 0x2E, 0x35]).neg = true ∧ (decFix [0x30, 0x2E, 0x35]).neg = false := by decide

theorem witness_DecodersFitTheirRegisters : (List.replicate 12 0x39 : Text).length ≤ 12 := by decide

theorem witness_HexPairGivesItsByte :
    (15 < 16 ∧ (0x46 : Byte) = BitVec.ofNat 8 (0x41 + (15 - 10)) ∧ (0x66 : Byte) = BitVec.ofNat 8 (0x61 + (15 - 10))) ∧
    hexVal 0x47 = (0, false) ∧ hexVal 0x3A = (0, false) ∧ hexVal 0x60 = (0, false) := by decide

/-- `P_INIT` over a `fix` that is not zero, a carriage return, and a span with one. -/
theorem witness_FixChangesOnlyByInitOrAMatchingSentence :
    (∃ t, exec .pInit (State.reset.withFix ⟨{ GgaRecord.zero with hh := 1 }, RmcRecord.zero⟩) = .next t ∧
      t.fix ≠ (State.reset.withFix ⟨{ GgaRecord.zero with hh := 1 }, RmcRecord.zero⟩).fix) ∧
    (∃ t, exec (.pProcess [0x34, 0x37, 0x0D]) (State.reset.withP
        ((parserAt .gga 15 [] true 0x47).withGga { GgaRecord.zero with hh := 12 })) = .next t ∧
      t.fix ≠ State.reset.fix) :=
  ⟨⟨_, rfl, by decide⟩, ⟨_, rfl, by decide⟩⟩

theorem witness_NoStepMixesAFixGroup :
    (∃ t, step ((at_ .gga 15 [0x34, 0x37] true 0x47).withSched [.present (.byte 0x0D)]) = .next t) ∧
    ∀ tr rest bytes, ((at_ .gga 15 [0x34, 0x37] true 0x47).withSched [.present (.byte 0x0D)]).sched =
      .present tr :: rest → decode tr ≠ .ok (.pProcess bytes) := by
  refine ⟨⟨_, rfl⟩, ?_⟩
  intro tr rest bytes h
  cases h
  intro hd
  cases hd

theorem witness_NoDollarNoFix :
    State.reset.spanning = none ∧ State.reset.p = Parser.zero ∧
    (0x24 : Byte) ∉ ([0x61, 0x2C, 0x2A, 0x31, 0x32, 0x0D] : List Byte) := by decide

theorem witness_ChecksumIsTheXorOfTheCoveredBytes :
    State.reset.spanning = none ∧ (0x24 : Byte) ∉ ([0x47, 0x0D] : List Byte) ∧
    (0x2A : Byte) ∉ ([0x47, 0x0D] : List Byte) ∧ (0x24 : Byte) ∉ ([0x2C, 0x2A] : List Byte) := by decide

/-- `GPXXX,1,2,3` with 53, `GNRMC,,A` with 14 and with 10, `GPGGA` without a field with 56 (L1-7, L2-P1, L2-P11). -/
theorem witness_WellFormedSentencePublishesByItsChecksum :
    State.reset.spanning = none ∧ ([0x47, 0x50, 0x58, 0x58, 0x58] : Text).length = 5 ∧
    plainText [0x47, 0x50, 0x58, 0x58, 0x58] = true ∧ (∀ f ∈ ([[0x31], [], [0x33]] : List Text), plainText f = true) ∧
    (hexVal 0x35).2 = true ∧ (hexVal 0x33).2 = true ∧
    (xorAll (sentenceBody [0x47, 0x50, 0x58, 0x58, 0x58] [[0x31], [0x32], [0x33]])).toNat = 0x53 ∧
    (xorAll (sentenceBody [0x47, 0x4E, 0x52, 0x4D, 0x43] [[], [0x41]])).toNat = 0x14 ∧
    (hexVal 0x31).1 * 16 + (hexVal 0x30).1 ≠ 0x14 ∧
    (xorAll (sentenceBody [0x47, 0x50, 0x47, 0x47, 0x41] [])).toNat = 0x56 := by decide

theorem witness_RepetitionDoesNotDrift : (at_ .gga 15 [0x34, 0x37] true 0x47).spanning = none := rfl

/-- The same term with another byte in a cell beyond its end. -/
theorem witness_StaleTermCellsAreNeverRead :
    (termed [0x31]).p.Looks { (termed [0x31]).p with term := (termed [0x31]).p.term.set 5 0x5A } ∧
    ∃ t, exec (.pbOther 0x32) (termed [0x31]) = .next t :=
  ⟨⟨by decide, rfl, rfl, rfl, rfl, rfl, rfl⟩, _, rfl⟩

theorem witness_SizeQueriesAnswerFromTheCursors :
    State.reset.rb.r = State.reset.rb.w ∧ fullRing.rb.r < fullRing.cfg.C ∧ fullRing.full = true := by decide

/-- Nothing, something and everything fits. -/
theorem witness_WriteStoresTheBytesThatFit :
    helloRing.writing = none ∧ helloRing.rb.r < helloRing.cfg.C ∧ helloRing.rb.w < helloRing.cfg.C ∧
    min 0 helloRing.free = 0 ∧ 0 < min 1 helloRing.free ∧ min 9 helloRing.free = helloRing.free := by decide

theorem witness_ReadReturnsTheOldestBytes :
    helloRing.reading = none ∧ helloRing.rb.r < helloRing.cfg.C ∧ helloRing.rb.w < helloRing.cfg.C ∧
    min 0 helloRing.occ = 0 ∧ 0 < min 1 helloRing.occ ∧ min 9 helloRing.occ = helloRing.occ := by decide

theorem witness_PeekAnswersWhatReadingWould :
    helloRing.reading = none ∧ helloRing.rb.r < helloRing.cfg.C ∧ helloRing.rb.w < helloRing.cfg.C ∧
    helloRing.occ ≤ 5 := by decide

theorem witness_InitAndResetEmptyTheRing :
    emptiesRing (.rbInit .producer) = true ∧ emptiesRing (.rbReset .consumer) = true ∧
    fullRing.writing = none ∧ fullRing.reading = none ∧
    ¬ (bothInProgress.writing = none ∧ bothInProgress.reading = none) := by decide

theorem witness_ReservedCommandDoesNothing :
    fullRing.cfg.reserved = .noOperation ∧
    (State.afterReset { Config.initial with reserved := .refuse } 0).cfg.reserved = .refuse := by decide

theorem witness_FlagsAgreeWithTheSizes :
    fullRing.rb.r < fullRing.cfg.C ∧ fullRing.rb.w < fullRing.cfg.C ∧
    (ringAt ⟨2, by decide⟩ [] 1 0).cfg.C = 2 ∧ (ringAt ⟨2, by decide⟩ [] 1 0).rb.r < 2 := by decide

theorem witness_CursorArithmeticIsOneCorrection :
    fullRing.rb.r < fullRing.cfg.C ∧ fullRing.rb.w < fullRing.cfg.C ∧ 7 ≤ fullRing.cfg.C - 1 := by decide

theorem fullRing_ringInv : fullRing.RingInv := by
  unfold State.RingInv
  decide

theorem witness_BytesLeaveInTheOrderTheyEntered :
    State.reset.RingInv ∧ (∀ i ∈ [Instr.rbWrite [0x61, 0x62], .rbRead 1], emptiesRing i = false) ∧
    (∃ t, execAll [.rbWrite [0x61, 0x62], .rbRead 1] State.reset = .next t) ∧ State.reset.occ = 0 := by
  refine ⟨?_, by decide, ⟨_, rfl⟩, by decide⟩
  unfold State.RingInv
  decide

theorem witness_UnwrittenCellsAreNeverRead :
    fullRing.RingInv ∧ (∃ t, exec (.rbPeek 5 9) fullRing = .next t) ∧
    (bothInProgress.withSched [.advance .read]).Inv ∧
    (∀ rest, (bothInProgress.withSched [.advance .read]).sched ≠ .hardwareReset :: rest) ∧
    ∃ t, step (bothInProgress.withSched [.advance .read]) = .next t :=
  ⟨fullRing_ringInv, ⟨_, rfl⟩, bothInProgress_inv _, (fun _ h => nomatch h), _, rfl⟩

/-- A write of three bytes into a free space of two. -/
theorem witness_MicroStepsOfAWriteAreTheWholeWrite :
    helloRing.writing = none ∧ 2 = min 3 helloRing.free ∧
    (helloRing.withSched [.start (.ring .producer 2 3 0 [0x41, 0x42, 0x43]), .advance .write, .advance .write,
      .advance .write]).sched =
      .start (encode (.rbWrite [0x41, 0x42, 0x43])) :: (List.replicate (2 + 1) (.advance .write) ++ []) := by decide

/-- A read of two bytes; a peek of no byte and one of two. -/
theorem witness_MicroStepsOfAReadAreTheWholeRead :
    helloRing.reading = none ∧ 2 = min 2 helloRing.occ ∧ 2 = min 9 (helloRing.occ - 3) ∧
    0 = min 9 (helloRing.occ - 7) ∧
    (helloRing.withSched [.start (.ring .consumer 3 2 0 []), .advance .read, .advance .read, .advance .read]).sched =
      .start (encode (.rbRead 2)) :: (List.replicate (2 + 1) (.advance .read) ++ []) ∧
    (helloRing.withSched [.start (.ring .consumer 4 9 3 []), .advance .read, .advance .read]).sched =
      .start (encode (.rbPeek 3 9)) :: (List.replicate 2 (.advance .read) ++ []) ∧
    (helloRing.withSched [.start (.ring .consumer 4 9 7 [])]).sched =
      .start (encode (.rbPeek 7 9)) :: (List.replicate 0 (.advance .read) ++ []) := by decide

theorem witness_StaleCountsAreConservative :
    (bothInProgress.withSched []).Inv ∧ (∃ x, bothInProgress.writing = some x) ∧
    ∃ x, bothInProgress.reading = some x := ⟨bothInProgress_inv _, ⟨_, rfl⟩, _, rfl⟩

/-- Each alternative, from states that meet the invariant: W2 and R2; W3; R3; hardware reset. -/
theorem witness_EveryInterleavingKeepsTheByteOrder :
    (∀ l, (bothInProgress.withSched l).Inv) ∧ (∀ l, (bothToCommit.withSched l).Inv) ∧
    ((bothInProgress.withSched [.advance .write]).nextMove = .keeps ∧
      ∃ t, step (bothInProgress.withSched [.advance .write]) = .next t) ∧
    ((bothInProgress.withSched [.advance .read]).nextMove = .keeps ∧
      ∃ t, step (bothInProgress.withSched [.advance .read]) = .next t) ∧
    ((bothToCommit.withSched [.advance .write]).nextMove = .appends [0x41, 0x42] ∧
      ∃ t, step (bothToCommit.withSched [.advance .write]) = .next t) ∧
    ((bothToCommit.withSched [.advance .read]).nextMove = .removes 2 ∧
      ∃ t, step (bothToCommit.withSched [.advance .read]) = .next t) ∧
    ((bothToCommit.withSched [.hardwareReset]).nextMove = .empties ∧
      ∃ t, step (bothToCommit.withSched [.hardwareReset]) = .next t) :=
  ⟨bothInProgress_inv, bothToCommit_inv, ⟨by decide, _, rfl⟩, ⟨by decide, _, rfl⟩, ⟨by decide, _, rfl⟩, ⟨by decide, _, rfl⟩, by decide, _, rfl⟩

/-- The same for whole operations: a write of three bytes into a free space of two, a read of nine bytes of five,
and `RB_INIT`. -/
theorem witness_EveryInterleavingKeepsTheByteOrder_whole :
    (∀ l, (helloRing.withSched l).Inv) ∧
    (helloRing.withSched [.present (.ring .producer 2 3 0 [0x41, 0x42, 0x43])]).nextMove =
      .appends [0x41, 0x42] ∧
    (∃ t, step (helloRing.withSched [.present (.ring .producer 2 3 0 [0x41, 0x42, 0x43])]) = .next t) ∧
    (helloRing.withSched [.present (.ring .consumer 3 9 0 [])]).nextMove = .removes 5 ∧
    (∃ t, step (helloRing.withSched [.present (.ring .consumer 3 9 0 [])]) = .next t) ∧
    (helloRing.withSched [.start (.ring .consumer 0 0 0 [])]).nextMove = .empties ∧
    (∃ t, step (helloRing.withSched [.start (.ring .consumer 0 0 0 [])]) = .next t) :=
  ⟨helloRing_inv, by decide, ⟨_, rfl⟩, by decide, ⟨_, rfl⟩, by decide, _, rfl⟩

/-- Each overlap and, from `helloRing`, each operation that goes on; the schedules start the operation or present
it. -/
theorem witness_OverlappingOperationsAreRefused :
    bothInProgress.writing ≠ none ∧ bothInProgress.reading ≠ none ∧
    (State.reset.withSpanning (some [0x24])).spanning ≠ none ∧ helloRing.Quiescent ∧
    (bothInProgress.withSched [.start (.ring .producer 2 1 0 [0x61])]).sched =
      .start (.ring .producer 2 1 0 [0x61]) :: [] ∧
    (bothInProgress.withSched [.present (.parser 3 0 [] 0)]).sched = .present (.parser 3 0 [] 0) :: [] ∧
    decode (.ring .producer 2 1 0 [0x61]) = .ok (.rbWrite [0x61]) ∧
    decode (.ring .consumer 3 1 0 []) = .ok (.rbRead 1) ∧ decode (.ring .consumer 4 1 2 []) = .ok (.rbPeek 2 1) ∧
    decode (.ring .consumer 1 0 0 []) = .ok (.rbReset .consumer) ∧ emptiesRing (.rbReset .consumer) = true ∧
    decode (.parser 3 0 [] 0) = .ok (.pProcess []) ∧ (encode (.pProcess [])).format = .pcmd ∧
    decode (.byte 0x2C) = .ok .pbComma ∧ (encode .pbComma).format = .byte :=
  ⟨by decide, by decide, by decide, ⟨rfl, rfl, rfl⟩, rfl, rfl, by decide, by decide, by decide, by decide, by decide,
    by decide, by decide, by decide, by decide⟩

theorem witness_EveryOperationIsTotalWhenNothingIsInProgress :
    helloRing.Quiescent ∧ helloRing.cfg.reserved = .noOperation := ⟨⟨rfl, rfl, rfl⟩, rfl⟩

theorem witness_OperationsStayOnTheirSide :
    (∃ t, exec (.rbRead 2) helloRing = .next t) ∧ (encode (.rbRead 2)).format = .rbcmd ∧
    (∃ t, exec .pbCr helloRing = .next t) ∧ (encode .pbCr).format ≠ .rbcmd ∧
    ∃ t, step (bothInProgress.withSched [.advance .read]) = .next t :=
  ⟨⟨_, rfl⟩, by decide, ⟨_, rfl⟩, by decide, _, rfl⟩

end Sys2Proof.Tests
end

section
/-!
PROOFS. The byte classification (30_encoding.md, R92): one equation per row of its table, and the statement that is
assembled from them.
-/
namespace Sys2Proof

@[simp] theorem decode_byte (b : Byte) : decode (.byte b) = .ok (decodeByte b) := rfl

@[simp] theorem decodeByte_dollar : decodeByte 0x24 = .pbDollar := rfl

@[simp] theorem decodeByte_comma : decodeByte 0x2C = .pbComma := rfl

@[simp] theorem decodeByte_star : decodeByte 0x2A = .pbStar := rfl

@[simp] theorem decodeByte_cr : decodeByte 0x0D = .pbCr := rfl

theorem decodeByte_of_not_special {b : Byte} (hDollar : b ≠ 0x24) (hComma : b ≠ 0x2C) (hStar : b ≠ 0x2A)
    (hCr : b ≠ 0x0D) : decodeByte b = .pbOther b := by
  rw [decodeByte, if_neg hDollar, if_neg hComma, if_neg hStar, if_neg hCr]

/-- Settles O3: the operation is `decodeByte b`, and each row of the table is one equation of `decodeByte`. -/
theorem everyByteHasExactlyOneClass : Obligations.EveryByteHasExactlyOneClass := by
  intro b
  refine ⟨decodeByte b, decode_byte b, ?dollar, ?comma, ?star, ?cr, decodeByte_of_not_special⟩
  case dollar => rintro rfl; exact decodeByte_dollar
  case comma => rintro rfl; exact decodeByte_comma
  case star => rintro rfl; exact decodeByte_star
  case cr => rintro rfl; exact decodeByte_cr

end Sys2Proof
end

section
/-!
PROOFS. The bytes that end no term: `PB_DOLLAR` and `PB_OTHER` (40_parser_bytes.md, R125 and R129). Both rest on what
`TERM_ADD` (R120) does to the characters of the term.
-/
namespace Sys2Proof.Machine

/-! ### What TERM_ADD does to the characters -/

theorem Parser.termAdd_tlen_val {p : Parser} (b : Byte) (h : p.tlen.val < 12) :
    (p.termAdd b).tlen.val = p.tlen.val + 1 := by
  simp [Parser.termAdd, h]

theorem Parser.termAdd_tc_last {p : Parser} (b : Byte) (h : p.tlen.val < 12) :
    (p.termAdd b).tc p.tlen.val = b := by
  rw [Parser.tc_eq_charAt, Parser.text_termAdd b h, charAt, List.getD_append_right _ _ _ _ (by simp)]
  simp

theorem Parser.termAdd_tc_before {p : Parser} (b : Byte) (h : p.tlen.val < 12) {i : Nat} (hi : i < p.tlen.val) :
    (p.termAdd b).tc i = p.tc i := by
  rw [Parser.tc_eq_charAt, Parser.tc_eq_charAt, Parser.text_termAdd b h, charAt, charAt,
    List.getD_append _ _ _ _ (by simpa using hi)]

theorem Parser.tc_of_tlen_le {p : Parser} {i : Nat} (h : p.tlen.val ≤ i) : p.tc i = 0 :=
  dif_neg (Nat.not_lt.2 h)

theorem Parser.termFull_iff (p : Parser) : p.termFull = true ↔ p.tlen.val = 12 := by
  simp [Parser.termFull]

/-! ### PB_DOLLAR -/

theorem exec_pbDollar {s : State} (h : s.spanning = none) : exec .pbDollar s = .next s.byteDollar := serially_none h

@[simp] theorem State.byteDollar_p (s : State) : s.byteDollar.p = s.p.restart.termAdd Ascii.dollar := rfl
@[simp] theorem State.byteDollar_fix (s : State) : s.byteDollar.fix = s.fix := rfl
@[simp] theorem State.byteDollar_pEv (s : State) : s.byteDollar.pEv = .none := rfl
theorem State.byteDollar_outside (s : State) : s.SameOutsideParser s.byteDollar := s.sameOutsideParser_refl

/-! ### PB_OTHER -/

theorem exec_pbOther {s : State} (b : Byte) (h : s.spanning = none) : exec (.pbOther b) s = .next (s.byteOther b) :=
  serially_none h

@[simp] theorem Parser.crcOther_term (p : Parser) (b : Byte) : (p.crcOther b).term = p.term := by
  unfold Parser.crcOther; split <;> rfl

theorem Parser.crcOther_tc (p : Parser) (b : Byte) (i : Nat) : (p.crcOther b).tc i = p.tc i := by
  rw [Parser.tc_eq_charAt, Parser.tc_eq_charAt, Parser.crcOther_text]

@[simp] theorem State.byteOther_p (s : State) (b : Byte) : (s.byteOther b).p = (s.p.crcOther b).termAdd b := rfl
@[simp] theorem State.byteOther_fix (s : State) (b : Byte) : (s.byteOther b).fix = s.fix := rfl
theorem State.byteOther_outside (s : State) (b : Byte) : s.SameOutsideParser (s.byteOther b) :=
  s.sameOutsideParser_refl

theorem State.byteOther_pEv_of_lt {s : State} (b : Byte) (h : s.p.tlen.val < 12) : (s.byteOther b).pEv = .none :=
  if_neg fun hFull => by have := s.p.termFull_iff.1 hFull; omega

theorem State.byteOther_pEv_of_full {s : State} (b : Byte) (h : s.p.tlen.val = 12) : (s.byteOther b).pEv = .trunc :=
  if_pos (s.p.termFull_iff.2 h)

/-- The byte is kept while there is room (R120, R129). -/
theorem State.byteOther_keeps {s : State} (b : Byte) (h : s.p.tlen.val < 12) :
    (s.byteOther b).p.tlen.val = s.p.tlen.val + 1 ∧ (s.byteOther b).p.tc s.p.tlen.val = b ∧
      ∀ i < s.p.tlen.val, (s.byteOther b).p.tc i = s.p.tc i := by
  have hLen : (s.p.crcOther b).tlen = s.p.tlen := s.p.crcOther_tlen b
  have hRoom : (s.p.crcOther b).tlen.val < 12 := by rw [hLen]; exact h
  refine ⟨?length, ?last, fun i hi => ?before⟩
  case length => rw [State.byteOther_p, Parser.termAdd_tlen_val b hRoom, hLen]
  case last => rw [State.byteOther_p, ← hLen]; exact Parser.termAdd_tc_last b hRoom
  case before =>
    rw [State.byteOther_p, Parser.termAdd_tc_before b hRoom (by rw [hLen]; exact hi), Parser.crcOther_tc]

/-- On a full term the byte reaches the checksum only (R129). -/
theorem State.byteOther_p_of_full {s : State} (b : Byte) (h : s.p.tlen.val = 12) :
    (s.byteOther b).p = s.p.crcOther b :=
  Parser.termAdd_full b (by rw [Parser.crcOther_tlen]; omega)

end Sys2Proof.Machine

namespace Sys2Proof

open Machine

/-- Settles O10: the reset parser has an empty term, so `TERM_ADD` keeps the `'$'` at position 0. -/
theorem dollarRestartsTheParser : Obligations.DollarRestartsTheParser := by
  intro s hIdle
  have hRoom : s.p.restart.tlen.val < 12 := by simp
  have hLen : s.byteDollar.p.tlen.val = 1 := Parser.termAdd_tlen_val Ascii.dollar hRoom
  exact ⟨s.byteDollar, exec_pbDollar hIdle, by simp, by simp, by simp, by simp, by simp, Fin.ext hLen,
    Parser.termAdd_tc_last Ascii.dollar hRoom, fun i hi => Parser.tc_of_tlen_le (hLen.trans_le hi),
    s.byteDollar_pEv, s.byteDollar_fix, s.byteDollar_outside⟩

/-- Settles O16: the XOR comes before `TERM_ADD` and does not look at the term's length; only the append does. -/
theorem otherByteIsXoredAndKeptIfItFits : Obligations.OtherByteIsXoredAndKeptIfItFits := by
  intro s b hIdle _
  refine ⟨s.byteOther b, exec_pbOther b hIdle, ?csum, fun hRoom => ?kept, fun hFull => ?dropped, by simp, by simp,
    by simp, by simp, s.byteOther_fix b, s.byteOther_outside b⟩
  case csum => rw [State.byteOther_p, Parser.termAdd_csum, Parser.crcOther_csum]
  case kept =>
    obtain ⟨hLen, hLast, hBefore⟩ := State.byteOther_keeps b hRoom
    exact ⟨hLen, hLast, hBefore, State.byteOther_pEv_of_lt b hRoom⟩
  case dropped =>
    rw [State.byteOther_p_of_full b hFull]
    exact ⟨s.p.crcOther_tlen b, s.p.crcOther_term b, State.byteOther_pEv_of_full b hFull⟩

end Sys2Proof
end

section
/-!
PROOFS. Publication (41_term_dispatch.md, R160): `PUBLISH` by kind, that it keeps what `CRC_OK` reads, and that a second
`PUBLISH` finds its work done.
-/
namespace Sys2Proof.Machine

/-! ### PUBLISH -/

theorem State.publish_of_gga {s : State} (h : s.p.kind = .gga) :
    s.publish = (s.withFix { s.fix with gga := s.p.s.gga }).withEv .pubGga := by
  simp [State.publish, h]

theorem State.publish_of_rmc {s : State} (h : s.p.kind = .rmc) :
    s.publish = (s.withFix { s.fix with rmc := s.p.s.rmc }).withEv .pubRmc := by
  simp [State.publish, h]

theorem State.publish_of_unknown {s : State} (h : s.p.kind = .unknown) : s.publish = s.withEv .dropUnknown := by
  simp [State.publish, h]

@[simp] theorem State.publish_spanning (s : State) : s.publish.spanning = s.spanning := by
  obtain ⟨-, -, -, hSpanning, -⟩ := s.publish_outside
  exact hSpanning

@[simp] theorem State.publish_cfg (s : State) : s.publish.cfg = s.cfg := by
  obtain ⟨-, -, -, -, -, -, hCfg, -⟩ := s.publish_outside
  exact hCfg

@[simp] theorem State.publish_crcOk (s : State) : s.publish.crcOk = s.crcOk := by
  simp [State.crcOk]

/-- The second `PUBLISH` writes the group and the event that already stand there (R160). -/
@[simp] theorem State.publish_publish (s : State) : s.publish.publish = s.publish := by
  obtain ⟨hKind, h⟩ | ⟨hKind, h⟩ | ⟨hKind, h⟩ := s.publish_cases
  · rw [State.publish_of_gga (s := s.publish) (by simpa using hKind), h]; rfl
  · rw [State.publish_of_rmc (s := s.publish) (by simpa using hKind), h]; rfl
  · rw [State.publish_of_unknown (s := s.publish) (by simpa using hKind), h]; rfl

/-! ### PB_CR -/

theorem exec_pbCr {s : State} (h : s.spanning = none) : exec .pbCr s = .next s.byteCr := serially_none h

theorem State.byteCr_of_match {s : State} (h : s.crcOk = true) : s.byteCr = s.publish := if_pos h

theorem exec_pbCr_of_match {s : State} (hIdle : s.spanning = none) (hMatch : s.crcOk = true) :
    exec .pbCr s = .next s.publish := by
  rw [exec_pbCr hIdle, State.byteCr_of_match hMatch]

end Sys2Proof.Machine

namespace Sys2Proof

open Machine

/-- Settles O14: on a match `PB_CR` is `PUBLISH`, whose three cases give the groups and the events, and which is
idempotent and leaves `CRC_OK` as it was. -/
theorem publicationReplacesOneWholeGroup : Obligations.PublicationReplacesOneWholeGroup := by
  intro s hIdle hMatch
  refine ⟨s.publish, exec_pbCr_of_match hIdle hMatch, s.publish_p, s.publish_outside, fun hKind => ?gga,
    fun hKind => ?rmc, fun hKind => ?unknown, ?again⟩
  case gga => rw [State.publish_of_gga hKind]; exact ⟨rfl, rfl, rfl⟩
  case rmc => rw [State.publish_of_rmc hKind]; exact ⟨rfl, rfl, rfl⟩
  case unknown => rw [State.publish_of_unknown hKind]; exact ⟨rfl, rfl⟩
  case again => rw [exec_pbCr_of_match (by simpa using hIdle) (by simpa using hMatch), State.publish_publish]

end Sys2Proof
end

section
/-!
PROOFS. The dispatch key (30_encoding.md, R97): what each kind's half of the key table answers, and which keys are left to
the default row `T_NONE` (41_term_dispatch.md, R159).
-/
namespace Sys2Proof

@[simp] theorem decode_term (key : Key) : decode (.term key) = .ok (decodeTerm key) := rfl

@[simp] theorem kindBits_makeKey (kind : BitVec 2) (tidx : Byte) : Key.kindBits (makeKey kind tidx) = kind :=
  BitVec.extractLsb'_append_eq_left

@[simp] theorem indexBits_makeKey (kind : BitVec 2) (tidx : Byte) : Key.indexBits (makeKey kind tidx) = tidx :=
  BitVec.extractLsb'_append_eq_right

open Machine

theorem decodeTerm_unknown {tidx : Byte} (h : tidx ≠ 0) :
    decodeTerm (makeKey Kind.unknown.code tidx) = .tNone Kind.unknown.code tidx := by
  rw [decodeTerm, indexBits_makeKey, if_neg h, kindBits_makeKey]; rfl

theorem decodeTerm_gga {tidx : Byte} (h : tidx ≠ 0) : decodeTerm (makeKey Kind.gga.code tidx) = decodeGga tidx := by
  rw [decodeTerm, indexBits_makeKey, if_neg h, kindBits_makeKey]; rfl

theorem decodeTerm_rmc {tidx : Byte} (h : tidx ≠ 0) : decodeTerm (makeKey Kind.rmc.code tidx) = decodeRmc tidx := by
  rw [decodeTerm, indexBits_makeKey, if_neg h, kindBits_makeKey]; rfl

/-- The gaps of the GGA field table above index 0 (R95). -/
theorem decodeGga_eq_tNone_iff {tidx : Byte} (h : tidx ≠ 0) :
    decodeGga tidx = .tNone Kind.gga.code tidx ↔ tidx = 8 ∨ tidx = 10 ∨ 12 ≤ tidx.toNat := by
  unfold decodeGga
  split
  case h_10 =>
    simp only [imp_false] at *
    exact iff_of_true rfl (by bv_omega)
  all_goals exact iff_of_false (by simp) (by bv_omega)

/-- The gaps of the RMC field table above index 0 (R96). -/
theorem decodeRmc_eq_tNone_iff {tidx : Byte} (h : tidx ≠ 0) :
    decodeRmc tidx = .tNone Kind.rmc.code tidx ↔
      tidx = 1 ∨ tidx = 3 ∨ tidx = 4 ∨ tidx = 5 ∨ tidx = 6 ∨ 12 ≤ tidx.toNat := by
  unfold decodeRmc
  split
  case h_7 =>
    simp only [imp_false] at *
    exact iff_of_true rfl (by bv_omega)
  all_goals exact iff_of_false (by simp) (by bv_omega)

theorem exec_tNone (kind : BitVec 2) (tidx : Byte) (s : State) : exec (.tNone kind tidx) s = .next s := rfl

/-- Settles O28: kind Unknown has no row of its own above index 0, and the other two kinds leave the gaps of their
field tables. -/
theorem unlistedTermsAreIgnored : Obligations.UnlistedTermsAreIgnored := by
  refine ⟨fun kind tidx hIndex => ?_, exec_tNone⟩
  rw [decode_term, Except.ok.injEq]
  cases kind with
  | unknown => simp [decodeTerm_unknown hIndex]
  | gga => simpa [decodeTerm_gga hIndex] using (decodeGga_eq_tNone_iff hIndex).symm
  | rmc => simpa [decodeTerm_rmc hIndex] using (decodeRmc_eq_tNone_iff hIndex).symm

end Sys2Proof
end

section
/-!
PROOFS. The failed carriage return (40_parser_bytes.md, R128; 43_crc_validator.md, R195): on a mismatch `PB_CR` writes the
event output only, and `PB_DOLLAR` writes that output again without reading it.
-/
namespace Sys2Proof.Machine

theorem State.byteCr_of_mismatch {s : State} (h : s.crcOk = false) : s.byteCr = s.withEv .dropCrc :=
  if_neg (by simp [h])

theorem exec_pbCr_of_mismatch {s : State} (hIdle : s.spanning = none) (hMismatch : s.crcOk = false) :
    exec .pbCr s = .next (s.withEv .dropCrc) := by
  rw [exec_pbCr hIdle, State.byteCr_of_mismatch hMismatch]

/-- `PB_DOLLAR` forgets the event that stood there before it (R125). -/
@[simp] theorem State.byteDollar_withEv (s : State) (e : Event) : (s.withEv e).byteDollar = s.byteDollar := rfl

/-- After an operation that completes, a sequence goes on from the state it reached. -/
theorem execAll_cons_of_next {i : Instr} {s t : State} (is : List Instr) (h : exec i s = .next t) :
    execAll (i :: is) s = execAll is t := by
  simp [execAll, h]

theorem execAll_singleton_of_next {i : Instr} {s t : State} (h : exec i s = .next t) : execAll [i] s = .next t :=
  execAll_cons_of_next [] h

end Sys2Proof.Machine

namespace Sys2Proof

open Machine

/-- Settles O15: the failed `PB_CR` leaves the event behind and nothing else, and the next `PB_DOLLAR` overwrites that
event. -/
theorem mismatchIsNotRemembered : Obligations.MismatchIsNotRemembered := by
  intro s hIdle hMismatch
  have hCr : exec .pbCr s = .next (s.withEv .dropCrc) := exec_pbCr_of_mismatch hIdle hMismatch
  have hIdleAfter : (s.withEv .dropCrc).spanning = none := hIdle
  refine ⟨hCr, ?next, s.byteDollar, exec_pbDollar hIdle, s.byteDollar_fix⟩
  calc execAll [.pbCr, .pbDollar] s
      = execAll [.pbDollar] (s.withEv .dropCrc) := execAll_cons_of_next _ hCr
    _ = .next (s.withEv .dropCrc).byteDollar := execAll_singleton_of_next (exec_pbDollar hIdleAfter)
    _ = .next s.byteDollar := by rw [State.byteDollar_withEv]
    _ = exec .pbDollar s := (exec_pbDollar hIdle).symm

end Sys2Proof
end

section
/-!
PROOFS. The ring's two transfers (44_ring_buffer.md, R205 and R206): the flags as sizes (R25, R208), then what a write and
a read of `k` bytes do to the cells, the cursors and the sizes.
-/
namespace Sys2Proof.Machine

/-! ### The flags as sizes -/

theorem State.occ_add_free (s : State) : s.occ + s.free = s.cfg.C - 1 := occupancy_add_free s.cfg.C_pos

/-- Each flag is an equation of the cursors (R25), and the size it speaks of is 0 (R208). -/
theorem State.empty_iff_occ {s : State} (hr : s.rb.r < s.cfg.C) (hw : s.rb.w < s.cfg.C) :
    s.empty = true ↔ s.occ = 0 := by
  rw [State.empty, beq_iff_eq, State.occ, occupancy_eq hr hw]
  split <;> omega

theorem State.full_iff_free {s : State} (hr : s.rb.r < s.cfg.C) (hw : s.rb.w < s.cfg.C) :
    s.full = true ↔ s.free = 0 := by
  have hOne : 1 < s.cfg.C := s.cfg.C_ge
  rw [State.full, beq_iff_eq, mod_step hw hOne, State.free, freeSpace, occupancy_eq hr hw]
  split_ifs <;> omega

/-! ### A write of `k` bytes -/

/-- The first `k` bytes stored and the write cursor moved on by `k` (R205); the counterpart of `State.advanceRead`. -/
def State.storeAndAdvance (s : State) (data : List Byte) (k : Nat) : State := s.withRb (s.writeRing k data)

theorem exec_rbWrite {s : State} (data : List Byte) (h : s.writing = none) :
    exec (.rbWrite data) s = .next ((s.storeAndAdvance data (min data.length s.free)).withProdOut
      ⟨min data.length s.free, []⟩) :=
  ifNotWriting_none h

@[simp] theorem State.storeAndAdvance_cfg (s : State) (data : List Byte) (k : Nat) :
    (s.storeAndAdvance data k).cfg = s.cfg := rfl

theorem State.storeAndAdvance_w_lt (s : State) (data : List Byte) (k : Nat) :
    (s.storeAndAdvance data k).rb.w < (s.storeAndAdvance data k).cfg.C :=
  Nat.mod_lt _ s.cfg.C_pos

/-- At most `C` bytes go to different cells, so each is still there at the end (R62, R63). -/
theorem State.storeAndAdvance_cell {s : State} {data : List Byte} {k i : Nat} (hLength : k ≤ data.length)
    (hk : k ≤ s.cfg.C) (hi : i < k) :
    (s.storeAndAdvance data k).cell ((s.rb.w + i) % s.cfg.C) = charAt data i := by
  have hData : i < data.length := hi.trans_le hLength
  have hTake : (data.take k).length = k := List.length_take_of_le hLength
  apply State.cell_of_read?
  calc Memory.read? (Memory.store s.cfg.C s.rb.mem s.rb.w (data.take k)) ((s.rb.w + i) % s.cfg.C)
      = (data.take k)[i]? := Memory.read?_store _ (hTake.trans_le hk) _ _ _ (hi.trans_eq hTake.symm)
    _ = some (charAt data i) := by simp [hi, hData, charAt]

theorem State.storeAndAdvance_cell_other {s : State} {data : List Byte} {k a : Nat}
    (ha : ∀ i < k, a ≠ (s.rb.w + i) % s.cfg.C) : (s.storeAndAdvance data k).cell a = s.cell a := by
  have hRead : Memory.read? (Memory.store s.cfg.C s.rb.mem s.rb.w (data.take k)) a = Memory.read? s.rb.mem a :=
    Memory.read?_store_other _ _ _ _ fun i hi => ha i (hi.trans_le (List.length_take_le k data))
  exact congrArg (·.getD (Config.unwrittenCell s.epoch a)) hRead

theorem State.storeAndAdvance_zero {s : State} (data : List Byte) (hw : s.rb.w < s.cfg.C) :
    (s.storeAndAdvance data 0).rb = s.rb := by
  simp [State.storeAndAdvance, State.writeRing, Nat.mod_eq_of_lt hw]

theorem State.storeAndAdvance_occ {s : State} {data : List Byte} {k : Nat} (hr : s.rb.r < s.cfg.C)
    (hw : s.rb.w < s.cfg.C) (hk : k ≤ s.free) : (s.storeAndAdvance data k).occ = s.occ + k := by
  have hSizes := s.occ_add_free
  have hFits : s.occ + k < s.cfg.C := by omega
  exact occupancy_write hr hw hFits

theorem State.storeAndAdvance_free {s : State} {data : List Byte} {k : Nat} (hr : s.rb.r < s.cfg.C)
    (hw : s.rb.w < s.cfg.C) (hk : k ≤ s.free) : (s.storeAndAdvance data k).free = s.free - k := by
  have hBefore := s.occ_add_free
  have hAfter := (s.storeAndAdvance data k).occ_add_free
  rw [State.storeAndAdvance_occ hr hw hk, State.storeAndAdvance_cfg] at hAfter
  omega

theorem State.storeAndAdvance_empty_eq_false {s : State} {data : List Byte} {k : Nat} (hr : s.rb.r < s.cfg.C)
    (hw : s.rb.w < s.cfg.C) (hk : k ≤ s.free) (hPos : 0 < k) : (s.storeAndAdvance data k).empty = false := by
  rw [Bool.eq_false_iff, Ne, State.empty_iff_occ (s := s.storeAndAdvance data k) hr (s.storeAndAdvance_w_lt data k),
    State.storeAndAdvance_occ hr hw hk]
  omega

theorem State.storeAndAdvance_full_iff {s : State} {data : List Byte} {k : Nat} (hr : s.rb.r < s.cfg.C)
    (hw : s.rb.w < s.cfg.C) (hk : k ≤ s.free) : (s.storeAndAdvance data k).full = true ↔ k = s.free := by
  rw [State.full_iff_free (s := s.storeAndAdvance data k) hr (s.storeAndAdvance_w_lt data k),
    State.storeAndAdvance_free hr hw hk]
  omega

/-! ### A read of `k` bytes -/

theorem exec_rbRead {s : State} (n : Nat) (h : s.reading = none) :
    exec (.rbRead n) s = .next ((s.advanceRead (min n s.occ)).withConsOut
      ⟨min n s.occ, s.load s.rb.r (min n s.occ)⟩) :=
  ifNotReading_none h

@[simp] theorem State.advanceRead_cfg (s : State) (k : Nat) : (s.advanceRead k).cfg = s.cfg := rfl

theorem State.advanceRead_r_lt (s : State) (k : Nat) : (s.advanceRead k).rb.r < (s.advanceRead k).cfg.C :=
  Nat.mod_lt _ s.cfg.C_pos

theorem State.charAt_load {s : State} {c k i : Nat} (h : i < k) :
    charAt (s.load c k) i = s.cell ((c + i) % s.cfg.C) := by
  rw [charAt, List.getD_eq_getElem?_getD, State.load_getElem? s c k i h, Option.getD_some]

theorem State.advanceRead_zero {s : State} (hr : s.rb.r < s.cfg.C) : (s.advanceRead 0).rb = s.rb := by
  simp [State.advanceRead, Nat.mod_eq_of_lt hr]

theorem State.advanceRead_occ {s : State} {k : Nat} (hr : s.rb.r < s.cfg.C) (hw : s.rb.w < s.cfg.C)
    (hk : k ≤ s.occ) : (s.advanceRead k).occ = s.occ - k :=
  occupancy_read hr hw hk

theorem State.advanceRead_free {s : State} {k : Nat} (hr : s.rb.r < s.cfg.C) (hw : s.rb.w < s.cfg.C)
    (hk : k ≤ s.occ) : (s.advanceRead k).free = s.free + k := by
  have hBefore := s.occ_add_free
  have hAfter := (s.advanceRead k).occ_add_free
  rw [State.advanceRead_occ hr hw hk, State.advanceRead_cfg] at hAfter
  omega

theorem State.advanceRead_full_eq_false {s : State} {k : Nat} (hr : s.rb.r < s.cfg.C) (hw : s.rb.w < s.cfg.C)
    (hk : k ≤ s.occ) (hPos : 0 < k) : (s.advanceRead k).full = false := by
  rw [Bool.eq_false_iff, Ne, State.full_iff_free (s := s.advanceRead k) (s.advanceRead_r_lt k) hw,
    State.advanceRead_free hr hw hk]
  omega

theorem State.advanceRead_empty_iff {s : State} {k : Nat} (hr : s.rb.r < s.cfg.C) (hw : s.rb.w < s.cfg.C)
    (hk : k ≤ s.occ) : (s.advanceRead k).empty = true ↔ k = s.occ := by
  rw [State.empty_iff_occ (s := s.advanceRead k) (s.advanceRead_r_lt k) hw, State.advanceRead_occ hr hw hk]
  omega

end Sys2Proof.Machine

namespace Sys2Proof

open Machine

/-- Settles O44: the count is below `C`, so the bytes go to different cells; the occupancy grows by the count and the
free space shrinks by it, which gives the flags. -/
theorem writeStoresTheBytesThatFit : Obligations.WriteStoresTheBytesThatFit := by
  intro s data hIdle hr hw
  have hLength : min data.length s.free ≤ data.length := Nat.min_le_left _ _
  have hFree : min data.length s.free ≤ s.free := Nat.min_le_right _ _
  have hCapacity : min data.length s.free ≤ s.cfg.C := by have := s.occ_add_free; omega
  refine ⟨_, _, exec_rbWrite data hIdle, rfl, rfl, fun i hi => ?stored, fun a ha => ?kept, rfl, rfl,
    fun hPos => ?empty, ?full, fun hZero => ?nothing, ⟨rfl, rfl, rfl, rfl, rfl, rfl, rfl⟩, hIdle, rfl, rfl⟩
  case stored => exact State.storeAndAdvance_cell hLength hCapacity hi
  case kept => exact State.storeAndAdvance_cell_other ha
  case empty => exact State.storeAndAdvance_empty_eq_false hr hw hFree hPos
  case full => exact State.storeAndAdvance_full_iff hr hw hFree
  case nothing => rw [hZero]; exact State.storeAndAdvance_zero data hw

/-- Settles O45: the bytes are a load from the read cursor; the occupancy shrinks by the count and the free space grows
by it, which gives the flags. -/
theorem readReturnsTheOldestBytes : Obligations.ReadReturnsTheOldestBytes := by
  intro s n hIdle hr hw
  have hOcc : min n s.occ ≤ s.occ := Nat.min_le_right _ _
  refine ⟨_, _, exec_rbRead n hIdle, rfl, rfl, s.load_length _ _, fun i hi => State.charAt_load hi, rfl, rfl, rfl,
    fun hPos => ?full, ?empty, fun hZero => ?nothing, ⟨rfl, rfl, rfl, rfl, rfl, rfl, rfl⟩, rfl, hIdle, rfl⟩
  case full => exact State.advanceRead_full_eq_false hr hw hOcc hPos
  case empty => exact State.advanceRead_empty_iff hr hw hOcc
  case nothing => rw [hZero]; exact State.advanceRead_zero hr

end Sys2Proof
end

section
/-!
PROOFS. Encoding and decoding (30_encoding.md sections 1, 2, 5): the encoder inverts the decoder on every row, and the
decoder inverts the encoder but for operands a command ignores and the kind bits of `T_ID`.
-/
namespace Sys2Proof

theorem isSpecialByte_eq_false_iff {b : Byte} :
    isSpecialByte b = false ↔ b ≠ 0x24 ∧ b ≠ 0x2C ∧ b ≠ 0x2A ∧ b ≠ 0x0D := by
  simp [isSpecialByte, and_assoc]

/-! ### The key table -/

theorem decodeGga_of_not_mem : ∀ {tidx : Byte}, tidx ∉ ggaIndices → decodeGga tidx = .tNone 1 tidx := by decide

theorem decodeRmc_of_not_mem : ∀ {tidx : Byte}, tidx ∉ rmcIndices → decodeRmc tidx = .tNone 2 tidx := by decide

theorem selectsNothing_iff {kind : BitVec 2} {tidx : Byte} :
    selectsNothing kind tidx = true ↔
      tidx ≠ 0 ∧ (kind = 1 → tidx ∉ ggaIndices) ∧ (kind = 2 → tidx ∉ rmcIndices) := by
  simp [selectsNothing, and_assoc, imp_iff_not_or]

/-- A key that no other row matches decodes to the default row (R97, R117). -/
theorem decodeTerm_of_selectsNothing {kind : BitVec 2} {tidx : Byte} (h : selectsNothing kind tidx = true) :
    decodeTerm (makeKey kind tidx) = .tNone kind tidx := by
  obtain ⟨hIndex, hGga, hRmc⟩ := selectsNothing_iff.1 h
  rw [decodeTerm, indexBits_makeKey, kindBits_makeKey, if_neg hIndex]
  split
  case h_1 hKind =>
    obtain rfl : kind = 1 := BitVec.eq_of_toNat_eq hKind
    exact decodeGga_of_not_mem (hGga rfl)
  case h_2 hKind =>
    obtain rfl : kind = 2 := BitVec.eq_of_toNat_eq hKind
    exact decodeRmc_of_not_mem (hRmc rfl)
  case h_3 => rfl

/-- Settles O1: by the row of the operation; only `PB_OTHER` and `T_NONE` use that the operand is one its encoding
admits. -/
theorem decodeOfEncodeIsTheOperation : Obligations.DecodeOfEncodeIsTheOperation := by
  intro i hWf
  cases i with
  | pbOther b =>
    obtain ⟨hDollar, hComma, hStar, hCr⟩ := isSpecialByte_eq_false_iff.1 (by simpa [Instr.wf] using hWf)
    exact congrArg Except.ok (decodeByte_of_not_special hDollar hComma hStar hCr)
  | tNone kind tidx => exact congrArg Except.ok (decodeTerm_of_selectsNothing hWf)
  | pProcess bytes => simp [encode, decode, decodeParser]
  | rbWrite data => simp [encode, decode, decodeRing, decodeWrite]
  | _ => rfl

end Sys2Proof
end

section
/-!
PROOFS. What decodes and what does not (30_encoding.md sections 1, 2, 5, 6): one equation per command of the two command
ports, from which the rejections and the table's rows follow.
-/
namespace Sys2Proof

/-! ### The command ports, row by row -/

theorem parserCommand_cases : ∀ cmd : BitVec 2, cmd = 0#2 ∨ cmd = 1#2 ∨ cmd = 2#2 ∨ cmd = 3#2 := by decide

theorem ringCommand_cases : ∀ cmd : BitVec 3,
    cmd = 0#3 ∨ cmd = 1#3 ∨ cmd = 2#3 ∨ cmd = 3#3 ∨ cmd = 4#3 ∨ cmd = 5#3 ∨ cmd = 6#3 ∨ cmd = 7#3 := by decide

section
variable (b : Byte) (bytes : List Byte) (len : Nat)

@[simp] theorem decodeParser_nop : decodeParser 0#2 b bytes len = .ok .pNop := rfl
@[simp] theorem decodeParser_init : decodeParser 1#2 b bytes len = .ok .pInit := rfl
@[simp] theorem decodeParser_pb : decodeParser 2#2 b bytes len = .ok (.pb b) := rfl
@[simp] theorem decodeParser_process : decodeParser 3#2 b bytes len =
    if bytes.length < len then .error .dataShorterThanCount else .ok (.pProcess (bytes.take len)) := rfl

end

section
variable (port : Agent) (n skip : Nat) (data : List Byte)

@[simp] theorem decodeRing_init : decodeRing port 0#3 n skip data = .ok (.rbInit port) := rfl
@[simp] theorem decodeRing_reset : decodeRing port 1#3 n skip data = .ok (.rbReset port) := rfl
@[simp] theorem decodeRing_write : decodeRing port 2#3 n skip data = decodeWrite port n data := rfl
@[simp] theorem decodeRing_read : decodeRing port 3#3 n skip data = decodeConsumers port (.rbRead n) := rfl
@[simp] theorem decodeRing_peek : decodeRing port 4#3 n skip data = decodeConsumers port (.rbPeek skip n) := rfl
@[simp] theorem decodeRing_free : decodeRing port 5#3 n skip data = .ok (.rbFree port) := rfl
@[simp] theorem decodeRing_occ : decodeRing port 6#3 n skip data = .ok (.rbOcc port) := rfl
@[simp] theorem decodeRing_reserved : decodeRing port 7#3 n skip data = .ok (.rbRsvd7 port) := rfl

end

/-! ### Rejections -/

theorem decodeParser_eq_error_iff {cmd : BitVec 2} {b : Byte} {bytes : List Byte} {len : Nat} {why : DecodeReject} :
    decodeParser cmd b bytes len = .error why ↔
      why = .dataShorterThanCount ∧ cmd = 3 ∧ bytes.length < len := by
  obtain rfl | rfl | rfl | rfl := parserCommand_cases cmd
  case inr.inr.inr => rw [decodeParser_process]; split <;> simp_all [eq_comm]
  all_goals simp

theorem decodeRing_eq_error_iff {port : Agent} {cmd : BitVec 3} {n skip : Nat} {data : List Byte}
    {why : DecodeReject} :
    decodeRing port cmd n skip data = .error why ↔
      (why = .writeIsTheProducers ∧ port = .consumer ∧ cmd = 2) ∨
      (why = .readIsTheConsumers ∧ port = .producer ∧ (cmd = 3 ∨ cmd = 4)) ∨
      (why = .dataShorterThanCount ∧ port = .producer ∧ cmd = 2 ∧ data.length < n) := by
  obtain rfl | rfl | rfl | rfl | rfl | rfl | rfl | rfl := ringCommand_cases cmd
  case inr.inr.inl =>
    cases port
    · rw [decodeRing_write, decodeWrite]; split <;> simp_all [eq_comm]
    · simp [decodeWrite, eq_comm]
  case inr.inr.inr.inl => cases port <;> simp [decodeConsumers, eq_comm]
  case inr.inr.inr.inr.inl => cases port <;> simp [decodeConsumers, eq_comm]
  all_goals simp

/-! ### Rows -/

theorem isSpecialByte_iff {b : Byte} : isSpecialByte b = true ↔ b ∈ ([0x24, 0x2C, 0x2A, 0x0D] : List Byte) := by
  simp [isSpecialByte, or_assoc]

theorem specialByte_row : ∀ b ∈ ([0x24, 0x2C, 0x2A, 0x0D] : List Byte),
    (decodeByte b).wf = true ∧ tableMnemonic .byte (b.setWidth 10) = some (decodeByte b).mnemonic := by decide

theorem decodeByte_row (b : Byte) :
    (decodeByte b).wf = true ∧ tableMnemonic .byte (b.setWidth 10) = some (decodeByte b).mnemonic := by
  by_cases hSpecial : isSpecialByte b = true
  · exact specialByte_row b (isSpecialByte_iff.1 hSpecial)
  · have hPlain : isSpecialByte b = false := by simpa using hSpecial
    obtain ⟨hDollar, hComma, hStar, hCr⟩ := isSpecialByte_eq_false_iff.1 hPlain
    rw [decodeByte_of_not_special hDollar hComma hStar hCr]
    exact ⟨by simp [Instr.wf, hPlain], Laws.TableRow.other_byte_row b hPlain⟩

theorem identifierKey_row : ∀ kind : BitVec 2, (decodeTerm (makeKey kind 0)).wf = true ∧
    tableMnemonic .term (makeKey kind 0) = some (decodeTerm (makeKey kind 0)).mnemonic := by decide

theorem ggaKey_row : ∀ tidx ∈ ggaIndices, (decodeTerm (makeKey 1 tidx)).wf = true ∧
    tableMnemonic .term (makeKey 1 tidx) = some (decodeTerm (makeKey 1 tidx)).mnemonic := by decide

theorem rmcKey_row : ∀ tidx ∈ rmcIndices, (decodeTerm (makeKey 2 tidx)).wf = true ∧
    tableMnemonic .term (makeKey 2 tidx) = some (decodeTerm (makeKey 2 tidx)).mnemonic := by decide

theorem makeKey_bits (key : Key) : makeKey (Key.kindBits key) (Key.indexBits key) = key := by
  unfold makeKey Key.kindBits Key.indexBits
  rw [BitVec.extractLsb'_append_extractLsb'_eq_extractLsb' (by rfl), BitVec.extractLsb'_eq_self]

theorem decodeTerm_row (key : Key) :
    (decodeTerm key).wf = true ∧ tableMnemonic .term key = some (decodeTerm key).mnemonic := by
  rw [← makeKey_bits key]
  generalize Key.kindBits key = kind
  generalize Key.indexBits key = tidx
  by_cases hNone : selectsNothing kind tidx = true
  · rw [decodeTerm_of_selectsNothing hNone]
    exact ⟨hNone, Laws.TableRow.default_key_row kind tidx hNone⟩
  · have hListed : tidx = 0 ∨ (kind = 1 ∧ tidx ∈ ggaIndices) ∨ (kind = 2 ∧ tidx ∈ rmcIndices) := by
      rw [selectsNothing_iff] at hNone
      tauto
    obtain rfl | ⟨rfl, hGga⟩ | ⟨rfl, hRmc⟩ := hListed
    · exact identifierKey_row kind
    · exact ggaKey_row tidx hGga
    · exact rmcKey_row tidx hRmc

theorem decodeParser_row {cmd : BitVec 2} {b : Byte} {bytes : List Byte} {len : Nat} {i : Instr}
    (h : decodeParser cmd b bytes len = .ok i) :
    i.wf = true ∧ tableMnemonic .pcmd (cmd.setWidth 10) = some i.mnemonic := by
  obtain rfl | rfl | rfl | rfl := parserCommand_cases cmd
  · cases h; exact ⟨rfl, Laws.TableRow.pNop rfl⟩
  · cases h; exact ⟨rfl, Laws.TableRow.pInit rfl⟩
  · cases h; exact ⟨rfl, Laws.TableRow.pb b rfl⟩
  · rw [decodeParser_process] at h
    split at h
    · cases h
    · cases h; exact ⟨rfl, Laws.TableRow.pProcess _ rfl⟩

theorem decodeWrite_eq_ok_iff {port : Agent} {n : Nat} {data : List Byte} {i : Instr} :
    decodeWrite port n data = .ok i ↔ port = .producer ∧ n ≤ data.length ∧ i = .rbWrite (data.take n) := by
  cases port
  · rw [decodeWrite]; split <;> simp_all [eq_comm]
  · simp [decodeWrite]

theorem decodeConsumers_eq_ok_iff {port : Agent} {i j : Instr} :
    decodeConsumers port i = .ok j ↔ port = .consumer ∧ j = i := by
  cases port <;> simp [decodeConsumers, eq_comm]

theorem decodeRing_row {port : Agent} {cmd : BitVec 3} {n skip : Nat} {data : List Byte} {i : Instr}
    (h : decodeRing port cmd n skip data = .ok i) :
    i.wf = true ∧ tableMnemonic .rbcmd (cmd.setWidth 10) = some i.mnemonic := by
  obtain rfl | rfl | rfl | rfl | rfl | rfl | rfl | rfl := ringCommand_cases cmd
  · cases h; exact ⟨rfl, Laws.TableRow.rbInit port rfl⟩
  · cases h; exact ⟨rfl, Laws.TableRow.rbReset port rfl⟩
  · obtain ⟨-, -, rfl⟩ := decodeWrite_eq_ok_iff.1 h; exact ⟨rfl, Laws.TableRow.rbWrite _ rfl⟩
  · obtain ⟨-, rfl⟩ := decodeConsumers_eq_ok_iff.1 h; exact ⟨rfl, Laws.TableRow.rbRead n rfl⟩
  · obtain ⟨-, rfl⟩ := decodeConsumers_eq_ok_iff.1 h; exact ⟨rfl, Laws.TableRow.rbPeek skip n rfl⟩
  · cases h; exact ⟨rfl, Laws.TableRow.rbFree port rfl⟩
  · cases h; exact ⟨rfl, Laws.TableRow.rbOcc port rfl⟩
  · cases h; exact ⟨rfl, Laws.TableRow.rbRsvd7 port rfl⟩

/-- Whatever decodes is well formed and stands in the row of its selector (R117). -/
theorem decode_row {t : Transaction} {i : Instr} (h : decode t = .ok i) :
    i.wf = true ∧ tableMnemonic t.format t.selector = some i.mnemonic := by
  cases t with
  | byte b => cases h; exact decodeByte_row b
  | parser cmd b bytes len => exact decodeParser_row h
  | ring port cmd n skip data => exact decodeRing_row h
  | term key => cases h; exact decodeTerm_row key

theorem decode_eq_error_iff {t : Transaction} {why : DecodeReject} :
    decode t = .error why ↔
      (why = .writeIsTheProducers ∧ ∃ n skip data, t = .ring .consumer 2 n skip data) ∨
      (why = .readIsTheConsumers ∧ ∃ n skip data,
        t = .ring .producer 3 n skip data ∨ t = .ring .producer 4 n skip data) ∨
      (why = .dataShorterThanCount ∧
        ((∃ n skip data, t = .ring .producer 2 n skip data ∧ data.length < n) ∨
         (∃ b bytes len, t = .parser 3 b bytes len ∧ bytes.length < len))) := by
  cases t with
  | byte b => simp
  | term key => simp
  | parser cmd b bytes len =>
    rw [decode, decodeParser_eq_error_iff]
    aesop
  | ring port cmd n skip data =>
    rw [decode, decodeRing_eq_error_iff]
    aesop

/-- Settles O2: the rows of the decoder one by one, and its three ways to reject. -/
theorem decodedOperationIsItsTableRow : Obligations.DecodedOperationIsItsTableRow :=
  ⟨fun _ _ => decode_row, fun _ _ => decode_eq_error_iff⟩

/-- Settles O4: each selector by evaluation of the decoder. -/
theorem selectorsOfTheTablesDecode : Obligations.SelectorsOfTheTablesDecode := by
  unfold Obligations.SelectorsOfTheTablesDecode
  decide

end Sys2Proof
end

section
/-!
PROOFS. One step (20_memory.md, R70, R77; log 1): what each entry of the schedule runs, and what a step that goes on can
have been.
-/
namespace Sys2Proof.Machine

theorem step_of_nil {s : State} (h : s.sched = []) : step s = .next s := by simp [step, h]

theorem step_of_cons {s : State} {input : Input} {rest : List Input} (h : s.sched = input :: rest) :
    step s = act input (s.withSched rest) := by simp [step, h]

theorem step_of_present {s : State} {tr : Transaction} {rest : List Input} {i : Instr}
    (h : s.sched = .present tr :: rest) (hi : decode tr = .ok i) : step s = exec i (s.withSched rest) := by
  rw [step_of_cons h, act, present, hi]

theorem step_of_rejected {s : State} {tr : Transaction} {rest : List Input} {why : DecodeReject}
    (h : s.sched = .present tr :: rest) (hi : decode tr = .error why) : step s = .refused (.rejected why) := by
  rw [step_of_cons h, act, present, hi]

theorem step_of_start {s : State} {tr : Transaction} {rest : List Input} {i : Instr}
    (h : s.sched = .start tr :: rest) (hi : decode tr = .ok i) : step s = begin i (s.withSched rest) := by
  rw [step_of_cons h, act, start, hi]

/-- What a step that goes on can have been. -/
theorem step_cases {s t : State} (h : step s = .next t) :
    (s.sched = [] ∧ t = s) ∨
    (∃ tr rest i, s.sched = .present tr :: rest ∧ decode tr = .ok i ∧ exec i (s.withSched rest) = .next t) ∨
    (∃ tr rest i, s.sched = .start tr :: rest ∧ decode tr = .ok i ∧ begin i (s.withSched rest) = .next t) ∨
    (∃ lane rest, s.sched = .advance lane :: rest ∧ advance lane (s.withSched rest) = .next t) ∨
    (∃ rest, s.sched = .hardwareReset :: rest ∧ t = (s.withSched rest).hardwareReset) := by
  cases hs : s.sched with
  | nil =>
    rw [step_of_nil hs] at h
    cases h
    exact .inl ⟨rfl, rfl⟩
  | cons input rest =>
    rw [step_of_cons hs] at h
    cases input with
    | present tr =>
      rw [act, present] at h
      split at h
      case h_1 => cases h
      case h_2 i hi => exact .inr (.inl ⟨tr, rest, i, rfl, hi, h⟩)
    | start tr =>
      rw [act, start] at h
      split at h
      case h_1 => cases h
      case h_2 i hi => exact .inr (.inr (.inl ⟨tr, rest, i, rfl, hi, h⟩))
    | advance lane => exact .inr (.inr (.inr (.inl ⟨lane, rest, rfl, h⟩)))
    | hardwareReset =>
      cases h
      exact .inr (.inr (.inr (.inr ⟨rest, rfl, rfl⟩)))

end Sys2Proof.Machine

namespace Sys2Proof

open Machine

/-- Settles O5: a presented transaction is decoded and then run or rejected. -/
theorem stepRunsThePresentedOperation : Obligations.StepRunsThePresentedOperation := fun _ =>
  ⟨step_of_nil, fun _ _ hs => ⟨fun _ hi => step_of_present hs hi, fun _ hi => step_of_rejected hs hi⟩⟩

end Sys2Proof
end

section
/-!
PROOFS. The numeric decoders (42_numeric_decoders.md): what the digit loop reads and what it leaves, the scan as its
grammar, the truncations as Euclidean division, and the widths.
-/
namespace Sys2Proof.Machine

/-! ### The head of a text -/

@[simp] theorem charAt_nil (i : Nat) : charAt [] i = Ascii.nul := rfl
@[simp] theorem charAt_cons_zero (c : Byte) (t : Text) : charAt (c :: t) 0 = c := rfl

theorem isDigit_space : isDigit Ascii.space = false := by decide
theorem isDigit_minus : isDigit Ascii.minus = false := by decide
theorem isDigit_point : isDigit Ascii.point = false := by decide

/-! ### The digit loop -/

theorem takeDigits_of_head {t : Text} (acc count : Nat) (h : ∀ c ∈ t.head?, isDigit c = false) :
    takeDigits acc count t = ⟨acc, count, t⟩ := by
  cases t with
  | nil => rfl
  | cons c cs => simp [takeDigits, h c (by simp)]

/-- The loop takes the digits and stops at the first character that is none (R98, R171). -/
theorem takeDigits_append {ds rest : Text} (hDigits : ∀ c ∈ ds, isDigit c = true)
    (hRest : ∀ c ∈ rest.head?, isDigit c = false) (acc count : Nat) :
    takeDigits acc count (ds ++ rest) =
      ⟨ds.foldl (fun a c => a * 10 + digitValue c) acc, count + ds.length, rest⟩ := by
  induction ds generalizing acc count with
  | nil => exact takeDigits_of_head acc count hRest
  | cons d ds ih =>
    rw [List.cons_append, takeDigits, if_pos (hDigits d (by simp)), ih fun c hc => hDigits c (by simp [hc])]
    simp [Nat.add_assoc, Nat.add_comm 1]

/-- `k` digits taken leave a number below `10 ^ k` times the bound it started from. -/
theorem takeDigits_bounds (t : Text) (acc count k : Nat) (hAcc : acc < 10 ^ k) :
    ∃ n, (takeDigits acc count t).acc < 10 ^ (k + n) ∧ (takeDigits acc count t).count = count + n ∧
      n + (takeDigits acc count t).rest.length = t.length := by
  induction t generalizing acc count k with
  | nil => exact ⟨0, hAcc, rfl, rfl⟩
  | cons c cs ih =>
    by_cases hDigit : isDigit c = true
    · have hValue : digitValue c < 10 := by simp [isDigit] at hDigit; simp [digitValue]; omega
      have hStep : acc * 10 + digitValue c < 10 ^ (k + 1) := by rw [Nat.pow_succ]; omega
      obtain ⟨n, hBound, hCount, hLength⟩ := ih _ (count + 1) (k + 1) hStep
      rw [takeDigits, if_pos hDigit]
      refine ⟨n + 1, ?_, by omega, by simp; omega⟩
      rwa [show k + (n + 1) = k + 1 + n by omega]
    · rw [takeDigits, if_neg hDigit]
      exact ⟨0, hAcc, rfl, by simp⟩

/-! ### The scan -/

theorem skipSpaces_of_head {t : Text} (h : ∀ c ∈ t.head?, c ≠ Ascii.space) : skipSpaces t = t := by
  cases t with
  | nil => rfl
  | cons c cs => rw [skipSpaces, if_neg (h c (by simp))]

theorem skipSpaces_replicate (n : Nat) (t : Text) : skipSpaces (List.replicate n Ascii.space ++ t) = skipSpaces t := by
  induction n with
  | zero => rfl
  | succ n ih => rw [List.replicate_succ, List.cons_append, skipSpaces, if_pos rfl, ih]

theorem skipSpaces_length_le (t : Text) : (skipSpaces t).length ≤ t.length := by
  induction t with
  | nil => exact le_rfl
  | cons c cs ih =>
    rw [skipSpaces]
    split
    · exact ih.trans (by simp)
    · exact le_rfl

theorem dropMinus_length_le (t : Text) : (dropMinus t).length ≤ t.length := by
  unfold dropMinus
  split <;> simp

theorem scan_of_minus {t : Text} {n : Nat} :
    scan (List.replicate n Ascii.space ++ Ascii.minus :: t) =
      ⟨true, (takeDigits 0 0 t).acc, (takeDigits 0 0 t).rest⟩ := by
  have hSkip : skipSpaces (Ascii.minus :: t) = Ascii.minus :: t := skipSpaces_of_head (by simp)
  simp only [scan, skipSpaces_replicate, hSkip, dropMinus, charAt_cons_zero, if_true, List.tail_cons, decide_true]

theorem scan_of_head {t : Text} {n : Nat} (h : ∀ c ∈ t.head?, c ≠ Ascii.space ∧ c ≠ Ascii.minus) :
    scan (List.replicate n Ascii.space ++ t) =
      ⟨false, (takeDigits 0 0 t).acc, (takeDigits 0 0 t).rest⟩ := by
  have hSkip : skipSpaces t = t := skipSpaces_of_head fun c hc => (h c hc).1
  have hHead : charAt t 0 ≠ Ascii.minus := by
    cases t with
    | nil => simp
    | cons c cs => exact (h c (by simp)).2
  simp only [scan, skipSpaces_replicate, hSkip, dropMinus, if_neg hHead, decide_eq_false hHead]

/-- `SCAN` reads spaces, an optional minus and digits, and stops at the first character after them (R171). -/
theorem scan_grammar {n : Nat} {neg : Bool} {ds rest : Text} (hDigits : ∀ c ∈ ds, isDigit c = true)
    (hRest : ∀ c ∈ rest.head?, isDigit c = false)
    (hBare : ds = [] → neg = false → ∀ c ∈ rest.head?, c ≠ Ascii.space ∧ c ≠ Ascii.minus) :
    scan (List.replicate n Ascii.space ++ (if neg then [Ascii.minus] else []) ++ ds ++ rest) =
      ⟨neg, digitsNumber ds, rest⟩ := by
  have hTake : takeDigits 0 0 (ds ++ rest) = ⟨digitsNumber ds, 0 + ds.length, rest⟩ :=
    takeDigits_append hDigits hRest 0 0
  cases neg with
  | true =>
    have := scan_of_minus (t := ds ++ rest) (n := n)
    simpa [hTake] using this
  | false =>
    have hHead : ∀ c ∈ (ds ++ rest).head?, c ≠ Ascii.space ∧ c ≠ Ascii.minus := by
      cases ds with
      | nil => exact hBare rfl rfl
      | cons d ds =>
        intro c hc
        obtain rfl : d = c := by simpa using hc
        have hd := hDigits d (by simp)
        constructor <;> rintro rfl
        · exact absurd hd (by rw [isDigit_space]; simp)
        · exact absurd hd (by rw [isDigit_minus]; simp)
    have := scan_of_head (n := n) hHead
    simpa [hTake] using this

/-- The magnitude has no more digits than the scan has passed characters. -/
theorem scan_bounds (t : Text) : ∃ n, (scan t).mag < 10 ^ n ∧ n + (scan t).rest.length ≤ t.length := by
  obtain ⟨n, hBound, -, hLength⟩ := takeDigits_bounds (dropMinus (skipSpaces t)) 0 0 0 (by simp)
  have := (dropMinus_length_le (skipSpaces t)).trans (skipSpaces_length_le t)
  exact ⟨n, hBound.trans_eq (by rw [Nat.zero_add]), hLength.trans_le this⟩

/-! ### The generic decimal -/

theorem decFix_of_point {t u : Text} (h : (scan t).rest = Ascii.point :: u) :
    decFix t = ⟨(scan t).neg, (takeDigits (scan t).mag 0 u).acc, (takeDigits (scan t).mag 0 u).count⟩ := by
  simp [decFix, h]

theorem decFix_of_no_point {t : Text} (h : charAt (scan t).rest 0 ≠ Ascii.point) :
    decFix t = ⟨(scan t).neg, (scan t).mag, 0⟩ := if_neg h

/-- A text of `n` characters has a raw value below `10 ^ n` and, but for the point, a fraction within it (R183). -/
theorem decFix_bounds (t : Text) : (decFix t).mag < 10 ^ t.length ∧ (decFix t).frac ≤ t.length - 1 := by
  obtain ⟨n, hMag, hLength⟩ := scan_bounds t
  by_cases hPoint : charAt (scan t).rest 0 = Ascii.point
  · cases hRest : (scan t).rest with
    | nil => simp [hRest] at hPoint
    | cons c u =>
      obtain rfl : c = Ascii.point := by simpa [hRest] using hPoint
      obtain ⟨m, hBound, hCount, hTaken⟩ := takeDigits_bounds u (scan t).mag 0 n hMag
      rw [decFix_of_point hRest]
      have hTotal : n + (u.length + 1) ≤ t.length := by simpa [hRest] using hLength
      exact ⟨hBound.trans_le (Nat.pow_le_pow_right (by omega) (by omega)), by simp [hCount]; omega⟩
  · rw [decFix_of_no_point hPoint]
    exact ⟨hMag.trans_le (Nat.pow_le_pow_right (by omega) (by omega)), Nat.zero_le _⟩

/-! ### Signs and truncation -/

@[simp] theorem natAbs_signed (neg : Bool) (m : Nat) : (signed neg m).natAbs = m := by
  cases neg <;> simp [signed]

theorem signed_nonpos (m : Nat) : signed true m ≤ 0 := by simp [signed]

theorem signed_nonneg (m : Nat) : 0 ≤ signed false m := by simp [signed]

theorem signed_sign (neg : Bool) (m : Nat) : (neg = true → signed neg m ≤ 0) ∧ (neg = false → 0 ≤ signed neg m) :=
  ⟨fun h => h ▸ signed_nonpos m, fun h => h ▸ signed_nonneg m⟩

@[simp] theorem natAbs_decInt (t : Text) : (decInt t).natAbs = (scan t).mag := natAbs_signed _ _

@[simp] theorem natAbs_decDec (t : Text) : (decDec t).natAbs = decimalMagnitude (decFix t).mag (decFix t).frac :=
  natAbs_signed _ _

@[simp] theorem natAbs_decDmm (t : Text) : (decDmm t).natAbs = dmmMagnitude (decFix t).mag (decFix t).frac :=
  natAbs_signed _ _

/-- The quotient is the largest multiple not above the number. -/
theorem div_truncates (a : Nat) {b : Nat} (hb : 0 < b) : a / b * b ≤ a ∧ a < (a / b + 1) * b :=
  ⟨Nat.div_mul_le_self a b, Nat.lt_mul_of_div_lt (Nat.lt_succ_self _) hb⟩

theorem dmmMagnitude_split {deg minutes f : Nat} (h : minutes < 100 * 10 ^ f) :
    dmmMagnitude (deg * (100 * 10 ^ f) + minutes) f = deg * 10 ^ 7 + minutes * 10 ^ 7 / (60 * 10 ^ f) := by
  have hPos : 0 < 100 * 10 ^ f := by positivity
  have hDiv : (deg * (100 * 10 ^ f) + minutes) / (100 * 10 ^ f) = deg := by
    rw [Nat.add_comm, Nat.add_mul_div_right _ _ hPos, Nat.div_eq_of_lt h, Nat.zero_add]
  have hMod : (deg * (100 * 10 ^ f) + minutes) % (100 * 10 ^ f) = minutes := by
    rw [Nat.mul_add_mod_self_right, Nat.mod_eq_of_lt h]
  rw [dmmMagnitude, hDiv, hMod]
  norm_num

/-! ### Widths -/

theorem decimalMagnitude_le (m f : Nat) : decimalMagnitude m f ≤ m * 10 ^ 6 := Nat.div_le_self _ _

theorem dmmMagnitude_le (m f : Nat) : dmmMagnitude m f ≤ m * 10 ^ 5 + 2 * 10 ^ 7 := by
  have hPow : 0 < 10 ^ f := by positivity
  have hDegrees : m / (100 * 10 ^ f) ≤ m / 100 := Nat.div_le_div_left (by omega) (by omega)
  have hMinutes : m % (100 * 10 ^ f) * 10000000 / (60 * 10 ^ f) ≤ 2 * 10 ^ 7 := by
    have := Nat.mod_lt m (show 0 < 100 * 10 ^ f by omega)
    exact Nat.div_le_of_le_mul (by omega)
  unfold dmmMagnitude
  omega

theorem toInt_toFx {v : Int} (h : v.natAbs < 2 ^ 63) : (toFx v).toInt = v := by
  rw [toFx, BitVec.toInt_ofInt]
  exact Int.bmod_eq_of_le (by omega) (by omega)

theorem toInt_negFx {x : Fx} (h : x.toInt ≠ -(2 ^ 63)) : (negFx x).toInt = -x.toInt := by
  have hLow := BitVec.le_toInt x
  have hHigh := BitVec.toInt_lt (x := x)
  rw [negFx, BitVec.toInt_neg]
  exact Int.bmod_eq_of_le (by omega) (by omega)

theorem toInt_negFx_toFx {v : Int} (h : v.natAbs < 2 ^ 63) : (negFx (toFx v)).toInt = -v := by
  rw [toInt_negFx, toInt_toFx h]
  rw [toInt_toFx h]
  omega

/-- A text of at most 12 characters stays below the widths that R183 states. -/
theorem decoders_lt {t : Text} (h : t.length ≤ 12) :
    (decFix t).mag < 10 ^ 12 ∧ (decInt t).natAbs < 10 ^ 12 ∧ (decDec t).natAbs < 10 ^ 18 ∧
      (decDmm t).natAbs < 2 ^ 63 := by
  have hPow : 10 ^ t.length ≤ 10 ^ 12 := Nat.pow_le_pow_right (by omega) h
  have hFix : (decFix t).mag < 10 ^ 12 := (decFix_bounds t).1.trans_le hPow
  have hScan : (scan t).mag < 10 ^ 12 := by
    obtain ⟨n, hMag, hLength⟩ := scan_bounds t
    exact hMag.trans_le (Nat.pow_le_pow_right (by omega) (by omega))
  have hDec := decimalMagnitude_le (decFix t).mag (decFix t).frac
  have hDmm := dmmMagnitude_le (decFix t).mag (decFix t).frac
  rw [natAbs_decInt, natAbs_decDec, natAbs_decDmm]
  exact ⟨hFix, hScan, by omega, by omega⟩

theorem toInt_toFx_decDec {t : Text} (h : t.length ≤ 12) : (toFx (decDec t)).toInt = decDec t := by
  obtain ⟨-, -, hDec, -⟩ := decoders_lt h
  exact toInt_toFx (by omega)

theorem toInt_toFx_decDmm {t : Text} (h : t.length ≤ 12) : (toFx (decDmm t)).toInt = decDmm t := by
  obtain ⟨-, -, -, hDmm⟩ := decoders_lt h
  exact toInt_toFx hDmm

/-! ### The hexadecimal pair -/

theorem hexVal_lt (c : Byte) : (hexVal c).1 < 16 := by
  unfold hexVal
  split_ifs <;> simp <;> omega

theorem expectedValue_toNat (t : Text) :
    (expectedValue t).toNat = (hexVal (charAt t 0)).1 * 16 + (hexVal (charAt t 1)).1 := by
  have hHigh := hexVal_lt (charAt t 0)
  have hLow := hexVal_lt (charAt t 1)
  rw [expectedValue, BitVec.toNat_ofNat]
  omega

/-- The digit as a character, with the letters from a given code on (R191). -/
def hexDigit (letterA : Nat) (d : Nat) : Byte :=
  if d < 10 then BitVec.ofNat 8 (0x30 + d) else BitVec.ofNat 8 (letterA + (d - 10))

theorem hexVal_upper : ∀ d < 16, hexVal (hexDigit 0x41 d) = (d, true) := by decide

theorem hexVal_lower : ∀ d < 16, hexVal (hexDigit 0x61 d) = (d, true) := by decide

theorem hexVal_of_hexDigit {c : Byte} {d : Nat} (hd : d < 16) (h : c = hexDigit 0x41 d ∨ c = hexDigit 0x61 d) :
    hexVal c = (d, true) := by
  obtain rfl | rfl := h
  · exact hexVal_upper d hd
  · exact hexVal_lower d hd

/-- Each of the three ranges of R191 is the digits of one spelling. -/
theorem hexVal_of_no_hexDigit {c : Byte} (h : ∀ d < 16, c ≠ hexDigit 0x41 d ∧ c ≠ hexDigit 0x61 d) :
    hexVal c = (0, false) := by
  have hSpelled : ∀ n, c.toNat = n → c = BitVec.ofNat 8 n := fun n hn => by simp [← hn]
  unfold hexVal
  split_ifs with hDigit hUpper hLower
  · refine absurd (hSpelled (0x30 + (c.toNat - 0x30)) (by omega)) ?_
    simpa [hexDigit, show c.toNat - 0x30 < 10 by omega] using (h (c.toNat - 0x30) (by omega)).1
  · refine absurd (hSpelled (0x41 + (c.toNat - 0x37 - 10)) (by omega)) ?_
    simpa [hexDigit, show ¬ c.toNat - 0x37 < 10 by omega] using (h (c.toNat - 0x37) (by omega)).1
  · refine absurd (hSpelled (0x61 + (c.toNat - 0x57 - 10)) (by omega)) ?_
    simpa [hexDigit, show ¬ c.toNat - 0x57 < 10 by omega] using (h (c.toNat - 0x57) (by omega)).2
  · rfl

end Sys2Proof.Machine

namespace Sys2Proof

open Machine

/-- Settles O31: the scan stops at the point or at the garbage; after a point the digit loop runs on from the scan's
number. -/
theorem decimalTextIsReadByItsGrammar : Obligations.DecimalTextIsReadByItsGrammar := by
  intro n neg ds es garbage hInt hFrac
  refine ⟨fun hGarbage => ?fraction, fun hGarbage => ?integer⟩
  case fraction =>
    have hScan := scan_grammar (n := n) (neg := neg) (rest := Ascii.point :: (es ++ garbage)) hInt
      (by rintro c ⟨⟩; exact isDigit_point) (by simp)
    have hTake := takeDigits_append hFrac hGarbage (digitsNumber ds) 0
    refine ⟨?_, by rw [decInt, hScan]; rfl⟩
    rw [decFix_of_point (by rw [hScan]), hScan, hTake, digitsNumber, digitsNumber, List.foldl_append]
    simp [digitValue]
  case integer =>
    have hScan := scan_grammar (n := n) (neg := neg) (rest := garbage) hInt (fun c hc => (hGarbage c hc).1)
      (fun hEmpty hPlus c hc => (hGarbage c hc).2.2 hEmpty hPlus)
    have hNoPoint : charAt garbage 0 ≠ Ascii.point := by
      cases garbage with
      | nil => simp
      | cons c cs => exact (hGarbage c (by simp)).2.1
    refine ⟨?_, by rw [decInt, hScan]; rfl⟩
    rw [decFix_of_no_point (by rw [hScan]; exact hNoPoint), hScan]

/-- Settles O32: `decimalMagnitude` is one division. -/
theorem decimalFieldsTruncateTowardZero : Obligations.DecimalFieldsTruncateTowardZero := by
  intro t
  obtain ⟨hBelow, hAbove⟩ := div_truncates ((decFix t).mag * 10 ^ 6) (b := 10 ^ (decFix t).frac) (by positivity)
  obtain ⟨hNeg, hPos⟩ := signed_sign (decFix t).neg (decimalMagnitude (decFix t).mag (decFix t).frac)
  rw [natAbs_decDec]
  exact ⟨hBelow, hAbove, hNeg, hPos⟩

/-- Settles O33: the degrees come out exactly and only the minutes are divided. -/
theorem degreesAndMinutesTruncateTowardZero : Obligations.DegreesAndMinutesTruncateTowardZero := by
  intro t deg minutes f hRaw hMinutes
  obtain ⟨hBelow, hAbove⟩ := div_truncates (minutes * 10 ^ 7) (b := 60 * 10 ^ f.frac) (by positivity)
  obtain ⟨hNeg, hPos⟩ := signed_sign f.neg (dmmMagnitude f.mag f.frac)
  have hMagnitude : (decDmm t).natAbs = deg * 10 ^ 7 + minutes * 10 ^ 7 / (60 * 10 ^ f.frac) := by
    rw [natAbs_decDmm, ← dmmMagnitude_split hMinutes, ← hRaw]
  rw [hMagnitude]
  generalize minutes * 10 ^ 7 / (60 * 10 ^ f.frac) = q at hBelow hAbove
  generalize 60 * 10 ^ f.frac = d at hBelow hAbove
  exact ⟨by linarith, by linarith, hNeg, hPos⟩

/-- Settles O34: the raw value has at most as many digits as the text has characters. -/
theorem decodersFitTheirRegisters : Obligations.DecodersFitTheirRegisters := by
  intro t hLength
  obtain ⟨hFix, hInt, hDec, hDmm⟩ := decoders_lt hLength
  have hFrac : (decFix t).frac ≤ 11 := (decFix_bounds t).2.trans (by omega)
  exact ⟨hFix, hFrac, hInt, hDec, hDmm, toInt_toFx_decDec hLength, toInt_toFx_decDmm hLength,
    toInt_negFx_toFx (by omega), toInt_negFx_toFx hDmm⟩

/-- Settles O35: the value of each nibble's spellings, and that the three ranges hold nothing but spellings. -/
theorem hexPairGivesItsByte : Obligations.HexPairGivesItsByte := by
  refine ⟨fun hi lo hHi hLo a b rest ha hb => ?pair, fun c hc => hexVal_of_no_hexDigit hc⟩
  have hHigh : hexVal a = (hi, true) := hexVal_of_hexDigit hHi ha
  have hLow : hexVal b = (lo, true) := hexVal_of_hexDigit hLo hb
  rw [expectedValue_toNat, expectedValid]
  simp [charAt, hHigh, hLow]

end Sys2Proof
end

section
/-!
PROOFS. The term operations (41_term_dispatch.md): the effect of each on ParserState as one function of the operation, what
that function can change, and that `FINALIZE` is it at the dispatch key (R97, R140).
-/
namespace Sys2Proof.Machine

/-! ### The effect of a term operation -/

/-- The effect of an operation of format TERM on ParserState; every other operation has none here. -/
def termEffect (cfg : Config) (p : Parser) : Instr → Parser
  | .tId => p.identifyTerm cfg
  | .ggaTime => p.ggaTime
  | .ggaLat => p.ggaLat
  | .ggaNs => p.ggaNs
  | .ggaLon => p.ggaLon
  | .ggaEw => p.ggaEw
  | .ggaFixq => p.ggaFixq
  | .ggaSats => p.ggaSats
  | .ggaAlt => p.ggaAlt
  | .ggaGeoid => p.ggaGeoid
  | .rmcValid => p.rmcValid
  | .rmcSpeed => p.rmcSpeed
  | .rmcCourse => p.rmcCourse
  | .rmcDate => p.rmcDate
  | .rmcVar => p.rmcVar
  | .rmcVarew => p.rmcVarew
  | _ => p

theorem State.withP_self (s : State) : s.withP s.p = s := rfl

/-- Every operation of format TERM goes on, with its effect and no other (R140). -/
theorem exec_of_term {i : Instr} (s : State) (h : (encode i).format = .term) :
    exec i s = .next (s.withP (termEffect s.cfg s.p i)) := by
  cases i with
  | pbDollar | pbComma | pbStar | pbCr | pbOther | pNop | pInit | pb | pProcess => cases h
  | rbInit | rbReset | rbWrite | rbRead | rbPeek | rbFree | rbOcc | rbRsvd7 => cases h
  | _ => rfl

/-! ### The sign operations -/

theorem Parser.ggaNs_of_south {p : Parser} (h : isSouth p.text = true) :
    p.ggaNs = p.withGga { p.s.gga with lat := negFx p.s.gga.lat } := if_pos h

theorem Parser.ggaNs_of_not_south {p : Parser} (h : isSouth p.text = false) : p.ggaNs = p := by
  simp [Parser.ggaNs, h]

theorem Parser.ggaEw_of_west {p : Parser} (h : isWest p.text = true) :
    p.ggaEw = p.withGga { p.s.gga with lon := negFx p.s.gga.lon } := if_pos h

theorem Parser.ggaEw_of_not_west {p : Parser} (h : isWest p.text = false) : p.ggaEw = p := by
  simp [Parser.ggaEw, h]

theorem Parser.rmcVarew_of_west {p : Parser} (h : isWest p.text = true) :
    p.rmcVarew = p.withRmc { p.s.rmc with var := negFx p.s.rmc.var } := if_pos h

theorem Parser.rmcVarew_of_not_west {p : Parser} (h : isWest p.text = false) : p.rmcVarew = p := by
  simp [Parser.rmcVarew, h]

theorem Parser.ggaNs_writes_gga (p : Parser) : ∃ g, p.ggaNs = p.withGga g := by
  cases h : isSouth p.text
  · exact ⟨p.s.gga, Parser.ggaNs_of_not_south h⟩
  · exact ⟨_, Parser.ggaNs_of_south h⟩

theorem Parser.ggaEw_writes_gga (p : Parser) : ∃ g, p.ggaEw = p.withGga g := by
  cases h : isWest p.text
  · exact ⟨p.s.gga, Parser.ggaEw_of_not_west h⟩
  · exact ⟨_, Parser.ggaEw_of_west h⟩

theorem Parser.rmcVarew_writes_rmc (p : Parser) : ∃ r, p.rmcVarew = p.withRmc r := by
  cases h : isWest p.text
  · exact ⟨p.s.rmc, Parser.rmcVarew_of_not_west h⟩
  · exact ⟨_, Parser.rmcVarew_of_west h⟩

/-! ### What a term operation writes -/

/-- A row of the GGA table writes the GGA record (R95). -/
theorem termEffect_decodeGga (cfg : Config) (p : Parser) (tidx : Byte) :
    ∃ g, termEffect cfg p (decodeGga tidx) = p.withGga g := by
  unfold decodeGga
  split
  case h_3 => exact p.ggaNs_writes_gga
  case h_5 => exact p.ggaEw_writes_gga
  case h_10 => exact ⟨p.s.gga, rfl⟩
  all_goals exact ⟨_, rfl⟩

/-- A row of the RMC table writes the RMC record (R96). -/
theorem termEffect_decodeRmc (cfg : Config) (p : Parser) (tidx : Byte) :
    ∃ r, termEffect cfg p (decodeRmc tidx) = p.withRmc r := by
  unfold decodeRmc
  split
  case h_6 => exact p.rmcVarew_writes_rmc
  case h_7 => exact ⟨p.s.rmc, rfl⟩
  all_goals exact ⟨_, rfl⟩

/-- An operation of format TERM is `T_ID`, `T_NONE` or a row of one of the two tables. -/
theorem term_cases {i : Instr} (h : (encode i).format = .term) :
    i = .tId ∨ (∃ kind tidx, i = .tNone kind tidx) ∨ (∃ tidx, i = decodeGga tidx) ∨ (∃ tidx, i = decodeRmc tidx) := by
  cases i with
  | tId => exact .inl rfl
  | tNone kind tidx => exact .inr (.inl ⟨kind, tidx, rfl⟩)
  | ggaTime => exact .inr (.inr (.inl ⟨1, rfl⟩))
  | ggaLat => exact .inr (.inr (.inl ⟨2, rfl⟩))
  | ggaNs => exact .inr (.inr (.inl ⟨3, rfl⟩))
  | ggaLon => exact .inr (.inr (.inl ⟨4, rfl⟩))
  | ggaEw => exact .inr (.inr (.inl ⟨5, rfl⟩))
  | ggaFixq => exact .inr (.inr (.inl ⟨6, rfl⟩))
  | ggaSats => exact .inr (.inr (.inl ⟨7, rfl⟩))
  | ggaAlt => exact .inr (.inr (.inl ⟨9, rfl⟩))
  | ggaGeoid => exact .inr (.inr (.inl ⟨11, rfl⟩))
  | rmcValid => exact .inr (.inr (.inr ⟨2, rfl⟩))
  | rmcSpeed => exact .inr (.inr (.inr ⟨7, rfl⟩))
  | rmcCourse => exact .inr (.inr (.inr ⟨8, rfl⟩))
  | rmcDate => exact .inr (.inr (.inr ⟨9, rfl⟩))
  | rmcVar => exact .inr (.inr (.inr ⟨10, rfl⟩))
  | rmcVarew => exact .inr (.inr (.inr ⟨11, rfl⟩))
  | _ => cases h

theorem termEffect_frame {i : Instr} (cfg : Config) (p : Parser) (h : (encode i).format = .term) :
    p.SameFraming (termEffect cfg p i) ∧ (i ≠ .tId → (termEffect cfg p i).kind = p.kind) := by
  obtain rfl | ⟨kind, tidx, rfl⟩ | ⟨tidx, rfl⟩ | ⟨tidx, rfl⟩ := term_cases h
  · exact ⟨p.sameFraming_identify cfg, fun hId => absurd rfl hId⟩
  · exact ⟨p.sameFraming_refl, fun _ => rfl⟩
  · obtain ⟨g, hg⟩ := termEffect_decodeGga cfg p tidx
    rw [hg]
    exact ⟨p.sameFraming_withGga g, fun _ => rfl⟩
  · obtain ⟨r, hr⟩ := termEffect_decodeRmc cfg p tidx
    rw [hr]
    exact ⟨p.sameFraming_withRmc r, fun _ => rfl⟩

/-! ### FINALIZE -/

theorem Parser.finalizeGga_eq (cfg : Config) (p : Parser) :
    p.finalizeGga = termEffect cfg p (decodeGga p.tidx) := by
  unfold Parser.finalizeGga
  split <;> simp only [decodeGga, *] <;> rfl

theorem Parser.finalizeRmc_eq (cfg : Config) (p : Parser) :
    p.finalizeRmc = termEffect cfg p (decodeRmc p.tidx) := by
  unfold Parser.finalizeRmc
  split <;> simp only [decodeRmc, *] <;> rfl

theorem decodeTerm_of_index_zero (kind : BitVec 2) : decodeTerm (makeKey kind 0) = .tId := by
  rw [decodeTerm, indexBits_makeKey, if_pos rfl]

/-- `FINALIZE` is the operation that the dispatch key selects (R97, R140). -/
theorem Parser.finalize_eq_termEffect (cfg : Config) (p : Parser) :
    p.finalize cfg = termEffect cfg p (decodeTerm p.key) := by
  unfold Parser.finalize Parser.key
  by_cases hIndex : p.tidx = 0
  · rw [if_pos hIndex, hIndex, decodeTerm_of_index_zero]; rfl
  · rw [if_neg hIndex]
    cases p.kind with
    | gga => rw [decodeTerm_gga hIndex, p.finalizeGga_eq cfg]
    | rmc => rw [decodeTerm_rmc hIndex, p.finalizeRmc_eq cfg]
    | unknown => rw [decodeTerm_unknown hIndex]; rfl

theorem decodeGga_format (tidx : Byte) : (encode (decodeGga tidx)).format = .term := by
  unfold decodeGga
  split <;> rfl

theorem decodeRmc_format (tidx : Byte) : (encode (decodeRmc tidx)).format = .term := by
  unfold decodeRmc
  split <;> rfl

theorem decodeTerm_format (key : Key) : (encode (decodeTerm key)).format = .term := by
  unfold decodeTerm
  split
  · rfl
  · split
    · exact decodeGga_format _
    · exact decodeRmc_format _
    · rfl

theorem exec_decodeTerm_key (s : State) :
    exec (decodeTerm s.p.key) s = .next (s.withP (s.p.finalize s.cfg)) := by
  rw [exec_of_term s (decodeTerm_format s.p.key), Parser.finalize_eq_termEffect]

/-! ### The identifier -/

/-- A text begins with a literal without NULs exactly if it agrees with it position by position (R31, R141). -/
theorem take_eq_iff_charAt {t lit : Text} (hNul : Ascii.nul ∉ lit) :
    t.take lit.length = lit ↔ ∀ i < lit.length, charAt t i = charAt lit i := by
  constructor
  · intro h i hi
    have hGet : (t.take lit.length)[i]? = t[i]? := List.getElem?_take_of_lt hi
    rw [charAt, charAt, List.getD_eq_getElem?_getD, List.getD_eq_getElem?_getD, ← hGet, h]
  · intro h
    have hLength : lit.length ≤ t.length := by
      by_contra hShort
      have hAt : t.length < lit.length := by omega
      refine hNul ?_
      have hEnd : charAt t t.length = Ascii.nul := by simp [charAt]
      have hLit : charAt lit t.length = lit[t.length] := by simp [charAt, hAt]
      rw [← hEnd, h _ hAt, hLit]
      exact List.getElem_mem hAt
    apply List.ext_getElem (by simpa using hLength)
    intro i _ hi
    have := h i hi
    simpa [charAt, hi, hi.trans_le hLength] using this

theorem eq_iff_charAt {t lit : Text} (hNul : Ascii.nul ∉ lit) :
    t = lit ↔ t.length = lit.length ∧ ∀ i < lit.length, charAt t i = charAt lit i := by
  rw [← take_eq_iff_charAt hNul]
  constructor
  · rintro rfl; simp
  · rintro ⟨hLength, hTake⟩; rwa [← hLength, List.take_length] at hTake

/-- A literal is matched when the term's characters are the literal's, and under `EXACT` no more follow (R141, D8). -/
theorem matchesLiteral_iff {m : IdMatch} {p : Parser} {lit : Text} (hLength : lit.length = 6)
    (hNul : Ascii.nul ∉ lit) :
    matchesLiteral m p.text lit = true ↔
      (m = .wholeTerm → p.tlen.val = 6) ∧ ∀ i < 6, p.tc i = charAt lit i := by
  simp only [Parser.tc_eq_charAt]
  cases m
  · simp only [matchesLiteral, beq_iff_eq, eq_iff_charAt hNul, Parser.text_length, hLength, forall_const]
  · simp only [matchesLiteral, beq_iff_eq, ← hLength, take_eq_iff_charAt hNul, reduceCtorEq, false_implies, true_and]

/-- No text matches two literals (R94). -/
theorem matchesLiteral_unique {m : IdMatch} {t a b : Text} (ha : matchesLiteral m t a = true)
    (hb : matchesLiteral m t b = true) : a = b := by
  cases m <;> simp [matchesLiteral] at ha hb <;> rw [← ha, ← hb]

theorem identify_of_gga {m : IdMatch} {t : Text}
    (h : matchesLiteral m t Ascii.gpgga = true ∨ matchesLiteral m t Ascii.gngga = true) : identify m t = .gga := by
  simp [identify, h]

theorem identify_of_rmc {m : IdMatch} {t : Text}
    (h : matchesLiteral m t Ascii.gprmc = true ∨ matchesLiteral m t Ascii.gnrmc = true) : identify m t = .rmc := by
  have hNotGga : ¬ (matchesLiteral m t Ascii.gpgga = true ∨ matchesLiteral m t Ascii.gngga = true) := by
    rintro (hg | hg) <;> obtain hr | hr := h <;> exact absurd (matchesLiteral_unique hg hr) (by decide)
  simp [identify, hNotGga, h]

theorem identify_of_none {m : IdMatch} {t : Text} (hGp : ¬ matchesLiteral m t Ascii.gpgga = true)
    (hGn : ¬ matchesLiteral m t Ascii.gngga = true) (hRp : ¬ matchesLiteral m t Ascii.gprmc = true)
    (hRn : ¬ matchesLiteral m t Ascii.gnrmc = true) : identify m t = .unknown := by
  simp [identify, hGp, hGn, hRp, hRn]

theorem Parser.identifyTerm_of_gga {cfg : Config} {p : Parser} (h : identify cfg.idMatch p.text = .gga) :
    p.identifyTerm cfg = { p with kind := .gga }.withGga GgaRecord.zero := by
  simp [Parser.identifyTerm, h]

theorem Parser.identifyTerm_of_rmc {cfg : Config} {p : Parser} (h : identify cfg.idMatch p.text = .rmc) :
    p.identifyTerm cfg = { p with kind := .rmc }.withRmc RmcRecord.zero := by
  simp [Parser.identifyTerm, h]

theorem Parser.identifyTerm_of_unknown {cfg : Config} {p : Parser} (h : identify cfg.idMatch p.text = .unknown) :
    p.identifyTerm cfg = { p with kind := .unknown } := by
  simp [Parser.identifyTerm, h]

/-! ### Two digits and letters -/

theorem dec2d_toNat (t : Text) (j : Nat) :
    (dec2d t j).toNat = 10 * digitOrZero (charAt t j) + digitOrZero (charAt t (j + 1)) := by
  have hDigit : ∀ c : Byte, digitOrZero c ≤ 9 := by
    intro c
    unfold digitOrZero digitValue isDigit
    split
    · simp at *; omega
    · omega
  have := hDigit (charAt t j)
  have := hDigit (charAt t (j + 1))
  rw [dec2d, BitVec.toNat_ofNat]
  omega

theorem digitOrZero_eq (c : Byte) :
    digitOrZero c = if 0x30 ≤ c.toNat ∧ c.toNat ≤ 0x39 then c.toNat - 0x30 else 0 := by
  simp [digitOrZero, isDigit, digitValue]

theorem Parser.dec2d_toNat (p : Parser) (j : Nat) :
    (dec2d p.text j).toNat =
      10 * (if 0x30 ≤ (p.tc j).toNat ∧ (p.tc j).toNat ≤ 0x39 then (p.tc j).toNat - 0x30 else 0) +
      if 0x30 ≤ (p.tc (j + 1)).toNat ∧ (p.tc (j + 1)).toNat ≤ 0x39 then (p.tc (j + 1)).toNat - 0x30 else 0 := by
  rw [Machine.dec2d_toNat, digitOrZero_eq, digitOrZero_eq, Parser.tc_eq_charAt, Parser.tc_eq_charAt]

theorem u8_toNat (v : Int) : ((u8 v).toNat : Int) = v % 256 := by
  rw [u8, BitVec.toNat_ofInt]
  omega

theorem Parser.isSouth_iff (p : Parser) : isSouth p.text = true ↔ p.tc 0 = 0x53 ∨ p.tc 0 = 0x73 := by
  simp [isSouth, Parser.tc_eq_charAt]

theorem Parser.isWest_iff (p : Parser) : isWest p.text = true ↔ p.tc 0 = 0x57 ∨ p.tc 0 = 0x77 := by
  simp [isWest, Parser.tc_eq_charAt]

theorem Parser.isSouth_eq_false {p : Parser} (hUpper : p.tc 0 ≠ 0x53) (hLower : p.tc 0 ≠ 0x73) :
    isSouth p.text = false := by
  rw [Bool.eq_false_iff, Ne, p.isSouth_iff]
  exact not_or.2 ⟨hUpper, hLower⟩

theorem Parser.isWest_eq_false {p : Parser} (hUpper : p.tc 0 ≠ 0x57) (hLower : p.tc 0 ≠ 0x77) :
    isWest p.text = false := by
  rw [Bool.eq_false_iff, Ne, p.isWest_iff]
  exact not_or.2 ⟨hUpper, hLower⟩

theorem Parser.isValidLetter_iff (p : Parser) : isValidLetter p.text = true ↔ p.tc 0 = 0x41 := by
  simp [isValidLetter, Parser.tc_eq_charAt]

theorem Parser.text_length_le (p : Parser) : p.text.length ≤ 12 := by
  have := p.tlen.isLt
  rw [Parser.text_length]
  omega

end Sys2Proof.Machine

namespace Sys2Proof

open Machine

/-- Settles O21: a literal is matched character by character, at most one literal is matched, and each kind's effect
is an equation. -/
theorem identifierSetsTheKind : Obligations.IdentifierSetsTheKind := by
  intro s names
  have hNames : ∀ lit : Text, lit.length = 6 → Ascii.nul ∉ lit →
      (matchesLiteral s.cfg.idMatch s.p.text lit = true ↔ names lit) := by
    intro lit hLength hNul
    rw [matchesLiteral_iff hLength hNul]
    cases hMatch : s.cfg.idMatch <;> simp [names, hMatch]
  have hGp := hNames Ascii.gpgga rfl (by decide)
  have hGn := hNames Ascii.gngga rfl (by decide)
  have hRp := hNames Ascii.gprmc rfl (by decide)
  have hRn := hNames Ascii.gnrmc rfl (by decide)
  refine ⟨s.withP (s.p.identifyTerm s.cfg), rfl, fun hGga => ?gga, fun hRmc => ?rmc, fun nGp nGn nRp nRn => ?none,
    s.p.sameFraming_identify s.cfg, rfl, rfl, s.sameOutsideParser_refl⟩
  case gga =>
    rw [State.withP_p, Parser.identifyTerm_of_gga (identify_of_gga (hGga.imp hGp.2 hGn.2))]
    exact ⟨rfl, rfl, rfl⟩
  case rmc =>
    rw [State.withP_p, Parser.identifyTerm_of_rmc (identify_of_rmc (hRmc.imp hRp.2 hRn.2))]
    exact ⟨rfl, rfl, rfl⟩
  case none =>
    rw [State.withP_p, Parser.identifyTerm_of_unknown (identify_of_none (fun h => nGp (hGp.1 h))
      (fun h => nGn (hGn.1 h)) (fun h => nRp (hRp.1 h)) (fun h => nRn (hRn.1 h)))]
    exact ⟨rfl, rfl⟩

/-- Settles O22: each field is `DEC_2D` at its position. -/
theorem timeAndDateReadThreeGroups : Obligations.TimeAndDateReadThreeGroups := fun s =>
  ⟨⟨s.withP s.p.ggaTime, rfl, s.p.dec2d_toNat 0, s.p.dec2d_toNat 2, s.p.dec2d_toNat 4, rfl⟩,
    s.withP s.p.rmcDate, rfl, s.p.dec2d_toNat 0, s.p.dec2d_toNat 2, s.p.dec2d_toNat 4, rfl⟩

/-- Settles O23: a term has at most 12 characters, for which the register holds the value exactly (R183). -/
theorem latitudeAndLongitudeStoreTheExactDmm : Obligations.LatitudeAndLongitudeStoreTheExactDmm := fun s =>
  have hExact := toInt_toFx_decDmm s.p.text_length_le
  ⟨⟨s.withP s.p.ggaLat, rfl, hExact, rfl⟩, s.withP s.p.ggaLon, rfl, hExact, rfl⟩

/-- Settles O24: as for the coordinates, with the decimal's bound. -/
theorem decimalFieldsStoreTheExactDecimal : Obligations.DecimalFieldsStoreTheExactDecimal := fun s =>
  have hExact := toInt_toFx_decDec s.p.text_length_le
  ⟨⟨s.withP s.p.ggaAlt, rfl, hExact, rfl⟩, ⟨s.withP s.p.ggaGeoid, rfl, hExact, rfl⟩,
    ⟨s.withP s.p.rmcSpeed, rfl, hExact, rfl⟩, ⟨s.withP s.p.rmcCourse, rfl, hExact, rfl⟩,
    s.withP s.p.rmcVar, rfl, hExact, rfl⟩

/-- Settles O25: `U8` is the remainder modulo 256. -/
theorem integerFieldsStoreTheRemainderOf256 : Obligations.IntegerFieldsStoreTheRemainderOf256 := fun s =>
  ⟨⟨s.withP s.p.ggaFixq, rfl, u8_toNat _, rfl⟩, s.withP s.p.ggaSats, rfl, u8_toNat _, rfl⟩

/-- Settles O26: each sign operation negates its field on its letters and is the identity otherwise. -/
theorem signLettersNegateTheirField : Obligations.SignLettersNegateTheirField := by
  intro s
  refine ⟨⟨s.withP s.p.ggaNs, rfl, fun hSouth => ?south, fun hUpper hLower => ?notSouth⟩,
    ⟨s.withP s.p.ggaEw, rfl, fun hWest => ?west, fun hUpper hLower => ?notWest⟩,
    ⟨s.withP s.p.rmcVarew, rfl, fun hWest => ?varWest, fun hUpper hLower => ?varNotWest⟩⟩
  case south =>
    rw [Parser.ggaNs_of_south (s.p.isSouth_iff.2 hSouth)]
    exact ⟨rfl, toInt_negFx⟩
  case notSouth =>
    rw [Parser.ggaNs_of_not_south (Parser.isSouth_eq_false hUpper hLower)]; rfl
  case west =>
    rw [Parser.ggaEw_of_west (s.p.isWest_iff.2 hWest)]
    exact ⟨rfl, toInt_negFx⟩
  case notWest =>
    rw [Parser.ggaEw_of_not_west (Parser.isWest_eq_false hUpper hLower)]; rfl
  case varWest =>
    rw [Parser.rmcVarew_of_west (s.p.isWest_iff.2 hWest)]
    exact ⟨rfl, toInt_negFx⟩
  case varNotWest =>
    rw [Parser.rmcVarew_of_not_west (Parser.isWest_eq_false hUpper hLower)]; rfl

/-- Settles O27: the flag is the test for the letter. -/
theorem validityIsAnUpperCaseA : Obligations.ValidityIsAnUpperCaseA := fun s =>
  ⟨s.withP s.p.rmcValid, rfl, s.p.isValidLetter_iff, rfl⟩

/-- Settles O29: every effect but that of `T_ID` writes one record and nothing else. -/
theorem termOperationsTouchOnlyTheScratchRecord : Obligations.TermOperationsTouchOnlyTheScratchRecord := by
  intro i s hTerm
  obtain ⟨hFraming, hKind⟩ := termEffect_frame s.cfg s.p hTerm
  refine ⟨s.withP (termEffect s.cfg s.p i), exec_of_term s hTerm, hFraming, rfl, rfl, s.sameOutsideParser_refl, hKind,
    fun tidx hGga => ?gga, fun tidx hRmc => ?rmc⟩
  case gga =>
    obtain ⟨g, hg⟩ := termEffect_decodeGga s.cfg s.p tidx
    rw [hGga, State.withP_p, hg, Parser.withGga_s]
  case rmc =>
    obtain ⟨r, hr⟩ := termEffect_decodeRmc s.cfg s.p tidx
    rw [hRmc, State.withP_p, hr, Parser.withRmc_s]

/-- Settles O30: the text is empty, and each decoder evaluates to zero on it. -/
theorem emptyTermsDecodeToZero : Obligations.EmptyTermsDecodeToZero := by
  intro s hEmpty
  have hText : s.p.text = [] := Parser.text_eq_nil hEmpty
  have hLetter : isSouth s.p.text = false ∧ isWest s.p.text = false ∧ isValidLetter s.p.text = false := by
    rw [hText]; decide
  have hDigits : dec2d s.p.text 0 = 0 ∧ dec2d s.p.text 2 = 0 ∧ dec2d s.p.text 4 = 0 := by rw [hText]; decide
  have hNumbers : toFx (decDmm s.p.text) = 0 ∧ toFx (decDec s.p.text) = 0 ∧ u8 (decInt s.p.text) = 0 := by
    rw [hText]; decide
  have hIdentify : identify s.cfg.idMatch s.p.text = .unknown := by
    rw [hText]; cases s.cfg.idMatch <;> rfl
  obtain ⟨hSouth, hWest, hValid⟩ := hLetter
  obtain ⟨hFirst, hSecond, hThird⟩ := hDigits
  obtain ⟨hDmm, hDec, hInt⟩ := hNumbers
  exact ⟨⟨s.withP (s.p.identifyTerm s.cfg), rfl, congrArg Parser.kind (Parser.identifyTerm_of_unknown hIdentify)⟩,
    by rw [exec_of_term s rfl, termEffect, Parser.ggaTime, hFirst, hSecond, hThird],
    by rw [exec_of_term s rfl, termEffect, Parser.ggaLat, hDmm],
    by rw [exec_of_term s rfl, termEffect, Parser.ggaNs_of_not_south hSouth, s.withP_self],
    by rw [exec_of_term s rfl, termEffect, Parser.ggaLon, hDmm],
    by rw [exec_of_term s rfl, termEffect, Parser.ggaEw_of_not_west hWest, s.withP_self],
    by rw [exec_of_term s rfl, termEffect, Parser.ggaFixq, hInt],
    by rw [exec_of_term s rfl, termEffect, Parser.ggaSats, hInt],
    by rw [exec_of_term s rfl, termEffect, Parser.ggaAlt, hDec],
    by rw [exec_of_term s rfl, termEffect, Parser.ggaGeoid, hDec],
    by rw [exec_of_term s rfl, termEffect, Parser.rmcValid, hValid],
    by rw [exec_of_term s rfl, termEffect, Parser.rmcSpeed, hDec],
    by rw [exec_of_term s rfl, termEffect, Parser.rmcCourse, hDec],
    by rw [exec_of_term s rfl, termEffect, Parser.rmcDate, hFirst, hSecond, hThird],
    by rw [exec_of_term s rfl, termEffect, Parser.rmcVar, hDec],
    by rw [exec_of_term s rfl, termEffect, Parser.rmcVarew_of_not_west hWest, s.withP_self]⟩

end Sys2Proof
end

section
/-!
PROOFS. The byte operations and the parser port (40_parser_bytes.md): what a byte makes of ParserState, of `fix` and of the
event, each as one equation per class, and spans as sequences of bytes.
-/
namespace Sys2Proof.Machine

/-! ### A byte, class by class -/

/-- What a byte makes of ParserState (R124): it reads the parameters and ParserState only. -/
def Parser.feed (cfg : Config) (p : Parser) (b : Byte) : Parser :=
  if b = Ascii.dollar then p.restart.termAdd Ascii.dollar
  else if b = Ascii.comma then ((p.finalize cfg).crcAdd Ascii.comma).termNext
  else if b = Ascii.star then (p.finalize cfg).setStar.termNext
  else if b = Ascii.cr then p
  else (p.crcOther b).termAdd b

theorem Parser.feed_dollar (cfg : Config) (p : Parser) : p.feed cfg 0x24 = p.restart.termAdd Ascii.dollar := rfl
theorem Parser.feed_comma (cfg : Config) (p : Parser) :
    p.feed cfg 0x2C = ((p.finalize cfg).crcAdd Ascii.comma).termNext := rfl
theorem Parser.feed_star (cfg : Config) (p : Parser) : p.feed cfg 0x2A = (p.finalize cfg).setStar.termNext := rfl

theorem Parser.feed_plain {b : Byte} (cfg : Config) (p : Parser) (h : isSpecialByte b = false) :
    p.feed cfg b = (p.crcOther b).termAdd b := by
  obtain ⟨hDollar, hComma, hStar, hCr⟩ := isSpecialByte_eq_false_iff.1 h
  rw [Parser.feed, if_neg hDollar, if_neg hComma, if_neg hStar, if_neg hCr]

/-- The class of a byte (R92). -/
theorem byte_cases (b : Byte) : b = 0x24 ∨ b = 0x2C ∨ b = 0x2A ∨ b = 0x0D ∨ isSpecialByte b = false := by
  rw [isSpecialByte_eq_false_iff]
  tauto

theorem State.byteStep_plain {b : Byte} (s : State) (h : isSpecialByte b = false) : s.byteStep b = s.byteOther b := by
  obtain ⟨hDollar, hComma, hStar, hCr⟩ := isSpecialByte_eq_false_iff.1 h
  rw [State.byteStep, if_neg hDollar, if_neg hComma, if_neg hStar, if_neg hCr]

@[simp] theorem State.byteStep_p (s : State) (b : Byte) : (s.byteStep b).p = s.p.feed s.cfg b := by
  obtain rfl | rfl | rfl | rfl | hPlain := byte_cases b
  · rfl
  · rfl
  · rfl
  · exact s.byteCr_p
  · rw [s.byteStep_plain hPlain, Parser.feed_plain _ _ hPlain]; rfl

@[simp] theorem State.byteStep_cfg (s : State) (b : Byte) : (s.byteStep b).cfg = s.cfg := by
  obtain ⟨-, -, -, -, -, -, hCfg, -⟩ := s.byteStep_outside b
  exact hCfg

@[simp] theorem State.byteStep_spanning (s : State) (b : Byte) : (s.byteStep b).spanning = s.spanning := by
  obtain ⟨-, -, -, hSpanning, -⟩ := s.byteStep_outside b
  exact hSpanning

/-- Only a carriage return reaches `fix` (R246). -/
theorem State.byteStep_fix_of_ne_cr {b : Byte} (s : State) (h : b ≠ 0x0D) : (s.byteStep b).fix = s.fix := by
  obtain rfl | rfl | rfl | rfl | hPlain := byte_cases b
  · rfl
  · rfl
  · rfl
  · exact absurd rfl h
  · rw [s.byteStep_plain hPlain]; rfl

theorem State.byteStep_cr (s : State) : s.byteStep 0x0D = s.byteCr := rfl

/-! ### Comma and star -/

theorem nextIndex_toNat (tidx : Byte) : (nextIndex tidx).toNat = min (tidx.toNat + 1) 255 := by
  unfold nextIndex
  split
  · subst_vars; rfl
  · bv_omega

theorem exec_pbComma {s : State} (h : s.spanning = none) : exec .pbComma s = .next s.byteComma := serially_none h

theorem exec_pbStar {s : State} (h : s.spanning = none) : exec .pbStar s = .next s.byteStar := serially_none h

theorem Parser.tc_of_tlen_zero {p : Parser} (h : p.tlen = 0) (i : Nat) : p.tc i = 0 :=
  Parser.tc_of_tlen_le (by simp [h])

@[simp] theorem State.byteComma_p (s : State) :
    s.byteComma.p = ((s.p.finalize s.cfg).crcAdd Ascii.comma).termNext := rfl

@[simp] theorem State.byteStar_p (s : State) : s.byteStar.p = (s.p.finalize s.cfg).setStar.termNext := rfl

/-! ### CRC_OK -/

theorem checksumMatches_iff {h : HexInvalid} {t : Text} {csum : Byte} :
    checksumMatches h t csum = true ↔
      (hexVal (charAt t 0)).1 * 16 + (hexVal (charAt t 1)).1 = csum.toNat ∧
        (h = .reject → (hexVal (charAt t 0)).2 = true ∧ (hexVal (charAt t 1)).2 = true) := by
  rw [← expectedValue_toNat, BitVec.toNat_inj]
  cases h <;> simp [checksumMatches, expectedValid]

theorem State.crcOk_iff (s : State) :
    s.crcOk = true ↔
      (hexVal (s.p.tc 0)).1 * 16 + (hexVal (s.p.tc 1)).1 = s.p.csum.toNat ∧
        (s.cfg.hexInvalid = .reject → (hexVal (s.p.tc 0)).2 = true ∧ (hexVal (s.p.tc 1)).2 = true) := by
  rw [Parser.tc_eq_charAt, Parser.tc_eq_charAt]
  exact checksumMatches_iff

/-! ### Spans -/

theorem exec_pProcess {s : State} (bs : List Byte) (h : s.spanning = none) :
    exec (.pProcess bs) s = .next (s.byteSpan bs) := serially_none h

theorem exec_pb {s : State} (b : Byte) (h : s.spanning = none) : exec (.pb b) s = .next (s.byteStep b) :=
  serially_none h

/-- The operation that a byte selects is the byte (R124). -/
theorem exec_decodeByte (b : Byte) (s : State) : exec (decodeByte b) s = exec (.pb b) s := by
  obtain rfl | rfl | rfl | rfl | hPlain := byte_cases b
  · rfl
  · rfl
  · rfl
  · rfl
  · obtain ⟨hDollar, hComma, hStar, hCr⟩ := isSpecialByte_eq_false_iff.1 hPlain
    rw [decodeByte_of_not_special hDollar hComma hStar hCr]
    exact congrArg (serially s) (s.byteStep_plain hPlain).symm

@[simp] theorem State.byteSpan_nil (s : State) : s.byteSpan [] = s := rfl

theorem State.byteSpan_cons (s : State) (b : Byte) (bs : List Byte) :
    s.byteSpan (b :: bs) = (s.byteStep b).byteSpan bs := rfl

@[simp] theorem State.byteSpan_cfg (s : State) (bs : List Byte) : (s.byteSpan bs).cfg = s.cfg := by
  obtain ⟨-, -, -, -, -, -, hCfg, -⟩ := State.byteSpan_outside bs s
  exact hCfg

@[simp] theorem State.byteSpan_spanning (s : State) (bs : List Byte) : (s.byteSpan bs).spanning = s.spanning := by
  obtain ⟨-, -, -, hSpanning, -⟩ := State.byteSpan_outside bs s
  exact hSpanning

theorem State.byteSpan_p (bs : List Byte) (s : State) :
    (s.byteSpan bs).p = bs.foldl (Parser.feed s.cfg) s.p := by
  induction bs generalizing s with
  | nil => rfl
  | cons b bs ih => rw [State.byteSpan_cons, ih, State.byteStep_p, State.byteStep_cfg, List.foldl_cons]

theorem execAll_pb (bs : List Byte) (s : State) (h : s.spanning = none) :
    execAll (bs.map .pb) s = .next (s.byteSpan bs) := by
  induction bs generalizing s with
  | nil => rfl
  | cons b bs ih => exact (execAll_cons_of_next _ (exec_pb b h)).trans (ih _ (by simpa using h))

theorem execAll_pProcess (spans : List (List Byte)) (s : State) (h : s.spanning = none) :
    execAll (spans.map .pProcess) s = .next (s.byteSpan spans.flatten) := by
  induction spans generalizing s with
  | nil => rfl
  | cons bs spans ih =>
    rw [List.flatten_cons, State.byteSpan_append]
    exact (execAll_cons_of_next _ (exec_pProcess bs h)).trans (ih _ (by simpa using h))

/-! ### A span one byte a step -/

theorem stepAll_succ_of_next {n : Nat} {s t : State} (h : step s = .next t) : stepAll (n + 1) s = stepAll n t := by
  simp [stepAll, h]

theorem advanceParser_cons {s : State} {b : Byte} {bs : List Byte} (h : s.spanning = some (b :: bs)) :
    advanceParser s = .next ((s.byteStep b).withSpanning (if bs = [] then none else some bs)) := by
  cases bs <;> simp [advanceParser, h]

/-- The rest of a span in progress, one step a byte (R130; log 16). -/
theorem stepAll_advanceParser (bs : List Byte) (rest : List Input) (s : State) (hne : bs ≠ [])
    (hSpan : s.spanning = some bs) (hSched : s.sched = List.replicate bs.length (.advance .parser) ++ rest) :
    stepAll bs.length s = .next (((s.withSpanning none).withSched rest).byteSpan bs) := by
  induction bs generalizing s with
  | nil => exact absurd rfl hne
  | cons b bs ih =>
    have hStep : step s = .next (((s.withSched (List.replicate bs.length (.advance .parser) ++ rest)).byteStep
        b).withSpanning (if bs = [] then none else some bs)) := by
      rw [step_of_cons hSched]
      exact advanceParser_cons hSpan
    rw [List.length_cons, stepAll_succ_of_next hStep, State.byteStep_withSched, State.byteSpan_cons,
      State.byteStep_withSched, State.byteStep_withSpanning]
    by_cases hLast : bs = []
    · subst hLast; rfl
    · exact (ih _ hLast (by simp [hLast]) rfl).trans rfl

end Sys2Proof.Machine

namespace Sys2Proof

open Machine

/-- Settles O11: `FINALIZE` is the operation of the dispatch key; the two steps after it leave kind and record alone. -/
theorem commaFinalizesThenXorsThenStartsATerm : Obligations.CommaFinalizesThenXorsThenStartsATerm := by
  intro s hIdle
  refine ⟨decodeTerm s.p.key, s.withP (s.p.finalize s.cfg), s.byteComma, decode_term _, exec_decodeTerm_key s,
    exec_pbComma hIdle, rfl, rfl, by simp, by simp, ?index, rfl, Parser.tc_of_tlen_zero rfl, rfl, rfl,
    s.sameOutsideParser_refl⟩
  case index => simpa using nextIndex_toNat s.p.tidx

/-- Settles O12: as for the comma; the star is neither XORed nor stored. -/
theorem starFinalizesThenEndsTheChecksum : Obligations.StarFinalizesThenEndsTheChecksum := by
  intro s hIdle
  refine ⟨decodeTerm s.p.key, s.withP (s.p.finalize s.cfg), s.byteStar, decode_term _, exec_decodeTerm_key s,
    exec_pbStar hIdle, rfl, rfl, by simp, rfl, ?index, rfl, Parser.tc_of_tlen_zero rfl, rfl, rfl,
    s.sameOutsideParser_refl⟩
  case index => simpa using nextIndex_toNat s.p.tidx

/-- Settles O13: the condition is `CRC_OK`; on a match `PB_CR` is `PUBLISH`, by kind. -/
theorem carriageReturnPublishesExactlyOnAMatch : Obligations.CarriageReturnPublishesExactlyOnAMatch := by
  intro s hIdle
  refine ⟨s.byteCr, exec_pbCr hIdle, s.byteCr_p, s.byteCr_outside, fun hMatch => ?published, fun hMismatch => ?dropped⟩
  case published =>
    rw [State.byteCr_of_match (s.crcOk_iff.2 hMatch)]
    cases hKind : s.p.kind with
    | gga => rw [State.publish_of_gga hKind]; exact ⟨rfl, rfl⟩
    | rmc => rw [State.publish_of_rmc hKind]; exact ⟨rfl, rfl⟩
    | unknown => rw [State.publish_of_unknown hKind]; exact ⟨rfl, rfl⟩
  case dropped =>
    rw [State.byteCr_of_mismatch (Bool.eq_false_iff.2 fun h => hMismatch (s.crcOk_iff.1 h))]
    exact ⟨rfl, rfl⟩

/-- Settles O17: both effects are written out in the model. -/
theorem initZeroesParserAndFixAndNopNothing : Obligations.InitZeroesParserAndFixAndNopNothing := fun s =>
  ⟨fun hIdle => ⟨s.initParser, serially_none hIdle, rfl, rfl, rfl, s.sameOutsideParser_refl⟩,
    s.withEv .none, rfl, rfl, rfl, rfl, s.sameOutsideParser_refl⟩

/-- Settles O18: by the class of the byte. -/
theorem pbIsTheOperationOfTheClassOfItsByte : Obligations.PbIsTheOperationOfTheClassOfItsByte := by
  intro b i hDecode s
  obtain rfl : decodeByte b = i := Except.ok.inj hDecode
  exact ⟨(exec_decodeByte b s).symm, fun hIdle => ⟨_, exec_pb b hIdle⟩⟩

/-- Settles O19: both sequences end in `byteSpan`, and `byteSpan` of a concatenation is one after the other. -/
theorem processIsEveryByteInOrder : Obligations.ProcessIsEveryByteInOrder := fun s hIdle =>
  ⟨fun bytes => ⟨(exec_pProcess bytes hIdle).trans (execAll_pb bytes s hIdle).symm, _, exec_pProcess bytes hIdle⟩,
    fun spans => (execAll_pProcess spans s hIdle).trans (exec_pProcess _ hIdle).symm, exec_pProcess [] hIdle⟩

/-- Settles O20: an empty span ends at its start; any other is taken byte by byte. -/
theorem spanByteByByteEndsAsTheWholeSpan : Obligations.SpanByteByByteEndsAsTheWholeSpan := by
  intro s bytes rest hIdle hSched
  have hDecode : decode (encode (.pProcess bytes)) = .ok (.pProcess bytes) := decodeOfEncodeIsTheOperation _ rfl
  have hIdle' : ∀ l, (s.withSched l).spanning = none := fun _ => hIdle
  have hStart : step s = .next (if bytes = [] then s.withSched (List.replicate bytes.length (.advance .parser) ++ rest)
      else (s.withSched (List.replicate bytes.length (.advance .parser) ++ rest)).withSpanning (some bytes)) := by
    rw [step_of_start hSched hDecode]
    exact serially_none (hIdle' _)
  rw [stepAll_succ_of_next hStart, exec_pProcess bytes (hIdle' rest)]
  by_cases hEmpty : bytes = []
  · subst hEmpty; rfl
  · rw [if_neg hEmpty, stepAll_advanceParser bytes rest _ hEmpty rfl rfl]
    have hSame : (((s.withSched (List.replicate bytes.length (.advance .parser) ++ rest)).withSpanning
        (some bytes)).withSpanning none).withSched rest = (s.withSched rest).withSpanning s.spanning := by
      rw [hIdle]; rfl
    rw [hSame]; rfl

end Sys2Proof
end

section
/-!
PROOFS. The parser as a whole (40_parser_bytes.md section 4, 60_exceptions.md section 1): what operations on the parser's
side can do, when `fix` changes, and the byte strings without a `'$'`.
-/
namespace Sys2Proof.Machine

/-! ### What an operation on the parser's side can do -/

/-- The bytes that a byte operation or a parser command presents; `PB_OTHER` stands apart, since its operand need not be
of its class. -/
def carriedBytes : Instr → Option (List Byte)
  | .pbDollar => some [0x24]
  | .pbComma => some [0x2C]
  | .pbStar => some [0x2A]
  | .pbCr => some [0x0D]
  | .pb b => some [b]
  | .pProcess bytes => some bytes
  | _ => none

theorem exec_of_carriedBytes {i : Instr} {bs : List Byte} (s : State) (h : carriedBytes i = some bs) :
    exec i s = serially s (s.byteSpan bs) := by
  cases i with
  | pbDollar | pbComma | pbStar | pbCr | pb | pProcess => cases h; rfl
  | _ => cases h

/-- All but `P_PROCESS` present one byte, as `PB` or as the operation of its class. -/
theorem carriedBytes_cases {i : Instr} {bs : List Byte} (h : carriedBytes i = some bs) :
    i = .pProcess bs ∨ ∃ b, bs = [b] ∧ (i = .pb b ∨ i = decodeByte b) := by
  cases i with
  | pProcess bytes => cases h; exact .inl rfl
  | pb b => cases h; exact .inr ⟨b, rfl, .inl rfl⟩
  | pbDollar => cases h; exact .inr ⟨0x24, rfl, .inr rfl⟩
  | pbComma => cases h; exact .inr ⟨0x2C, rfl, .inr rfl⟩
  | pbStar => cases h; exact .inr ⟨0x2A, rfl, .inr rfl⟩
  | pbCr => cases h; exact .inr ⟨0x0D, rfl, .inr rfl⟩
  | _ => cases h

/-- What an operation that is no ring command can do. -/
theorem exec_parser_cases {i : Instr} {s t : State} (hSide : (encode i).format ≠ .rbcmd) (h : exec i s = .next t) :
    (∃ bs, carriedBytes i = some bs ∧ s.spanning = none ∧ t = s.byteSpan bs) ∨
    (∃ b, i = .pbOther b ∧ s.spanning = none ∧ t = s.byteOther b) ∨
    (i = .pNop ∧ t = s.withEv .none) ∨
    (i = .pInit ∧ s.spanning = none ∧ t = s.initParser) ∨
    ((encode i).format = .term ∧ t = s.withP (termEffect s.cfg s.p i)) := by
  cases hBytes : carriedBytes i with
  | some bs =>
    rw [exec_of_carriedBytes s hBytes] at h
    exact .inl ⟨bs, rfl, serially_next h⟩
  | none =>
    by_cases hTerm : (encode i).format = .term
    · rw [exec_of_term s hTerm] at h
      cases h
      exact .inr (.inr (.inr (.inr ⟨hTerm, rfl⟩)))
    · cases i with
      | pbOther b => exact .inr (.inl ⟨b, rfl, serially_next h⟩)
      | pNop => cases h; exact .inr (.inr (.inl ⟨rfl, rfl⟩))
      | pInit => exact .inr (.inr (.inr (.inl ⟨rfl, serially_next h⟩)))
      | pbDollar | pbComma | pbStar | pbCr | pb | pProcess => cases hBytes
      | rbInit | rbReset | rbWrite | rbRead | rbPeek | rbFree | rbOcc | rbRsvd7 => exact absurd rfl hSide
      | _ => exact absurd rfl hTerm

theorem State.initParser_outside (s : State) : s.SameOutsideParser s.initParser := s.sameOutsideParser_refl

theorem exec_parser_outside {i : Instr} {s t : State} (hSide : (encode i).format ≠ .rbcmd) (h : exec i s = .next t) :
    s.SameOutsideParser t := by
  obtain ⟨bs, -, -, rfl⟩ | ⟨b, -, -, rfl⟩ | ⟨-, rfl⟩ | ⟨-, -, rfl⟩ | ⟨-, rfl⟩ := exec_parser_cases hSide h
  · exact State.byteSpan_outside bs s
  · exact s.byteOther_outside b
  · exact s.sameOutsideParser_refl
  · exact s.initParser_outside
  · exact s.sameOutsideParser_refl

theorem State.sameOutsideRing_refl (s : State) : s.SameOutsideRing s := ⟨rfl, rfl, rfl, rfl, rfl, rfl, rfl⟩

theorem State.respond_outside (s : State) (port : Agent) (o : RingOutput) :
    s.SameOutsideRing (s.respond port o) ∧ (s.respond port o).writing = s.writing ∧
      (s.respond port o).reading = s.reading := by
  cases port <;> exact ⟨s.sameOutsideRing_refl, rfl, rfl⟩

theorem exec_rbRsvd7_next {port : Agent} {s t : State} (h : exec (.rbRsvd7 port) s = .next t) :
    t = s.respond port ⟨0, []⟩ := by
  rw [exec, execRbRsvd7] at h
  split at h
  · cases h; rfl
  · cases h

/-- What a ring command can do. -/
theorem exec_ring_cases {i : Instr} {s t : State} (hSide : (encode i).format = .rbcmd) (h : exec i s = .next t) :
    (emptiesRing i = true ∧ s.writing = none ∧ s.reading = none ∧ t = s.emptyRing) ∨
    (∃ data, i = .rbWrite data ∧ s.writing = none ∧
      t = (s.storeAndAdvance data (min data.length s.free)).withProdOut ⟨min data.length s.free, []⟩) ∨
    (∃ n, i = .rbRead n ∧ s.reading = none ∧
      t = (s.advanceRead (min n s.occ)).withConsOut ⟨min n s.occ, s.load s.rb.r (min n s.occ)⟩) ∨
    (∃ skip n, i = .rbPeek skip n ∧ s.reading = none ∧
      t = s.withConsOut ⟨peekCount s.cfg.C s.rb.r s.rb.w skip n,
        s.load (s.rb.r + skip) (peekCount s.cfg.C s.rb.r s.rb.w skip n)⟩) ∨
    (∃ port k, (i = .rbFree port ∧ k = s.free ∨ i = .rbOcc port ∧ k = s.occ ∨ i = .rbRsvd7 port ∧ k = 0) ∧
      t = s.respond port ⟨k, []⟩) := by
  cases i with
  | rbInit port => exact .inl ⟨rfl, ifQuiescent_next h⟩
  | rbReset port => exact .inl ⟨rfl, ifQuiescent_next h⟩
  | rbWrite data => exact .inr (.inl ⟨data, rfl, ifNotWriting_next h⟩)
  | rbRead n => exact .inr (.inr (.inl ⟨n, rfl, ifNotReading_next h⟩))
  | rbPeek skip n => exact .inr (.inr (.inr (.inl ⟨skip, n, rfl, ifNotReading_next h⟩)))
  | rbFree port => cases h; exact .inr (.inr (.inr (.inr ⟨port, _, .inl ⟨rfl, rfl⟩, rfl⟩)))
  | rbOcc port => cases h; exact .inr (.inr (.inr (.inr ⟨port, _, .inr (.inl ⟨rfl, rfl⟩), rfl⟩)))
  | rbRsvd7 port =>
    exact .inr (.inr (.inr (.inr ⟨port, 0, .inr (.inr ⟨rfl, rfl⟩), exec_rbRsvd7_next h⟩)))
  | _ => cases hSide

theorem exec_ring_outside {i : Instr} {s t : State} (hSide : (encode i).format = .rbcmd) (h : exec i s = .next t) :
    s.SameOutsideRing t ∧ t.writing = s.writing ∧ t.reading = s.reading := by
  obtain ⟨-, -, -, rfl⟩ | ⟨data, -, -, rfl⟩ | ⟨n, -, -, rfl⟩ | ⟨skip, n, -, -, rfl⟩ | ⟨port, k, -, rfl⟩ :=
    exec_ring_cases hSide h
  · exact ⟨s.sameOutsideRing_refl, rfl, rfl⟩
  · exact ⟨s.sameOutsideRing_refl, rfl, rfl⟩
  · exact ⟨s.sameOutsideRing_refl, rfl, rfl⟩
  · exact ⟨s.sameOutsideRing_refl, rfl, rfl⟩
  · exact s.respond_outside port _

theorem exec_ring_fix {i : Instr} {s t : State} (hSide : (encode i).format = .rbcmd) (h : exec i s = .next t) :
    t.fix = s.fix := by
  obtain ⟨⟨-, hFix, -⟩, -⟩ := exec_ring_outside hSide h
  exact hFix

/-! ### When `fix` changes -/

/-- A carriage return that reaches `fix` matches, in a sentence of a known kind (R128, R160). -/
theorem State.byteCr_fix_ne {s : State} (h : s.byteCr.fix ≠ s.fix) : s.crcOk = true ∧ s.p.kind ≠ .unknown := by
  obtain ⟨hMatch, -⟩ | ⟨-, hCr⟩ := s.byteCr_cases
  · refine ⟨hMatch, fun hUnknown => h ?_⟩
    rw [State.byteCr_of_match hMatch, State.publish_of_unknown hUnknown]; rfl
  · exact absurd (by rw [hCr]; rfl) h

theorem State.byteStep_fix_ne {s : State} {b : Byte} (h : (s.byteStep b).fix ≠ s.fix) :
    b = 0x0D ∧ s.crcOk = true ∧ s.p.kind ≠ .unknown := by
  by_cases hCr : b = 0x0D
  · subst hCr; exact ⟨rfl, State.byteCr_fix_ne h⟩
  · exact absurd (s.byteStep_fix_of_ne_cr hCr) h

/-- A span that changes `fix` does so at one of its carriage returns. -/
theorem State.byteSpan_fix_ne {bs : List Byte} {s : State} (h : (s.byteSpan bs).fix ≠ s.fix) :
    ∃ before after, bs = before ++ 0x0D :: after ∧ (s.byteSpan before).crcOk = true ∧
      (s.byteSpan before).p.kind ≠ .unknown := by
  induction bs generalizing s with
  | nil => exact absurd rfl h
  | cons b bs ih =>
    by_cases hFirst : (s.byteStep b).fix = s.fix
    · obtain ⟨before, after, rfl, hMatch, hKind⟩ := ih (s := s.byteStep b) (by rwa [hFirst])
      exact ⟨b :: before, after, rfl, hMatch, hKind⟩
    · obtain ⟨rfl, hMatch, hKind⟩ := State.byteStep_fix_ne hFirst
      exact ⟨[], bs, rfl, hMatch, hKind⟩

/-! ### Groups of `fix` -/

/-- Each group of `t.fix` is the one of `s`, the scratch record of `s`, or zero (R84). -/
def State.GroupsWhole (s t : State) : Prop :=
  (t.fix.gga = s.fix.gga ∨ t.fix.gga = s.p.s.gga ∨ t.fix.gga = GgaRecord.zero) ∧
  (t.fix.rmc = s.fix.rmc ∨ t.fix.rmc = s.p.s.rmc ∨ t.fix.rmc = RmcRecord.zero)

theorem State.groupsWhole_of_fix_eq {s t : State} (h : t.fix = s.fix) : s.GroupsWhole t := by
  simp [State.GroupsWhole, h]

theorem State.groupsWhole_of_zero {s t : State} (h : t.fix = Records.zero) : s.GroupsWhole t := by
  simp [State.GroupsWhole, h, Records.zero]

theorem State.publish_groupsWhole (s : State) : s.GroupsWhole s.publish := by
  obtain ⟨-, h⟩ | ⟨-, h⟩ | ⟨-, h⟩ := s.publish_cases <;> rw [h] <;> simp [State.GroupsWhole]

theorem State.byteStep_groupsWhole (s : State) (b : Byte) : s.GroupsWhole (s.byteStep b) := by
  by_cases hCr : b = 0x0D
  · subst hCr
    rw [State.byteStep_cr]
    obtain ⟨-, h⟩ | ⟨-, h⟩ := s.byteCr_cases
    · rw [h]; exact s.publish_groupsWhole
    · rw [h]; exact State.groupsWhole_of_fix_eq rfl
  · exact State.groupsWhole_of_fix_eq (s.byteStep_fix_of_ne_cr hCr)

/-- An operation other than a whole span presents at most one byte. -/
theorem exec_groupsWhole {i : Instr} {s t : State} (h : exec i s = .next t) (hi : ∀ bs, i ≠ .pProcess bs) :
    s.GroupsWhole t := by
  by_cases hSide : (encode i).format = .rbcmd
  · exact State.groupsWhole_of_fix_eq (exec_ring_fix hSide h)
  · obtain ⟨bs, hBytes, -, rfl⟩ | ⟨b, -, -, rfl⟩ | ⟨-, rfl⟩ | ⟨-, -, rfl⟩ | ⟨-, rfl⟩ := exec_parser_cases hSide h
    · obtain rfl | ⟨b, rfl, -⟩ := carriedBytes_cases hBytes
      · exact absurd rfl (hi bs)
      · exact s.byteStep_groupsWhole b
    · exact State.groupsWhole_of_fix_eq rfl
    · exact State.groupsWhole_of_fix_eq rfl
    · exact State.groupsWhole_of_zero rfl
    · exact State.groupsWhole_of_fix_eq rfl

/-! ### First micro-steps -/

/-- What a first micro-step can do: a snapshot, a span accepted, or a whole operation. -/
theorem begin_cases {i : Instr} {s t : State} (h : begin i s = .next t) :
    (∃ data, i = .rbWrite data ∧ s.writing = none ∧ t = s.withWriting (some
      { r0 := s.rb.r, w0 := s.rb.w, k := min data.length s.free, i := 0, data := data })) ∨
    (∃ n, i = .rbRead n ∧ s.reading = none ∧ t = s.withReading (some
      { commits := true, r0 := s.rb.r, w0 := s.rb.w, skip := 0, k := min n s.occ, out := [] })) ∨
    (∃ skip n, i = .rbPeek skip n ∧ s.reading = none ∧
      ((peekCount s.cfg.C s.rb.r s.rb.w skip n = 0 ∧ t = s.peekReturn []) ∨
       (peekCount s.cfg.C s.rb.r s.rb.w skip n ≠ 0 ∧ t = s.withReading (some
        { commits := false, r0 := s.rb.r, w0 := s.rb.w, skip := skip,
          k := peekCount s.cfg.C s.rb.r s.rb.w skip n, out := [] })))) ∨
    (∃ bytes, i = .pProcess bytes ∧ s.spanning = none ∧
      ((bytes = [] ∧ t = s) ∨ (bytes ≠ [] ∧ t = s.withSpanning (some bytes)))) ∨
    ((∀ data, i ≠ .rbWrite data) ∧ (∀ n, i ≠ .rbRead n) ∧ (∀ bytes, i ≠ .pProcess bytes) ∧ exec i s = .next t) := by
  cases i with
  | rbWrite data => exact .inl ⟨data, rfl, ifNotWriting_next h⟩
  | rbRead n => exact .inr (.inl ⟨n, rfl, ifNotReading_next h⟩)
  | rbPeek skip n =>
    obtain ⟨hFree, rfl⟩ := ifNotReading_next h
    refine .inr (.inr (.inl ⟨skip, n, rfl, hFree, ?_⟩))
    split
    · exact .inl ⟨by assumption, rfl⟩
    · exact .inr ⟨by assumption, rfl⟩
  | pProcess bytes =>
    obtain ⟨hIdle, rfl⟩ := serially_next h
    refine .inr (.inr (.inr (.inl ⟨bytes, rfl, hIdle, ?_⟩)))
    split
    · exact .inl ⟨by assumption, rfl⟩
    · exact .inr ⟨by assumption, rfl⟩
  | _ => exact .inr (.inr (.inr (.inr ⟨nofun, nofun, nofun, h⟩)))

theorem begin_groupsWhole {i : Instr} {s t : State} (h : begin i s = .next t) : s.GroupsWhole t := by
  obtain ⟨data, -, -, rfl⟩ | ⟨n, -, -, rfl⟩ | ⟨skip, n, -, -, ⟨-, rfl⟩ | ⟨-, rfl⟩⟩ |
    ⟨bytes, -, -, ⟨-, rfl⟩ | ⟨-, rfl⟩⟩ | ⟨-, -, hSpan, hExec⟩ := begin_cases h
  · exact State.groupsWhole_of_fix_eq rfl
  · exact State.groupsWhole_of_fix_eq rfl
  · exact State.groupsWhole_of_fix_eq rfl
  · exact State.groupsWhole_of_fix_eq rfl
  · exact State.groupsWhole_of_fix_eq rfl
  · exact State.groupsWhole_of_fix_eq rfl
  · exact exec_groupsWhole hExec hSpan

theorem State.readMore_fix (s : State) (x : ReadTransfer) : (s.readMore x).fix = s.fix := by
  unfold State.readMore
  split <;> rfl

theorem advance_groupsWhole {lane : Lane} {s t : State} (h : advance lane s = .next t) : s.GroupsWhole t := by
  cases lane with
  | write =>
    obtain ⟨x, -, ⟨-, rfl⟩ | ⟨-, rfl⟩⟩ := advanceWrite_next h
    · exact State.groupsWhole_of_fix_eq rfl
    · exact State.groupsWhole_of_fix_eq rfl
  | read =>
    obtain ⟨x, -, ⟨-, rfl⟩ | ⟨-, -, rfl⟩ | ⟨-, -, rfl⟩⟩ := advanceRead_next h
    · exact State.groupsWhole_of_fix_eq (s.readMore_fix x)
    · exact State.groupsWhole_of_fix_eq rfl
    · exact State.groupsWhole_of_fix_eq rfl
  | parser =>
    obtain ⟨-, rfl⟩ | ⟨b, bs, -, rfl⟩ := advanceParser_next h
    · exact State.groupsWhole_of_fix_eq rfl
    · exact s.byteStep_groupsWhole b

/-! ### Without a `'$'` -/

/-- The kind is Unknown and no `'$'` is kept: what R133 says holds until the next `'$'`. -/
def Parser.Unopened (p : Parser) : Prop := p.kind = .unknown ∧ Ascii.dollar ∉ p.text

theorem identify_of_no_dollar {m : IdMatch} {t : Text} (h : Ascii.dollar ∉ t) : identify m t = .unknown := by
  have hNo : ∀ u, matchesLiteral m t (Ascii.dollar :: u) = true → False := by
    intro u hMatch
    cases m
    · have hText : t = Ascii.dollar :: u := by simpa [matchesLiteral] using hMatch
      exact h (by simp [hText])
    · have hText : t.take 6 = Ascii.dollar :: u := by simpa [matchesLiteral] using hMatch
      have hTake : Ascii.dollar ∈ t.take 6 := by simp [hText]
      exact h (List.mem_of_mem_take hTake)
  exact identify_of_none (hNo _) (hNo _) (hNo _) (hNo _)

theorem Parser.Unopened.finalize {p : Parser} (cfg : Config) (h : p.Unopened) : (p.finalize cfg).kind = .unknown := by
  obtain ⟨hKind, hText⟩ := h
  unfold Parser.finalize
  split
  · rw [Parser.identifyTerm_of_unknown (identify_of_no_dollar hText)]
  · rw [hKind]; exact hKind

theorem Parser.Unopened.feed {p : Parser} {b : Byte} (cfg : Config) (h : p.Unopened) (hb : b ≠ 0x24) :
    (p.feed cfg b).Unopened := by
  obtain rfl | rfl | rfl | rfl | hPlain := byte_cases b
  · exact absurd rfl hb
  · exact ⟨h.finalize cfg, by rw [Parser.feed_comma, Parser.text_termNext]; simp⟩
  · exact ⟨h.finalize cfg, by rw [Parser.feed_star, Parser.text_termNext]; simp⟩
  · exact h
  · obtain ⟨hKind, hText⟩ := h
    rw [Parser.feed_plain cfg p hPlain]
    refine ⟨by simpa using hKind, ?_⟩
    obtain hAdd | hAdd := (p.crcOther b).termAdd_cases b
    · rw [hAdd, Parser.crcOther_text]; exact fun hMem => (List.mem_append.1 hMem).elim hText (by simpa using hb.symm)
    · rw [hAdd, Parser.crcOther_text]; exact hText

theorem State.byteSpan_unopened {bs : List Byte} {s : State} (h : s.p.Unopened) (hb : (0x24 : Byte) ∉ bs) :
    (s.byteSpan bs).p.Unopened ∧ (s.byteSpan bs).fix = s.fix := by
  induction bs generalizing s with
  | nil => exact ⟨h, rfl⟩
  | cons b bs ih =>
    obtain ⟨hFirst, hRest⟩ := not_or.1 (mt List.mem_cons.2 hb)
    have hStep : (s.byteStep b).p.Unopened := by rw [State.byteStep_p]; exact h.feed s.cfg (Ne.symm hFirst)
    have hFix : (s.byteStep b).fix = s.fix := by
      by_contra hChanged
      obtain ⟨-, -, hKnown⟩ := State.byteStep_fix_ne hChanged
      exact hKnown h.1
    obtain ⟨hUnopened, hSame⟩ := ih hStep hRest
    exact ⟨hUnopened, hSame.trans hFix⟩

end Sys2Proof.Machine

namespace Sys2Proof

open Machine

/-- Settles O36: an operation on the ring's side leaves `fix` alone, and so does every one of the parser's side but
`P_INIT` and the bytes, of which only a carriage return reaches `fix`. -/
theorem fixChangesOnlyByInitOrAMatchingSentence : Obligations.FixChangesOnlyByInitOrAMatchingSentence := by
  intro i s t hExec hChanged
  have hSide : (encode i).format ≠ .rbcmd := fun hRing => hChanged (exec_ring_fix hRing hExec)
  obtain ⟨bs, hBytes, hIdle, rfl⟩ | ⟨b, -, -, rfl⟩ | ⟨-, rfl⟩ | ⟨rfl, -, -⟩ | ⟨-, rfl⟩ := exec_parser_cases hSide hExec
  · obtain rfl | ⟨b, rfl, hOne⟩ := carriedBytes_cases hBytes
    · obtain ⟨before, after, rfl, hMatch, hKind⟩ := State.byteSpan_fix_ne hChanged
      exact .inr (.inr ⟨before, after, _, rfl, exec_pProcess before hIdle, hMatch, hKind⟩)
    · obtain ⟨rfl, hMatch, hKind⟩ := State.byteStep_fix_ne hChanged
      exact .inr (.inl ⟨hOne.symm, hMatch, hKind⟩)
  · exact absurd rfl hChanged
  · exact absurd rfl hChanged
  · exact .inl rfl
  · exact absurd rfl hChanged

/-- Settles O37: one step presents at most one byte, whose only write to `fix` is `PUBLISH`. -/
theorem noStepMixesAFixGroup : Obligations.NoStepMixesAFixGroup := by
  intro s t hStep hNoSpan
  show s.GroupsWhole t
  obtain ⟨-, rfl⟩ | ⟨tr, rest, i, hSched, hDecode, hExec⟩ | ⟨tr, rest, i, -, -, hBegin⟩ | ⟨lane, rest, -, hAdvance⟩ |
    ⟨rest, -, rfl⟩ := step_cases hStep
  · exact State.groupsWhole_of_fix_eq rfl
  · have hGroups := exec_groupsWhole hExec fun bs hi => hNoSpan tr rest bs hSched (hi ▸ hDecode)
    exact hGroups
  · have hGroups := begin_groupsWhole hBegin
    exact hGroups
  · have hGroups := advance_groupsWhole hAdvance
    exact hGroups
  · exact State.groupsWhole_of_zero rfl

/-- Settles O38: no kept `'$'` means no literal, so the kind stays Unknown, which publishes nothing. -/
theorem noDollarNoFix : Obligations.NoDollarNoFix := by
  intro s bytes hIdle hZero hBytes
  have hUnopened : s.p.Unopened := by rw [hZero]; exact ⟨rfl, by simp⟩
  obtain ⟨⟨hKind, -⟩, hFix⟩ := State.byteSpan_unopened hUnopened hBytes
  exact ⟨s.byteSpan bytes, exec_pProcess bytes hIdle, hFix, hKind⟩

end Sys2Proof
end

section
/-!
PROOFS. Stale term cells (10_state.md section 4, 93_implementation_defined.md U6; `Parser.Looks`): every operation reads
the term through its text, so parser states that look alike go on alike.
-/
namespace Sys2Proof.Machine

/-! ### Parser states that look alike -/

theorem Parser.looks_refl (p : Parser) : p.Looks p := ⟨rfl, rfl, rfl, rfl, rfl, rfl, rfl⟩

section
variable {p q : Parser}

theorem Parser.Looks.withGga {g g' : GgaRecord} (h : p.Looks q) (hg : g' = g) : (p.withGga g).Looks (q.withGga g') := by
  obtain ⟨hText, hTlen, hKind, hTidx, hStar, hCsum, hS⟩ := h
  exact ⟨hText, hTlen, hKind, hTidx, hStar, hCsum, by rw [Parser.withGga_s, Parser.withGga_s, hS, hg]⟩

theorem Parser.Looks.withRmc {r r' : RmcRecord} (h : p.Looks q) (hr : r' = r) : (p.withRmc r).Looks (q.withRmc r') := by
  obtain ⟨hText, hTlen, hKind, hTidx, hStar, hCsum, hS⟩ := h
  exact ⟨hText, hTlen, hKind, hTidx, hStar, hCsum, by rw [Parser.withRmc_s, Parser.withRmc_s, hS, hr]⟩

theorem Parser.Looks.withKind (k : Kind) (h : p.Looks q) : ({ p with kind := k } : Parser).Looks { q with kind := k } := by
  obtain ⟨hText, hTlen, -, hTidx, hStar, hCsum, hS⟩ := h
  exact ⟨hText, hTlen, rfl, hTidx, hStar, hCsum, hS⟩

theorem Parser.Looks.text (h : p.Looks q) : q.text = p.text := h.1

theorem Parser.Looks.records (h : p.Looks q) : q.s = p.s := by
  obtain ⟨-, -, -, -, -, -, hS⟩ := h
  exact hS

theorem Parser.Looks.key (h : p.Looks q) : q.key = p.key := by
  obtain ⟨-, -, hKind, hTidx, -⟩ := h
  rw [Parser.key, Parser.key, hKind, hTidx]

theorem Parser.Looks.identifyTerm (cfg : Config) (h : p.Looks q) : (p.identifyTerm cfg).Looks (q.identifyTerm cfg) := by
  cases hName : identify cfg.idMatch p.text with
  | gga =>
    rw [Parser.identifyTerm_of_gga hName, Parser.identifyTerm_of_gga (by rw [h.text, hName])]
    exact (h.withKind .gga).withGga rfl
  | rmc =>
    rw [Parser.identifyTerm_of_rmc hName, Parser.identifyTerm_of_rmc (by rw [h.text, hName])]
    exact (h.withKind .rmc).withRmc rfl
  | unknown =>
    rw [Parser.identifyTerm_of_unknown hName, Parser.identifyTerm_of_unknown (by rw [h.text, hName])]
    exact h.withKind .unknown

theorem Parser.Looks.ggaNs (h : p.Looks q) : p.ggaNs.Looks q.ggaNs := by
  cases hSouth : isSouth p.text
  · rwa [Parser.ggaNs_of_not_south hSouth, Parser.ggaNs_of_not_south (by rw [h.text, hSouth])]
  · rw [Parser.ggaNs_of_south hSouth, Parser.ggaNs_of_south (by rw [h.text, hSouth])]
    exact h.withGga (by rw [h.records])

theorem Parser.Looks.ggaEw (h : p.Looks q) : p.ggaEw.Looks q.ggaEw := by
  cases hWest : isWest p.text
  · rwa [Parser.ggaEw_of_not_west hWest, Parser.ggaEw_of_not_west (by rw [h.text, hWest])]
  · rw [Parser.ggaEw_of_west hWest, Parser.ggaEw_of_west (by rw [h.text, hWest])]
    exact h.withGga (by rw [h.records])

theorem Parser.Looks.rmcVarew (h : p.Looks q) : p.rmcVarew.Looks q.rmcVarew := by
  cases hWest : isWest p.text
  · rwa [Parser.rmcVarew_of_not_west hWest, Parser.rmcVarew_of_not_west (by rw [h.text, hWest])]
  · rw [Parser.rmcVarew_of_west hWest, Parser.rmcVarew_of_west (by rw [h.text, hWest])]
    exact h.withRmc (by rw [h.records])

/-- Every term operation reads the text and the record only. -/
theorem Parser.Looks.termEffect (cfg : Config) (i : Instr) (h : p.Looks q) :
    (termEffect cfg p i).Looks (termEffect cfg q i) := by
  cases i with
  | tId => exact h.identifyTerm cfg
  | ggaTime => exact h.withGga (by rw [h.text, h.records])
  | ggaLat => exact h.withGga (by rw [h.text, h.records])
  | ggaNs => exact h.ggaNs
  | ggaLon => exact h.withGga (by rw [h.text, h.records])
  | ggaEw => exact h.ggaEw
  | ggaFixq => exact h.withGga (by rw [h.text, h.records])
  | ggaSats => exact h.withGga (by rw [h.text, h.records])
  | ggaAlt => exact h.withGga (by rw [h.text, h.records])
  | ggaGeoid => exact h.withGga (by rw [h.text, h.records])
  | rmcValid => exact h.withRmc (by rw [h.text, h.records])
  | rmcSpeed => exact h.withRmc (by rw [h.text, h.records])
  | rmcCourse => exact h.withRmc (by rw [h.text, h.records])
  | rmcDate => exact h.withRmc (by rw [h.text, h.records])
  | rmcVar => exact h.withRmc (by rw [h.text, h.records])
  | rmcVarew => exact h.rmcVarew
  | _ => exact h

theorem Parser.Looks.finalize (cfg : Config) (h : p.Looks q) : (p.finalize cfg).Looks (q.finalize cfg) := by
  rw [Parser.finalize_eq_termEffect, Parser.finalize_eq_termEffect, h.key]
  exact h.termEffect cfg _

theorem Parser.Looks.crcAdd (b : Byte) (h : p.Looks q) : (p.crcAdd b).Looks (q.crcAdd b) := by
  obtain ⟨hText, hTlen, hKind, hTidx, hStar, hCsum, hS⟩ := h
  exact ⟨hText, hTlen, hKind, hTidx, hStar, by rw [Parser.crcAdd_csum, Parser.crcAdd_csum, hCsum], hS⟩

theorem Parser.Looks.setStar (h : p.Looks q) : p.setStar.Looks q.setStar := by
  obtain ⟨hText, hTlen, hKind, hTidx, -, hCsum, hS⟩ := h
  exact ⟨hText, hTlen, hKind, hTidx, rfl, hCsum, hS⟩

theorem Parser.Looks.termNext (h : p.Looks q) : p.termNext.Looks q.termNext := by
  obtain ⟨-, -, hKind, hTidx, hStar, hCsum, hS⟩ := h
  exact ⟨by simp, rfl, hKind, by rw [Parser.termNext_tidx, Parser.termNext_tidx, hTidx], hStar, hCsum, hS⟩

theorem Parser.Looks.crcOther (b : Byte) (h : p.Looks q) : (p.crcOther b).Looks (q.crcOther b) := by
  have hStar : q.star = p.star := h.2.2.2.2.1
  unfold Parser.crcOther
  rw [hStar]
  split
  · exact h
  · exact h.crcAdd b

theorem Parser.Looks.termAdd (b : Byte) (h : p.Looks q) : (p.termAdd b).Looks (q.termAdd b) := by
  obtain ⟨hText, hTlen, hKind, hTidx, hStar, hCsum, hS⟩ := h
  by_cases hRoom : p.tlen.val < 12
  · have hRoom' : q.tlen.val < 12 := by rwa [hTlen]
    refine ⟨?text, ?tlen, by simpa using hKind, by simpa using hTidx, by simpa using hStar, by simpa using hCsum,
      by simpa using hS⟩
    case text => rw [Parser.text_termAdd b hRoom, Parser.text_termAdd b hRoom', hText]
    case tlen => exact Fin.ext (by rw [Parser.termAdd_tlen_val b hRoom, Parser.termAdd_tlen_val b hRoom', hTlen])
  · rw [Parser.termAdd_full b hRoom, Parser.termAdd_full b (by rwa [hTlen])]
    exact ⟨hText, hTlen, hKind, hTidx, hStar, hCsum, hS⟩

/-- Two parser states look alike after `'$'`, whatever they were (R125). -/
theorem Parser.restart_looks (p q : Parser) : p.restart.Looks q.restart :=
  ⟨by simp, rfl, rfl, rfl, rfl, rfl, rfl⟩

theorem Parser.Looks.feed (cfg : Config) (b : Byte) (h : p.Looks q) : (p.feed cfg b).Looks (q.feed cfg b) := by
  obtain rfl | rfl | rfl | rfl | hPlain := byte_cases b
  · exact (p.restart_looks q).termAdd _
  · exact ((h.finalize cfg).crcAdd _).termNext
  · exact (h.finalize cfg).setStar.termNext
  · exact h
  · rw [Parser.feed_plain cfg p hPlain, Parser.feed_plain cfg q hPlain]
    exact (h.crcOther b).termAdd b

/-! ### States that look alike -/

theorem State.crcOk_withP {s : State} (h : s.p.Looks q) : (s.withP q).crcOk = s.crcOk := by
  obtain ⟨hText, -, -, -, -, hCsum, -⟩ := h
  rw [State.crcOk, State.crcOk, State.withP_p, State.withP_cfg, hText, hCsum]

theorem State.publish_withP {s : State} (h : s.p.Looks q) : (s.withP q).publish = s.publish.withP q := by
  have hS := h.records
  obtain ⟨-, -, hKind, -⟩ := h
  obtain ⟨hk, hPublish⟩ | ⟨hk, hPublish⟩ | ⟨hk, hPublish⟩ := s.publish_cases
  · rw [hPublish, State.publish_of_gga (hKind.trans hk), State.withP_p, hS]; rfl
  · rw [hPublish, State.publish_of_rmc (hKind.trans hk), State.withP_p, hS]; rfl
  · rw [hPublish, State.publish_of_unknown (hKind.trans hk)]; rfl

theorem State.byteCr_withP {s : State} (h : s.p.Looks q) : (s.withP q).byteCr = s.byteCr.withP q := by
  obtain ⟨hMatch, hCr⟩ | ⟨hMismatch, hCr⟩ := s.byteCr_cases
  · rw [hCr, State.byteCr_of_match (by rw [State.crcOk_withP h, hMatch]), State.publish_withP h]
  · rw [hCr, State.byteCr_of_mismatch (by rw [State.crcOk_withP h, hMismatch])]; rfl

theorem State.byteOther_withP {s : State} (b : Byte) (h : s.p.Looks q) :
    (s.withP q).byteOther b = (s.byteOther b).withP ((q.crcOther b).termAdd b) := by
  have hFull : q.termFull = s.p.termFull := by
    obtain ⟨-, hTlen, -⟩ := h
    rw [Parser.termFull, Parser.termFull, hTlen]
  rw [State.byteOther, State.withP_p, hFull]; rfl

theorem State.byteStep_withP {s : State} (b : Byte) (h : s.p.Looks q) :
    (s.withP q).byteStep b = (s.byteStep b).withP (q.feed s.cfg b) := by
  obtain rfl | rfl | rfl | rfl | hPlain := byte_cases b
  · rfl
  · rfl
  · rfl
  · exact State.byteCr_withP h
  · rw [State.byteStep_plain _ hPlain, State.byteStep_plain _ hPlain, Parser.feed_plain _ _ hPlain,
      State.byteOther_withP b h]

/-- Spans from states that look alike end in states that look alike. -/
theorem State.byteSpan_withP (bs : List Byte) {s : State} (h : s.p.Looks q) :
    ∃ q', (s.withP q).byteSpan bs = (s.byteSpan bs).withP q' ∧ (s.byteSpan bs).p.Looks q' := by
  induction bs generalizing s q with
  | nil => exact ⟨q, rfl, h⟩
  | cons b bs ih =>
    have hNext : (s.byteStep b).p.Looks (q.feed s.cfg b) := by
      rw [State.byteStep_p]
      exact h.feed s.cfg b
    rw [State.byteSpan_cons, State.byteStep_withP b h, State.byteSpan_cons]
    exact ih hNext

end

/-- Operations on the parser's side. -/
theorem exec_parser_withP {i : Instr} {s t : State} {q : Parser} (hSide : (encode i).format ≠ .rbcmd)
    (h : s.p.Looks q) (hExec : exec i s = .next t) :
    ∃ q', exec i (s.withP q) = .next (t.withP q') ∧ t.p.Looks q' := by
  obtain ⟨bs, hBytes, hIdle, rfl⟩ | ⟨b, rfl, hIdle, rfl⟩ | ⟨rfl, rfl⟩ | ⟨rfl, hIdle, rfl⟩ | ⟨hTerm, rfl⟩ :=
    exec_parser_cases hSide hExec
  · obtain ⟨q', hSpan, hLooks⟩ := State.byteSpan_withP bs h
    rw [exec_of_carriedBytes _ hBytes, serially_none (by simpa using hIdle), hSpan]
    exact ⟨q', rfl, hLooks⟩
  · rw [exec_pbOther b (by simpa using hIdle), State.byteOther_withP b h]
    exact ⟨_, rfl, (h.crcOther b).termAdd b⟩
  · exact ⟨q, rfl, h⟩
  · exact ⟨Parser.zero, serially_none hIdle, Parser.zero.looks_refl⟩
  · rw [exec_of_term _ hTerm]
    exact ⟨_, rfl, h.termEffect s.cfg i⟩

theorem State.respond_withP (s : State) (q : Parser) (port : Agent) (o : RingOutput) :
    (s.withP q).respond port o = (s.respond port o).withP q := by cases port <;> rfl

/-- A ring command does not see ParserState. -/
theorem exec_ring_withP {i : Instr} {s t : State} (q : Parser) (hSide : (encode i).format = .rbcmd)
    (hExec : exec i s = .next t) : exec i (s.withP q) = .next (t.withP q) ∧ t.p = s.p := by
  obtain ⟨⟨hP, -⟩, -⟩ := exec_ring_outside hSide hExec
  refine ⟨?_, hP⟩
  cases i with
  | rbInit port => obtain ⟨hw, hr, rfl⟩ := ifQuiescent_next hExec; exact ifQuiescent_none hw hr
  | rbReset port => obtain ⟨hw, hr, rfl⟩ := ifQuiescent_next hExec; exact ifQuiescent_none hw hr
  | rbWrite data => obtain ⟨hw, rfl⟩ := ifNotWriting_next hExec; exact ifNotWriting_none hw
  | rbRead n => obtain ⟨hr, rfl⟩ := ifNotReading_next hExec; exact ifNotReading_none hr
  | rbPeek skip n => obtain ⟨hr, rfl⟩ := ifNotReading_next hExec; exact ifNotReading_none hr
  | rbFree port => cases hExec; exact congrArg _ (s.respond_withP q port _)
  | rbOcc port => cases hExec; exact congrArg _ (s.respond_withP q port _)
  | rbRsvd7 port =>
    rw [exec, execRbRsvd7] at hExec ⊢
    split at hExec
    · rename_i hReserved
      cases hExec
      rw [State.withP_cfg, hReserved]
      exact congrArg _ (s.respond_withP q port _)
    · cases hExec
  | _ => cases hSide

end Sys2Proof.Machine

namespace Sys2Proof

open Machine

/-- Settles O42: on the ring's side ParserState is not read; on the parser's side it is read through what `Looks` keeps,
along a span by induction. -/
theorem staleTermCellsAreNeverRead : Obligations.StaleTermCellsAreNeverRead := by
  intro i s t q hLooks hExec
  by_cases hSide : (encode i).format = .rbcmd
  · obtain ⟨hNext, hP⟩ := exec_ring_withP q hSide hExec
    exact ⟨q, hNext, by rwa [hP]⟩
  · exact exec_parser_withP hSide hLooks hExec

end Sys2Proof
end

section
/-!
PROOFS. Sentences (30_encoding.md sections 1, 2, 4; 43_crc_validator.md): the running checksum along a byte string, the
sentence of the wire format, and repetition (40_parser_bytes.md section 4, R135).
-/
namespace Sys2Proof.Machine

/-! ### The XOR of a string -/

@[simp] theorem xorAll_nil : xorAll [] = 0#8 := rfl

theorem xorAll_cons (b : Byte) (bs : List Byte) : xorAll (b :: bs) = b ^^^ xorAll bs := by
  rw [xorAll, List.foldl_cons, BitVec.xor_comm, List.foldl_assoc]
  rfl

theorem xorAll_filter_cons (f : Byte → Bool) (b : Byte) (bs : List Byte) :
    xorAll ((b :: bs).filter f) = (if f b then b else 0#8) ^^^ xorAll (bs.filter f) := by
  rw [List.filter_cons]
  split
  · exact xorAll_cons b _
  · rw [BitVec.zero_xor]

/-! ### The running checksum -/

theorem ne_of_plain {b c : Byte} (hb : isSpecialByte b = false) (hc : isSpecialByte c = true) : b ≠ c := by
  rintro rfl
  rw [hb] at hc
  cases hc

/-- Up to the star every byte but `'$'` and a carriage return is XORed (R122, R126, R129, R190). -/
theorem Parser.feed_before_star {p : Parser} {b : Byte} (cfg : Config) (hOpen : p.star = false) (hDollar : b ≠ 0x24)
    (hStar : b ≠ 0x2A) :
    (p.feed cfg b).star = false ∧ (p.feed cfg b).csum = p.csum ^^^ if (b != 0x0D) = true then b else 0#8 := by
  obtain rfl | rfl | rfl | rfl | hPlain := byte_cases b
  · exact absurd rfl hDollar
  · rw [Parser.feed_comma, Parser.termNext_star, Parser.termNext_csum, Parser.crcAdd_star, Parser.crcAdd_csum,
      Parser.finalize_star, Parser.finalize_csum]
    exact ⟨hOpen, rfl⟩
  · exact absurd rfl hStar
  · exact ⟨hOpen, BitVec.xor_zero.symm⟩
  · have hCr : (b != 0x0D) = true := bne_iff_ne.2 (ne_of_plain hPlain (by decide))
    rw [Parser.feed_plain cfg p hPlain, Parser.termAdd_star, Parser.termAdd_csum, Parser.crcOther_star,
      Parser.crcOther_csum, hOpen, if_pos hCr]
    exact ⟨rfl, rfl⟩

/-- After the star only a comma is XORed (R126, D14). -/
theorem Parser.feed_after_star {p : Parser} {b : Byte} (cfg : Config) (hSeen : p.star = true) (hDollar : b ≠ 0x24) :
    (p.feed cfg b).star = true ∧ (p.feed cfg b).csum = p.csum ^^^ if (b == 0x2C) = true then b else 0#8 := by
  obtain rfl | rfl | rfl | rfl | hPlain := byte_cases b
  · exact absurd rfl hDollar
  · rw [Parser.feed_comma, Parser.termNext_star, Parser.termNext_csum, Parser.crcAdd_star, Parser.crcAdd_csum,
      Parser.finalize_star, Parser.finalize_csum]
    exact ⟨hSeen, rfl⟩
  · rw [Parser.feed_star, Parser.termNext_csum, Parser.setStar_csum, Parser.finalize_csum]
    exact ⟨rfl, BitVec.xor_zero.symm⟩
  · exact ⟨hSeen, BitVec.xor_zero.symm⟩
  · have hComma : ¬ (b == 0x2C) = true := fun h => ne_of_plain hPlain (by decide) (beq_iff_eq.1 h)
    rw [Parser.feed_plain cfg p hPlain, Parser.termAdd_star, Parser.termAdd_csum, Parser.crcOther_star,
      Parser.crcOther_csum, hSeen, if_neg hComma]
    exact ⟨rfl, BitVec.xor_zero.symm⟩

theorem Parser.feedAll_before_star {xs : List Byte} {p : Parser} (cfg : Config) (hOpen : p.star = false)
    (hDollar : (0x24 : Byte) ∉ xs) (hStar : (0x2A : Byte) ∉ xs) :
    (xs.foldl (Parser.feed cfg) p).star = false ∧
      (xs.foldl (Parser.feed cfg) p).csum = p.csum ^^^ xorAll (xs.filter (· != 0x0D)) := by
  induction xs generalizing p with
  | nil => exact ⟨hOpen, BitVec.xor_zero.symm⟩
  | cons b bs ih =>
    obtain ⟨hDollarHead, hDollarTail⟩ := not_or.1 (mt List.mem_cons.2 hDollar)
    obtain ⟨hStarHead, hStarTail⟩ := not_or.1 (mt List.mem_cons.2 hStar)
    obtain ⟨hOpen', hCsum⟩ := Parser.feed_before_star cfg hOpen (Ne.symm hDollarHead) (Ne.symm hStarHead)
    rw [xorAll_filter_cons, ← BitVec.xor_assoc, ← hCsum]
    exact ih hOpen' hDollarTail hStarTail

theorem Parser.feedAll_after_star {ys : List Byte} {p : Parser} (cfg : Config) (hSeen : p.star = true)
    (hDollar : (0x24 : Byte) ∉ ys) :
    (ys.foldl (Parser.feed cfg) p).csum = p.csum ^^^ xorAll (ys.filter (· == 0x2C)) := by
  induction ys generalizing p with
  | nil => exact BitVec.xor_zero.symm
  | cons b bs ih =>
    obtain ⟨hHead, hTail⟩ := not_or.1 (mt List.mem_cons.2 hDollar)
    obtain ⟨hSeen', hCsum⟩ := Parser.feed_after_star cfg hSeen (Ne.symm hHead)
    rw [xorAll_filter_cons, ← BitVec.xor_assoc, ← hCsum]
    exact ih hSeen' hTail

theorem Parser.feed_dollar_fields (cfg : Config) (p : Parser) :
    (p.feed cfg 0x24).star = false ∧ (p.feed cfg 0x24).csum = 0#8 ∧ (p.feed cfg 0x24).tidx = 0 ∧
      (p.feed cfg 0x24).kind = .unknown ∧ (p.feed cfg 0x24).text = [0x24] := by
  have hText : (p.restart.termAdd Ascii.dollar).text = [0x24] := by
    rw [Parser.text_termAdd _ (by simp), Parser.text_restart]; rfl
  rw [Parser.feed_dollar]
  exact ⟨by simp, by simp, by simp, by simp, hText⟩

/-- The checksum after `'$'`, covered bytes, `'*'`, and bytes of any class but `'$'` (R190). -/
theorem Parser.csum_of_sentence {xs ys : List Byte} (cfg : Config) (p : Parser) (hDollar : (0x24 : Byte) ∉ xs)
    (hStar : (0x2A : Byte) ∉ xs) (hDollar' : (0x24 : Byte) ∉ ys) :
    ((0x24 :: (xs ++ 0x2A :: ys)).foldl (Parser.feed cfg) p).csum =
      xorAll (xs.filter (· != 0x0D)) ^^^ xorAll (ys.filter (· == 0x2C)) := by
  obtain ⟨hOpen, hZero, -⟩ := p.feed_dollar_fields cfg
  obtain ⟨-, hSum⟩ := Parser.feedAll_before_star cfg hOpen hDollar hStar
  rw [List.foldl_cons, List.foldl_append, List.foldl_cons, Parser.feedAll_after_star cfg rfl hDollar', Parser.feed_star,
    Parser.termNext_csum, Parser.setStar_csum, Parser.finalize_csum, hSum, hZero, BitVec.zero_xor]

/-! ### The kind along a sentence -/

theorem Parser.finalize_kind_of_index_ne {p : Parser} (cfg : Config) (h : p.tidx ≠ 0) :
    (p.finalize cfg).kind = p.kind := by
  rw [Parser.finalize, if_neg h]
  cases hKind : p.kind with
  | gga =>
    obtain ⟨g, hg⟩ := termEffect_decodeGga cfg p p.tidx
    simp only [p.finalizeGga_eq cfg, hg, Parser.withGga_kind, hKind]
  | rmc =>
    obtain ⟨r, hr⟩ := termEffect_decodeRmc cfg p p.tidx
    simp only [p.finalizeRmc_eq cfg, hr, Parser.withRmc_kind, hKind]
  | unknown => exact hKind

theorem Parser.finalize_kind_of_index_zero {p : Parser} (cfg : Config) (h : p.tidx = 0) :
    (p.finalize cfg).kind = identify cfg.idMatch p.text := by
  rw [Parser.finalize, if_pos h]
  cases hName : identify cfg.idMatch p.text with
  | gga => rw [Parser.identifyTerm_of_gga hName]; rfl
  | rmc => rw [Parser.identifyTerm_of_rmc hName]; rfl
  | unknown => rw [Parser.identifyTerm_of_unknown hName]

theorem nextIndex_ne_zero (tidx : Byte) : nextIndex tidx ≠ 0 := by
  intro h
  have hNext := nextIndex_toNat tidx
  have hZero : (0 : Byte).toNat = 0 := rfl
  rw [h] at hNext
  omega

theorem plainText_cons {b : Byte} {t : Text} :
    plainText (b :: t) = true ↔ isSpecialByte b = false ∧ plainText t = true := by
  simp [plainText]

/-- Bytes of no special class leave kind and index alone. -/
theorem Parser.feedAll_plain {bs : Text} {p : Parser} (cfg : Config) (h : plainText bs = true) :
    (bs.foldl (Parser.feed cfg) p).kind = p.kind ∧ (bs.foldl (Parser.feed cfg) p).tidx = p.tidx := by
  induction bs generalizing p with
  | nil => exact ⟨rfl, rfl⟩
  | cons b bs ih =>
    obtain ⟨hPlain, hRest⟩ := plainText_cons.1 h
    obtain ⟨hKind, hIndex⟩ := ih (p := p.feed cfg b) hRest
    rw [List.foldl_cons, hKind, hIndex, Parser.feed_plain cfg p hPlain]
    simp

/-- While there is room they are appended to the term. -/
theorem Parser.feedAll_plain_text {bs : Text} {p : Parser} (cfg : Config) (h : plainText bs = true)
    (hRoom : p.text.length + bs.length ≤ 12) : (bs.foldl (Parser.feed cfg) p).text = p.text ++ bs := by
  induction bs generalizing p with
  | nil => simp
  | cons b bs ih =>
    obtain ⟨hPlain, hRest⟩ := plainText_cons.1 h
    rw [List.length_cons] at hRoom
    have hFits : (p.crcOther b).tlen.val < 12 := by
      rw [Parser.crcOther_tlen, ← Parser.text_length]
      omega
    have hText : (p.feed cfg b).text = p.text ++ [b] := by
      rw [Parser.feed_plain cfg p hPlain, Parser.text_termAdd b hFits, Parser.crcOther_text]
    rw [List.foldl_cons, ih hRest (by rw [hText, List.length_append, List.length_singleton]; omega), hText, List.append_assoc]
    rfl

/-- The fields keep the kind that the first separator gives the sentence. -/
theorem Parser.feedAll_fields {fields : List Text} {p : Parser} (cfg : Config)
    (h : ∀ f ∈ fields, plainText f = true) :
    (((fieldsText fields).foldl (Parser.feed cfg) p).finalize cfg).kind = (p.finalize cfg).kind := by
  induction fields generalizing p with
  | nil => rfl
  | cons f fields ih =>
    obtain ⟨hKind, hIndex⟩ := Parser.feedAll_plain (p := p.feed cfg 0x2C) cfg (h f (by simp))
    have hSplit : fieldsText (f :: fields) = 0x2C :: (f ++ fieldsText fields) := by simp [fieldsText]
    rw [hSplit, List.foldl_cons, List.foldl_append, ih fun g hg => h g (by simp [hg]),
      Parser.finalize_kind_of_index_ne cfg (by rw [hIndex]; exact nextIndex_ne_zero _), hKind]
    rfl

/-! ### The identifier of a sentence -/

/-- A five-character identifier matches a literal exactly if it is the literal, under both settings (R94, D8). -/
theorem matchesLiteral_dollar {m : IdMatch} {ident lit : Text} (h : ident.length = 5) :
    matchesLiteral m (0x24 :: ident) (0x24 :: lit) = true ↔ ident = lit := by
  cases m
  · simp [matchesLiteral]
  · simp [matchesLiteral, List.take_of_length_le (Nat.le_of_eq h)]

theorem isSpecialByte_of_hexVal : ∀ {c : Byte}, (hexVal c).2 = true → isSpecialByte c = false := by decide

/-! ### The sentence -/

theorem not_mem_of_plainText {t : Text} {c : Byte} (ht : plainText t = true) (hc : isSpecialByte c = true) : c ∉ t := by
  intro hMem
  have hPlain : isSpecialByte c = false := by simpa using List.all_eq_true.1 ht c hMem
  exact ne_of_plain hPlain hc rfl

/-- The comma is the only special byte of a body (R90). -/
theorem not_mem_sentenceBody {ident : Text} {fields : List Text} {c : Byte} (hIdent : plainText ident = true)
    (hFields : ∀ f ∈ fields, plainText f = true) (hc : isSpecialByte c = true) (hComma : c ≠ 0x2C) :
    c ∉ sentenceBody ident fields := by
  intro hMem
  obtain hMem | hMem := List.mem_append.1 hMem
  · exact not_mem_of_plainText hIdent hc hMem
  · obtain ⟨line, hLine, hMem⟩ := List.mem_flatten.1 hMem
    obtain ⟨f, hf, rfl⟩ := List.mem_map.1 hLine
    obtain hHead | hTail := List.mem_cons.1 hMem
    · exact hComma hHead
    · exact not_mem_of_plainText (hFields f hf) hc hTail

/-- What stands in ParserState when the carriage return of a well-formed sentence comes (R90, R94, R190). -/
theorem Parser.feedAll_sentence {ident : Text} {fields : List Text} {hi lo : Byte} (cfg : Config) (p : Parser)
    (hLength : ident.length = 5) (hIdent : plainText ident = true) (hFields : ∀ f ∈ fields, plainText f = true)
    (hPlain : plainText [hi, lo] = true) :
    let q := (0x24 :: (sentenceBody ident fields ++ [0x2A, hi, lo])).foldl (Parser.feed cfg) p
    q.kind = identify cfg.idMatch (0x24 :: ident) ∧ q.text = [hi, lo] ∧
      q.csum = xorAll (sentenceBody ident fields) := by
  intro q
  obtain ⟨-, -, hIndex, -, hText⟩ := p.feed_dollar_fields cfg
  have hBody : ∀ c : Byte, isSpecialByte c = true → c ≠ 0x2C → c ∉ sentenceBody ident fields := fun _ =>
    not_mem_sentenceBody hIdent hFields
  have hSplit : q = [hi, lo].foldl (Parser.feed cfg) (((fieldsText fields).foldl (Parser.feed cfg)
      (ident.foldl (Parser.feed cfg) (p.feed cfg 0x24))).feed cfg 0x2A) := by
    simp [q, sentenceBody]
  refine ⟨?kind, ?text, ?csum⟩
  case kind =>
    obtain ⟨-, hIndex'⟩ := Parser.feedAll_plain (p := p.feed cfg 0x24) cfg hIdent
    have hTerm := Parser.feedAll_plain_text (p := p.feed cfg 0x24) cfg hIdent (by rw [hText]; simp [hLength])
    rw [hSplit, (Parser.feedAll_plain cfg hPlain).1, Parser.feed_star, Parser.termNext_kind, Parser.setStar_kind,
      Parser.feedAll_fields cfg hFields, Parser.finalize_kind_of_index_zero cfg (hIndex'.trans hIndex), hTerm, hText]
    rfl
  case text =>
    rw [hSplit, Parser.feedAll_plain_text cfg hPlain (by rw [Parser.feed_star, Parser.text_termNext]; simp),
      Parser.feed_star, Parser.text_termNext, List.nil_append]
  case csum =>
    have hNoCr : (sentenceBody ident fields).filter (· != 0x0D) = sentenceBody ident fields :=
      List.filter_eq_self.2 fun b hb => bne_iff_ne.2 fun h => hBody 0x0D (by decide) (by decide) (h ▸ hb)
    have hNoComma : [hi, lo].filter (· == 0x2C) = [] :=
      List.filter_eq_nil_iff.2 fun b hb h => not_mem_of_plainText hPlain (by decide) (beq_iff_eq.1 h ▸ hb)
    have hNoDollar : (0x24 : Byte) ∉ [hi, lo] := not_mem_of_plainText hPlain (by decide)
    exact (Parser.csum_of_sentence cfg p (hBody _ (by decide) (by decide)) (hBody _ (by decide) (by decide))
      hNoDollar).trans (by rw [hNoCr, hNoComma, xorAll_nil, BitVec.xor_zero])

theorem State.byteSpan_fix_of_no_cr {bs : List Byte} (s : State) (h : (0x0D : Byte) ∉ bs) :
    (s.byteSpan bs).fix = s.fix := by
  by_contra hChanged
  obtain ⟨before, after, rfl, -⟩ := State.byteSpan_fix_ne hChanged
  exact h (by simp)

/-! ### Repetition -/

theorem Records.eq_of_groups {a b : Records} (hGga : a.gga = b.gga) (hRmc : a.rmc = b.rmc) : a = b := by
  cases a
  cases b
  cases hGga
  cases hRmc
  rfl

/-- Two runs of the same bytes, from states with the groups `gs` and `gt` in `fix`: the parsers look alike, the events
agree, and each group was published by both runs or by neither. -/
def Twin (gs gt : Records) (x y : State) : Prop :=
  x.p.Looks y.p ∧ y.cfg = x.cfg ∧ y.pEv = x.pEv ∧
  (y.fix.gga = x.fix.gga ∨ x.fix.gga = gs.gga ∧ y.fix.gga = gt.gga) ∧
  (y.fix.rmc = x.fix.rmc ∨ x.fix.rmc = gs.rmc ∧ y.fix.rmc = gt.rmc)

theorem Twin.crcOk {gs gt : Records} {x y : State} (h : Twin gs gt x y) : y.crcOk = x.crcOk := by
  obtain ⟨⟨hText, -, -, -, -, hCsum, -⟩, hCfg, -⟩ := h
  rw [State.crcOk, State.crcOk, hText, hCsum, hCfg]

theorem Twin.byteCr {gs gt : Records} {x y : State} (h : Twin gs gt x y) : Twin gs gt x.byteCr y.byteCr := by
  have hCrc := h.crcOk
  obtain ⟨hLooks, hCfg, hEv, hGga, hRmc⟩ := h
  have hS := hLooks.records
  have hKind : y.p.kind = x.p.kind := hLooks.2.2.1
  obtain ⟨hMatch, hCr⟩ | ⟨hMismatch, hCr⟩ := x.byteCr_cases
  · rw [hCr, State.byteCr_of_match (hCrc.trans hMatch)]
    obtain ⟨hk, hPublish⟩ | ⟨hk, hPublish⟩ | ⟨hk, hPublish⟩ := x.publish_cases
    · rw [hPublish, State.publish_of_gga (hKind.trans hk)]
      exact ⟨hLooks, hCfg, rfl, .inl (by simp [hS]), hRmc⟩
    · rw [hPublish, State.publish_of_rmc (hKind.trans hk)]
      exact ⟨hLooks, hCfg, rfl, hGga, .inl (by simp [hS])⟩
    · rw [hPublish, State.publish_of_unknown (hKind.trans hk)]
      exact ⟨hLooks, hCfg, rfl, hGga, hRmc⟩
  · rw [hCr, State.byteCr_of_mismatch (hCrc.trans hMismatch)]
    exact ⟨hLooks, hCfg, rfl, hGga, hRmc⟩

theorem State.byteOther_pEv (s : State) (b : Byte) :
    (s.byteOther b).pEv = if s.p.termFull then .trunc else .none := rfl

theorem Twin.byteStep {gs gt : Records} {x y : State} (b : Byte) (h : Twin gs gt x y) :
    Twin gs gt (x.byteStep b) (y.byteStep b) := by
  by_cases hCr : b = 0x0D
  · subst hCr; exact h.byteCr
  · obtain ⟨hLooks, hCfg, -, hGga, hRmc⟩ := h
    have hEv : (y.byteStep b).pEv = (x.byteStep b).pEv := by
      obtain rfl | rfl | rfl | rfl | hPlain := byte_cases b
      · rfl
      · rfl
      · rfl
      · exact absurd rfl hCr
      · have hTlen : y.p.tlen = x.p.tlen := hLooks.2.1
        rw [y.byteStep_plain hPlain, x.byteStep_plain hPlain, State.byteOther_pEv, State.byteOther_pEv,
          Parser.termFull, Parser.termFull, hTlen]
    refine ⟨?looks, by simpa using hCfg, hEv, ?_⟩
    case looks =>
      rw [State.byteStep_p, State.byteStep_p, hCfg]
      exact hLooks.feed x.cfg b
    rw [x.byteStep_fix_of_ne_cr hCr, y.byteStep_fix_of_ne_cr hCr]
    exact ⟨hGga, hRmc⟩

theorem Twin.byteSpan {gs gt : Records} (bs : List Byte) {x y : State} (h : Twin gs gt x y) :
    Twin gs gt (x.byteSpan bs) (y.byteSpan bs) := by
  induction bs generalizing x y with
  | nil => exact h
  | cons b bs ih => exact ih (h.byteStep b)

/-- After `'$'` nothing of the earlier parser state is seen (R125). -/
theorem twin_byteDollar {s t : State} (hCfg : t.cfg = s.cfg) : Twin s.fix t.fix s.byteDollar t.byteDollar :=
  ⟨(s.p.restart_looks t.p).termAdd _, hCfg, rfl, .inr ⟨rfl, rfl⟩, .inr ⟨rfl, rfl⟩⟩

theorem Parser.restart_termAdd_restart (p : Parser) (b : Byte) :
    (p.restart.termAdd b).restart.termAdd b = p.restart.termAdd b := by
  simp [Parser.termAdd, Parser.restart, Vector.set_set]

@[simp] theorem State.byteDollar_byteDollar (s : State) : s.byteDollar.byteDollar = s.byteDollar :=
  congrArg (fun p => (s.withP p).withEv .none) (s.p.restart_termAdd_restart Ascii.dollar)

@[simp] theorem State.byteCr_byteCr (s : State) : s.byteCr.byteCr = s.byteCr := by
  obtain ⟨hMatch, hCr⟩ | ⟨hMismatch, hCr⟩ := s.byteCr_cases
  · rw [hCr, State.byteCr_of_match (by simpa using hMatch), State.publish_publish]
  · rw [hCr, State.byteCr_of_mismatch (s := s.withEv .dropCrc) hMismatch]; rfl

end Sys2Proof.Machine

namespace Sys2Proof

open Machine

/-- Settles O39: the checksum is a fold of XOR over the bytes, one rule before the star and one after it. -/
theorem checksumIsTheXorOfTheCoveredBytes : Obligations.ChecksumIsTheXorOfTheCoveredBytes := by
  intro s xs ys hIdle hDollar hStar hDollar'
  refine ⟨⟨_, exec_pProcess _ hIdle, ?before⟩, _, exec_pProcess _ hIdle, ?after⟩
  case before =>
    obtain ⟨hOpen, hZero, -⟩ := s.p.feed_dollar_fields s.cfg
    obtain ⟨-, hSum⟩ := Parser.feedAll_before_star s.cfg hOpen hDollar hStar
    rw [State.byteSpan_p, List.foldl_cons, hSum, hZero, BitVec.zero_xor]
  case after => rw [State.byteSpan_p, Parser.csum_of_sentence s.cfg s.p hDollar hStar hDollar']

/-- Settles O40: before the carriage return the kind is the identifier's, the term holds the two characters and the
checksum is the body's, so `PB_CR` decides by comparing the last two. -/
theorem wellFormedSentencePublishesByItsChecksum : Obligations.WellFormedSentencePublishesByItsChecksum := by
  intro s ident fields hi lo hIdle hLength hIdent hFields hHi hLo
  have hPlain : plainText [hi, lo] = true := by
    simp [plainText, isSpecialByte_of_hexVal hHi, isSpecialByte_of_hexVal hLo]
  set bs : List Byte := 0x24 :: (sentenceBody ident fields ++ [0x2A, hi, lo]) with hBs
  obtain ⟨hKind, hText, hCsum⟩ := Parser.feedAll_sentence s.cfg s.p hLength hIdent hFields hPlain
  rw [← hBs, ← State.byteSpan_p] at hKind hText hCsum
  have hFix : (s.byteSpan bs).fix = s.fix := by
    refine s.byteSpan_fix_of_no_cr fun hMem => ?_
    obtain hHead | hTail := List.mem_cons.1 hMem
    · exact absurd hHead (by decide)
    obtain hBody | hEnd := List.mem_append.1 hTail
    · exact not_mem_sentenceBody hIdent hFields (by decide) (by decide) hBody
    obtain hStar | hPair := List.mem_cons.1 hEnd
    · exact absurd hStar (by decide)
    · exact not_mem_of_plainText hPlain (by decide) hPair
  have hSentence : s.byteSpan (sentence ident fields hi lo) = (s.byteSpan bs).byteCr := by
    have : sentence ident fields hi lo = bs ++ [0x0D] := by simp [sentence, hBs]
    rw [this, State.byteSpan_append]
    rfl
  have hLit : ∀ lit : Text, matchesLiteral s.cfg.idMatch (0x24 :: ident) (0x24 :: lit) = true ↔ ident = lit :=
    fun _ => matchesLiteral_dollar hLength
  have hMatch : (s.byteSpan bs).crcOk = true ↔
      (hexVal hi).1 * 16 + (hexVal lo).1 = (xorAll (sentenceBody ident fields)).toNat := by
    rw [State.crcOk, hText, hCsum, checksumMatches_iff]
    exact and_iff_left fun _ => ⟨hHi, hLo⟩
  refine ⟨_, exec_pProcess _ hIdle, fun hWrong => ?wrong, fun hRight => ?right⟩
  case wrong =>
    rw [hSentence, State.byteCr_of_mismatch (Bool.eq_false_iff.2 fun h => hWrong (hMatch.1 h))]
    exact ⟨rfl, hFix⟩
  case right =>
    rw [hSentence, State.byteCr_of_match (hMatch.2 hRight)]
    refine ⟨fun hGga => ?gga, fun hRmc => ?rmc, fun hGp hGn hRp hRn => ?unknown⟩
    case gga =>
      rw [State.publish_of_gga (hKind.trans (identify_of_gga (hGga.imp (hLit _).2 (hLit _).2)))]
      exact ⟨rfl, rfl, by simp [hFix]⟩
    case rmc =>
      rw [State.publish_of_rmc (hKind.trans (identify_of_rmc (hRmc.imp (hLit _).2 (hLit _).2)))]
      exact ⟨rfl, rfl, by simp [hFix]⟩
    case unknown =>
      rw [State.publish_of_unknown (hKind.trans (identify_of_none (mt (hLit _).1 hGp) (mt (hLit _).1 hGn)
        (mt (hLit _).1 hRp) (mt (hLit _).1 hRn)))]
      exact ⟨rfl, hFix⟩

/-- Settles O41: the second run publishes what the first did, group by group; `PB_DOLLAR` and `PB_CR` are
idempotent. -/
theorem repetitionDoesNotDrift : Obligations.RepetitionDoesNotDrift := by
  intro s hIdle
  refine ⟨fun bytes => ?twice, ?dollar, ?cr⟩
  case twice =>
    have hIdle' : (s.byteSpan (0x24 :: bytes)).spanning = none := by simpa using hIdle
    obtain ⟨hLooks, -, hEv, hGga, hRmc⟩ := (twin_byteDollar (s.byteSpan_cfg (0x24 :: bytes))).byteSpan bytes
    refine ⟨_, _, exec_pProcess _ hIdle, exec_pProcess _ hIdle', ?fix, hEv, hLooks⟩
    case fix => exact Records.eq_of_groups (hGga.elim id And.right) (hRmc.elim id And.right)
  case dollar =>
    have hIdle' : s.byteDollar.spanning = none := hIdle
    rw [execAll_cons_of_next _ (exec_pbDollar hIdle), execAll_singleton_of_next (exec_pbDollar hIdle'),
      State.byteDollar_byteDollar, exec_pbDollar hIdle]
  case cr =>
    have hIdle' : s.byteCr.spanning = none := (s.byteStep_spanning 0x0D).trans hIdle
    rw [execAll_cons_of_next _ (exec_pbCr hIdle), execAll_singleton_of_next (exec_pbCr hIdle'),
      State.byteCr_byteCr, exec_pbCr hIdle]

end Sys2Proof
end

section
/-!
PROOFS. The ring's commands on their own (44_ring_buffer.md) and the rules that refuse an operation
(00_scope.md section 6, 70_reset_and_hazards.md): sizes, flags, the reset of the ring, guards and frames.
-/
namespace Sys2Proof.Machine

/-! ### Sizes and flags -/

/-- `occ` is the non-negative remainder of R24. -/
theorem occupancy_cast {C : Nat} (r w : Nat) (hC : 0 < C) : (occupancy C r w : Int) = ((w : Int) - r) % C :=
  Int.toNat_of_nonneg (Int.emod_nonneg _ (by omega))

theorem State.occ_lt (s : State) : s.occ < s.cfg.C := occupancy_lt s.cfg.C_pos

theorem State.occ_of_eq {s : State} (h : s.rb.r = s.rb.w) : s.occ = 0 := by
  rw [State.occ, h, occupancy_self]

/-- `full` is an equation of the cursors (R25), of which only the read cursor need be in range. -/
theorem State.occ_of_full {s : State} (h : s.full = true) : s.occ = s.cfg.C - 1 := by
  have hPos := s.cfg.C_pos
  have hRead : (s.rb.r : Int) = ((s.rb.w : Int) + 1) % s.cfg.C := by
    rw [← beq_iff_eq.1 (show ((s.rb.w + 1) % s.cfg.C == s.rb.r) = true from h)]
    push_cast
    rfl
  have hDiff : (s.rb.w : Int) - s.rb.r = (s.cfg.C - 1) + s.cfg.C * (((s.rb.w : Int) + 1) / s.cfg.C - 1) := by
    rw [hRead, Int.emod_def]
    ring
  have hOcc : (s.occ : Int) = s.cfg.C - 1 := by
    rw [State.occ, occupancy_cast _ _ hPos, hDiff, Int.add_mul_emod_self_left]
    exact Int.emod_eq_of_lt (by omega) (by omega)
  omega

/-- The sizes and flags of a ring whose cursors are both 0 (R201). -/
theorem State.sizes_of_zero {s : State} (hr : s.rb.r = 0) (hw : s.rb.w = 0) :
    s.occ = 0 ∧ s.free = s.cfg.C - 1 ∧ s.empty = true ∧ s.full = false := by
  have hPos := s.cfg.C_ge
  have hOcc : s.occ = 0 := State.occ_of_eq (hr.trans hw.symm)
  have hSum := s.occ_add_free
  refine ⟨hOcc, by omega, by simp [State.empty, hr, hw], ?_⟩
  rw [Bool.eq_false_iff]
  intro hFull
  have := State.occ_of_full hFull
  omega

theorem State.full_iff_occ {s : State} (hr : s.rb.r < s.cfg.C) (hw : s.rb.w < s.cfg.C) :
    s.full = true ↔ s.occ = s.cfg.C - 1 := by
  have hSum := s.occ_add_free
  rw [State.full_iff_free hr hw]
  omega

theorem peekCount_eq (C r w skip n : Nat) : peekCount C r w skip n = min n (occupancy C r w - skip) := by
  unfold peekCount
  split <;> omega

theorem exec_rbPeek {s : State} (skip n : Nat) (h : s.reading = none) :
    exec (.rbPeek skip n) s = .next (s.withConsOut ⟨min n (s.occ - skip), s.load (s.rb.r + skip) (min n (s.occ - skip))⟩) := by
  rw [State.occ, ← peekCount_eq]
  exact ifNotReading_none h

theorem lt_two_pow_cursorBits {c : Config} {n : Nat} (h : n < c.C) : n < 2 ^ c.cursorBits := by
  have hLog : c.C ≤ 2 ^ Nat.clog 2 c.C := Nat.le_pow_clog (by omega) _
  have hMax : 2 ^ Nat.clog 2 c.C ≤ 2 ^ c.cursorBits := Nat.pow_le_pow_right (by omega) (le_max_right _ _)
  omega

/-! ### Emptying the ring -/

theorem exec_of_emptiesRing {i : Instr} (s : State) (h : emptiesRing i = true) :
    exec i s = ifQuiescent s s.emptyRing := by
  cases i with
  | rbInit | rbReset => rfl
  | _ => cases h

theorem begin_of_emptiesRing {i : Instr} (s : State) (h : emptiesRing i = true) : begin i s = exec i s := by
  cases i with
  | rbInit | rbReset => rfl
  | _ => cases h

/-! ### Frames of a step -/

theorem exec_keeps {i : Instr} {s t : State} (h : exec i s = .next t) : t.cfg = s.cfg ∧ t.sched = s.sched := by
  by_cases hSide : (encode i).format = .rbcmd
  · obtain ⟨⟨-, -, -, -, hCfg, -, hSched⟩, -⟩ := exec_ring_outside hSide h
    exact ⟨hCfg, hSched⟩
  · obtain ⟨-, -, -, -, -, -, hCfg, -, hSched⟩ := exec_parser_outside hSide h
    exact ⟨hCfg, hSched⟩

theorem begin_keeps {i : Instr} {s t : State} (h : begin i s = .next t) : t.cfg = s.cfg ∧ t.sched = s.sched := by
  obtain ⟨data, -, -, rfl⟩ | ⟨n, -, -, rfl⟩ | ⟨skip, n, -, -, ⟨-, rfl⟩ | ⟨-, rfl⟩⟩ |
    ⟨bytes, -, -, ⟨-, rfl⟩ | ⟨-, rfl⟩⟩ | ⟨-, -, -, hExec⟩ := begin_cases h
  · exact ⟨rfl, rfl⟩
  · exact ⟨rfl, rfl⟩
  · exact ⟨rfl, rfl⟩
  · exact ⟨rfl, rfl⟩
  · exact ⟨rfl, rfl⟩
  · exact ⟨rfl, rfl⟩
  · exact exec_keeps hExec

/-- What one more byte of a read or peek can do (R72, R73; log 15). -/
theorem State.readMore_cases (s : State) (x : ReadTransfer) :
    ((x.commits = true ∨ (s.readOne x).out.length < x.k) ∧ s.readMore x = s.withReading (some (s.readOne x))) ∨
    (x.commits = false ∧ ¬ (s.readOne x).out.length < x.k ∧ s.readMore x = s.peekReturn (s.readOne x).out) := by
  unfold State.readMore
  split
  · rename_i hGo
    exact .inl ⟨by simpa using hGo, rfl⟩
  · rename_i hStop
    exact .inr ⟨by simp_all, by simp_all, rfl⟩

theorem advance_keeps {lane : Lane} {s t : State} (h : advance lane s = .next t) :
    t.cfg = s.cfg ∧ t.sched = s.sched := by
  cases lane with
  | write =>
    obtain ⟨x, -, ⟨-, rfl⟩ | ⟨-, rfl⟩⟩ := advanceWrite_next h
    · exact ⟨rfl, rfl⟩
    · exact ⟨rfl, rfl⟩
  | read =>
    obtain ⟨x, -, ⟨-, rfl⟩ | ⟨-, -, rfl⟩ | ⟨-, -, rfl⟩⟩ := advanceRead_next h
    · obtain ⟨-, hMore⟩ | ⟨-, -, hMore⟩ := s.readMore_cases x
      · rw [hMore]; exact ⟨rfl, rfl⟩
      · rw [hMore]; exact ⟨rfl, rfl⟩
    · exact ⟨rfl, rfl⟩
    · exact ⟨rfl, rfl⟩
  | parser =>
    obtain ⟨-, rfl⟩ | ⟨b, bs, -, rfl⟩ := advanceParser_next h
    · exact ⟨rfl, rfl⟩
    · obtain ⟨-, -, -, -, -, -, hCfg, -, hSched⟩ := s.byteStep_outside b
      exact ⟨hCfg, hSched⟩

theorem step_keeps {s t : State} (h : step s = .next t) : t.cfg = s.cfg ∧ t.sched = s.sched.tail := by
  obtain ⟨hSched, rfl⟩ | ⟨tr, rest, i, hSched, -, hExec⟩ | ⟨tr, rest, i, hSched, -, hBegin⟩ |
    ⟨lane, rest, hSched, hAdvance⟩ | ⟨rest, hSched, rfl⟩ := step_cases h
  · exact ⟨rfl, by rw [hSched]; rfl⟩
  · rw [hSched]; exact exec_keeps hExec
  · rw [hSched]; exact begin_keeps hBegin
  · rw [hSched]; exact advance_keeps hAdvance
  · rw [hSched]; exact ⟨rfl, rfl⟩

/-! ### Which guard an operation waits for -/

theorem exec_rbWrite_guard (data : List Byte) (s : State) : ∃ u, exec (.rbWrite data) s = ifNotWriting s u := ⟨_, rfl⟩

theorem begin_rbWrite_guard (data : List Byte) (s : State) : ∃ u, begin (.rbWrite data) s = ifNotWriting s u := ⟨_, rfl⟩

/-- A read or a peek waits for the consumer's transfer (R74). -/
theorem reader_guard {i : Instr} (s : State) (h : (∃ n, i = .rbRead n) ∨ (∃ skip n, i = .rbPeek skip n)) :
    (∃ u, exec i s = ifNotReading s u) ∧ ∃ u, begin i s = ifNotReading s u := by
  obtain ⟨n, rfl⟩ | ⟨skip, n, rfl⟩ := h
  · exact ⟨⟨_, rfl⟩, _, rfl⟩
  · exact ⟨⟨_, rfl⟩, _, rfl⟩

/-- Every operation of the parser's two ports but `P_NOP` waits for the span (R270). -/
theorem parser_guard {i : Instr} (s : State) (h : (encode i).format = .byte ∨ (encode i).format = .pcmd)
    (hNop : i ≠ .pNop) : (∃ u, exec i s = serially s u) ∧ ∃ u, begin i s = serially s u := by
  cases i with
  | pNop => exact absurd rfl hNop
  | pbDollar | pbComma | pbStar | pbCr | pbOther b | pInit | pb b | pProcess bytes => exact ⟨⟨_, rfl⟩, _, rfl⟩
  | _ => obtain h | h := h <;> cases h

/-- Presented or started, an operation runs on the state without its entry. -/
theorem step_of_entry {s : State} {tr : Transaction} {rest : List Input} {i : Instr}
    (h : s.sched = .present tr :: rest ∨ s.sched = .start tr :: rest) (hi : decode tr = .ok i) :
    step s = exec i (s.withSched rest) ∨ step s = begin i (s.withSched rest) :=
  h.imp (step_of_present · hi) (step_of_start · hi)

/-! ### Totality -/

theorem exec_of_quiescent {s : State} (i : Instr) (h : s.Quiescent) (hReserved : s.cfg.reserved = .noOperation) :
    ∃ t, exec i s = .next t := by
  obtain ⟨hw, hr, hp⟩ := h
  cases i with
  | pbDollar | pbComma | pbStar | pbCr | pbOther b | pInit | pb b | pProcess bytes => exact ⟨_, serially_none hp⟩
  | rbInit port | rbReset port => exact ⟨_, ifQuiescent_none hw hr⟩
  | rbWrite data => exact ⟨_, ifNotWriting_none hw⟩
  | rbRead n | rbPeek skip n => exact ⟨_, ifNotReading_none hr⟩
  | rbRsvd7 port => exact ⟨s.respond port ⟨0, []⟩, by rw [exec, execRbRsvd7, hReserved]⟩
  | _ => exact ⟨_, rfl⟩

theorem exec_quiescent {i : Instr} {s t : State} (hExec : exec i s = .next t) (h : s.Quiescent) : t.Quiescent := by
  obtain ⟨hw, hr, hp⟩ := h
  by_cases hSide : (encode i).format = .rbcmd
  · obtain ⟨⟨-, -, hSpan, -⟩, hWrite, hRead⟩ := exec_ring_outside hSide hExec
    exact ⟨hWrite.trans hw, hRead.trans hr, hSpan.trans hp⟩
  · obtain ⟨-, hWrite, hRead, hSpan, -⟩ := exec_parser_outside hSide hExec
    exact ⟨hWrite.trans hw, hRead.trans hr, hSpan.trans hp⟩

end Sys2Proof.Machine

namespace Sys2Proof

open Machine

/-- Settles O6: the step is `hardwareReset`, whose cursors are both 0. -/
theorem hardwareResetZeroesEverythingButTheCells : Obligations.HardwareResetZeroesEverythingButTheCells := by
  intro s rest hSched
  obtain ⟨hOcc, hFree, hEmpty, hFull⟩ := State.sizes_of_zero (s := (s.withSched rest).hardwareReset) rfl rfl
  exact ⟨_, step_of_cons hSched, rfl, rfl, rfl, rfl, hEmpty, hFull, hOcc, hFree, Memory.read?_nil, rfl, rfl, rfl, rfl,
    rfl, rfl⟩

/-- Settles O7: with nothing in progress both operations complete, and their effects are those of the reset. -/
theorem hardwareResetIsInitOfBothComponents : Obligations.HardwareResetIsInitOfBothComponents := by
  intro s port hQuiet
  obtain ⟨hw, hr, hp⟩ := hQuiet
  have hInit : exec .pInit s = .next s.initParser := serially_none hp
  have hRing : exec (.rbInit port) s.initParser = .next s.initParser.emptyRing := ifQuiescent_none hw hr
  exact ⟨_, (execAll_cons_of_next _ hInit).trans (execAll_singleton_of_next hRing), rfl, rfl, rfl, rfl, rfl⟩

/-- Settles O43: the answers are the two sizes, whose remainder form gives the ranges and the extremes. -/
theorem sizeQueriesAnswerFromTheCursors : Obligations.SizeQueriesAnswerFromTheCursors := by
  intro s port
  have hPos := s.cfg.C_ge
  have hSum := s.occ_add_free
  have hCast : (s.occ : Int) = ((s.rb.w : Int) - s.rb.r) % s.cfg.C := occupancy_cast _ _ s.cfg.C_pos
  refine ⟨⟨s.occ, by cases port <;> rfl, hCast, by omega, State.occ_of_eq, fun _ => State.occ_of_full⟩,
    ⟨s.free, by cases port <;> rfl, by omega, by omega, fun hEq => ?empty, fun _ hFull => ?full⟩⟩
  case empty => have := State.occ_of_eq hEq; omega
  case full => have := State.occ_of_full hFull; omega

/-- Settles O46: after a read of `skip` bytes the read cursor stands where the peek starts, over the same cells. -/
theorem peekAnswersWhatReadingWould : Obligations.PeekAnswersWhatReadingWould := by
  intro s skip n hIdle hr hw
  set k := min n (s.occ - skip) with hk
  set u := (s.advanceRead (min skip s.occ)).withConsOut ⟨min skip s.occ, s.load s.rb.r (min skip s.occ)⟩ with hu
  have hOcc : u.occ = s.occ - min skip s.occ := State.advanceRead_occ hr hw (Nat.min_le_right _ _)
  have hCount : min n u.occ = k := by omega
  have hLoad : u.load u.rb.r k = s.load (s.rb.r + skip) k := by
    by_cases hShort : s.occ ≤ skip
    · have hNone : k = 0 := by omega
      rw [hNone]
      rfl
    · rw [← s.load_mod, show u.rb.r = (s.rb.r + skip) % s.cfg.C by rw [hu, Nat.min_eq_left (by omega)]; rfl]
      exact State.load_congr rfl fun _ _ => rfl
  refine ⟨⟨k, s.load (s.rb.r + skip) k⟩, _, exec_rbPeek skip n hIdle, s.load_length _ _,
    (execAll_cons_of_next _ (exec_rbRead skip hIdle)).trans (execAll_singleton_of_next (exec_rbRead n hIdle)),
    ?answer, fun hShort => ?none⟩
  case answer => rw [State.withConsOut_consOut, ← hu, hCount, hLoad]
  case none =>
    have hNone : k = 0 := by omega
    rw [hNone]
    rfl

/-- Settles O47: both operations are `ifQuiescent` of the emptied ring. -/
theorem initAndResetEmptyTheRing : Obligations.InitAndResetEmptyTheRing := by
  intro s i hEmpties
  rw [exec_of_emptiesRing s hEmpties]
  refine ⟨fun hw hr => ?quiet, fun hBusy => ifQuiescent_busy (by tauto)⟩
  case quiet =>
    obtain ⟨hOcc, hFree, hEmpty, hFull⟩ := State.sizes_of_zero (s := s.emptyRing) rfl rfl
    exact ⟨s.emptyRing, ifQuiescent_none hw hr, rfl, rfl, rfl, hOcc, hFree, hEmpty, hFull, s.sameOutsideRing_refl,
      hw, hr, rfl, rfl⟩

/-- Settles O48: by the parameter. -/
theorem reservedCommandDoesNothing : Obligations.ReservedCommandDoesNothing := by
  intro s port
  refine ⟨fun hNoOperation => ?noOperation, fun hRefuse => ?refuse⟩
  case noOperation => rw [exec, execRbRsvd7, hNoOperation]; cases port <;> rfl
  case refuse => rw [exec, execRbRsvd7, hRefuse]

/-- Settles O49: both flags are values of the occupancy, which is at most `C - 1`. -/
theorem flagsAgreeWithTheSizes : Obligations.FlagsAgreeWithTheSizes := by
  intro s hr hw
  have hPos := s.cfg.C_ge
  have hLt := s.occ_lt
  rw [State.empty_iff_occ hr hw, State.full_iff_occ hr hw]
  exact ⟨Iff.rfl, Iff.rfl, by omega, s.occ_add_free, fun hTwo => by omega⟩

/-- Settles O50: cursors are below `C`, so one correction brings a sum or a difference back into range. -/
theorem cursorArithmeticIsOneCorrection : Obligations.CursorArithmeticIsOneCorrection := by
  intro s hr hw
  have hPos := s.cfg.C_pos
  exact ⟨occupancy_eq hr hw, fun k hk => mod_step hw (by omega), lt_two_pow_cursorBits hw, lt_two_pow_cursorBits hr⟩

/-- Settles O51: each count is a minimum with a size that is at most `C - 1`. -/
theorem countsSaturateAtTheUsableCapacity : Obligations.CountsSaturateAtTheUsableCapacity := by
  intro s skip n data
  have hSum := s.occ_add_free
  refine ⟨?read, ?peek, ?write⟩
  case read =>
    have hCount : readCount s.cfg.C s.rb.r s.rb.w (min n (s.cfg.C - 1)) = readCount s.cfg.C s.rb.r s.rb.w n := by
      show min (min n (s.cfg.C - 1)) s.occ = min n s.occ
      omega
    simp only [exec, execRbRead, hCount]
  case peek =>
    have hCount : peekCount s.cfg.C s.rb.r s.rb.w skip (min n (s.cfg.C - 1)) =
        peekCount s.cfg.C s.rb.r s.rb.w skip n := by
      rw [peekCount_eq, peekCount_eq]
      show min (min n (s.cfg.C - 1)) (s.occ - skip) = min n (s.occ - skip)
      omega
    simp only [exec, execRbPeek, hCount]
  case write =>
    have hCount : writeCount s.cfg.C s.rb.r s.rb.w (data.take (s.cfg.C - 1)).length =
        writeCount s.cfg.C s.rb.r s.rb.w data.length := by
      rw [List.length_take]
      show min (min (s.cfg.C - 1) data.length) s.free = min data.length s.free
      omega
    have hTake : (data.take (s.cfg.C - 1)).take (writeCount s.cfg.C s.rb.r s.rb.w data.length) =
        data.take (writeCount s.cfg.C s.rb.r s.rb.w data.length) := by
      rw [List.take_take]
      congr 1
      show min (min data.length s.free) (s.cfg.C - 1) = min data.length s.free
      omega
    simp only [exec, execRbWrite, State.writeRing, hCount, hTake]

/-- Settles O58: each operation is one guard, whole or started, and a guard refuses or goes on by one field. -/
theorem overlappingOperationsAreRefused : Obligations.OverlappingOperationsAreRefused := by
  intro s
  refine ⟨⟨fun hBusy _ => ifNotWriting_busy hBusy, fun hBusy _ _ => ⟨ifNotReading_busy hBusy, ifNotReading_busy hBusy⟩,
    fun hBusy _ _ => ⟨serially_busy hBusy, serially_busy hBusy, serially_busy hBusy⟩,
    fun hFree _ => ⟨_, ifNotWriting_none hFree⟩, fun hFree _ _ => ⟨⟨_, ifNotReading_none hFree⟩, _, ifNotReading_none hFree⟩⟩,
    fun tr rest i hSched hDecode => ?_⟩
  have hStep := step_of_entry hSched hDecode
  refine ⟨fun hWrite => ?write, fun hRead => ?read, fun hEmpties => ?empties, fun hPort hNop => ?parser⟩
  case write =>
    obtain ⟨data, rfl⟩ := hWrite
    obtain ⟨u, hu⟩ : ∃ u, step s = ifNotWriting (s.withSched rest) u := by
      obtain h | h := hStep
      · rw [h]; exact exec_rbWrite_guard data _
      · rw [h]; exact begin_rbWrite_guard data _
    rw [hu]
    exact ⟨fun hBusy => ifNotWriting_busy hBusy, fun hFree => ⟨u, ifNotWriting_none hFree⟩⟩
  case read =>
    obtain ⟨hExec, hBegin⟩ := reader_guard (s.withSched rest) hRead
    obtain ⟨u, hu⟩ : ∃ u, step s = ifNotReading (s.withSched rest) u := by
      obtain h | h := hStep
      · rw [h]; exact hExec
      · rw [h]; exact hBegin
    rw [hu]
    exact ⟨fun hBusy => ifNotReading_busy hBusy, fun hFree => ⟨u, ifNotReading_none hFree⟩⟩
  case empties =>
    have hu : step s = ifQuiescent (s.withSched rest) (s.withSched rest).emptyRing := by
      rw [← exec_of_emptiesRing _ hEmpties]
      obtain h | h := hStep
      · exact h
      · rw [h, begin_of_emptiesRing _ hEmpties]
    rw [hu]
    exact ⟨fun hBusy => ifQuiescent_busy hBusy, fun hw hr => ⟨_, ifQuiescent_none hw hr⟩⟩
  case parser =>
    obtain ⟨hExec, hBegin⟩ := parser_guard (s.withSched rest) hPort hNop
    obtain ⟨u, hu⟩ : ∃ u, step s = serially (s.withSched rest) u := by
      obtain h | h := hStep
      · rw [h]; exact hExec
      · rw [h]; exact hBegin
    rw [hu]
    exact ⟨fun hBusy => serially_busy hBusy, fun hIdle => ⟨u, serially_none hIdle⟩⟩

/-- Settles O59: with nothing in progress every guard lets its operation through, and the frames keep it so. -/
theorem everyOperationIsTotalWhenNothingIsInProgress : Obligations.EveryOperationIsTotalWhenNothingIsInProgress := by
  intro i s hQuiet hReserved
  obtain ⟨t, hExec⟩ := exec_of_quiescent i hQuiet hReserved
  exact ⟨t, hExec, exec_quiescent hExec hQuiet⟩

/-- Settles O60: the frames of the two sides, and that every step keeps the parameters and takes the head. -/
theorem operationsStayOnTheirSide : Obligations.OperationsStayOnTheirSide :=
  ⟨fun _ _ _ hExec => ⟨fun hSide => exec_ring_outside hSide hExec, fun hSide => exec_parser_outside hSide hExec⟩,
    fun _ _ hStep => step_keeps hStep⟩

end Sys2Proof
end

section
/-!
PROOFS. The invariant on the parser's side (10_state.md R45, 40_parser_bytes.md R136): the kept characters stay legal
under every byte and every operation that decodes.
-/
namespace Sys2Proof.Machine

theorem Parser.inv_of_text_nil {p : Parser} (h : p.text = []) : p.Inv := by
  simp [Parser.Inv, h]

theorem Parser.zero_inv : Parser.zero.Inv := Parser.inv_of_text_nil Parser.text_zero

/-- The invariant speaks of the text and the index only. -/
theorem Parser.Inv.congr {p q : Parser} (h : p.Inv) (hText : q.text = p.text) (hIndex : q.tidx = p.tidx) : q.Inv := by
  unfold Parser.Inv at *
  rwa [hText, hIndex]

theorem Parser.Inv.sameFraming {p q : Parser} (h : p.Inv) (hFraming : p.SameFraming q) : q.Inv := by
  have hText := hFraming.text
  obtain ⟨-, -, hIndex, -⟩ := hFraming
  exact h.congr hText hIndex

/-- A byte of no special class may follow any legal term. -/
theorem Parser.Inv.append {p q : Parser} {b : Byte} (h : p.Inv) (hPlain : isSpecialByte b = false)
    (hText : q.text = p.text ++ [b]) (hIndex : q.tidx = p.tidx) : q.Inv := by
  obtain ⟨hDollar, hComma, hStar, hCr⟩ := isSpecialByte_eq_false_iff.1 hPlain
  obtain ⟨hLegal, hTail, hHead⟩ := h
  unfold Parser.Inv
  rw [hText, hIndex]
  refine ⟨?legal, ?tail, ?head⟩
  case legal =>
    intro c hc
    obtain hc | hc := List.mem_append.1 hc
    · exact hLegal c hc
    · obtain rfl := List.mem_singleton.1 hc
      exact ⟨hComma, hStar, hCr⟩
  case tail =>
    intro c hc
    have hOr : c ∈ p.text.tail ∨ c = b := by
      cases hOld : p.text with
      | nil => simp [hOld] at hc
      | cons d ds => simpa [hOld] using hc
    obtain hc | rfl := hOr
    · exact hTail c hc
    · exact hDollar
  case head =>
    intro hc
    cases hOld : p.text with
    | nil => exact absurd (by simpa [hOld] using hc) hDollar
    | cons d ds => exact hHead (by simpa [hOld] using hc)

theorem Parser.Inv.termAdd_crcOther {p : Parser} {b : Byte} (h : p.Inv) (hPlain : isSpecialByte b = false) :
    ((p.crcOther b).termAdd b).Inv := by
  obtain hAdd | hAdd := (p.crcOther b).termAdd_cases b
  · exact h.append hPlain (by rw [hAdd, Parser.crcOther_text]) (by simp)
  · rw [hAdd]
    exact h.congr (by simp) (by simp)

theorem Parser.restart_termAdd_inv (p : Parser) : (p.restart.termAdd Ascii.dollar).Inv := by
  have hText : (p.restart.termAdd Ascii.dollar).text = [0x24] := by
    rw [Parser.text_termAdd _ (by simp), Parser.text_restart]; rfl
  unfold Parser.Inv
  rw [hText]
  simp

theorem Parser.Inv.feed {p : Parser} (cfg : Config) (b : Byte) (h : p.Inv) : (p.feed cfg b).Inv := by
  obtain rfl | rfl | rfl | rfl | hPlain := byte_cases b
  · exact p.restart_termAdd_inv
  · exact Parser.inv_of_text_nil (Parser.text_termNext _)
  · exact Parser.inv_of_text_nil (Parser.text_termNext _)
  · exact h
  · rw [Parser.feed_plain cfg p hPlain]
    exact h.termAdd_crcOther hPlain

theorem Parser.Inv.feedAll {bs : List Byte} {p : Parser} (cfg : Config) (h : p.Inv) :
    (bs.foldl (Parser.feed cfg) p).Inv := by
  induction bs generalizing p with
  | nil => exact h
  | cons b bs ih => exact ih (h.feed cfg b)

/-- An operation that decodes keeps the characters legal; `PB_OTHER` uses that its byte is of its class. -/
theorem exec_parser_inv {i : Instr} {s t : State} (hSide : (encode i).format ≠ .rbcmd) (hWf : i.wf = true)
    (hExec : exec i s = .next t) (h : s.p.Inv) : t.p.Inv := by
  obtain ⟨bs, -, -, rfl⟩ | ⟨b, rfl, -, rfl⟩ | ⟨-, rfl⟩ | ⟨-, -, rfl⟩ | ⟨hTerm, rfl⟩ := exec_parser_cases hSide hExec
  · rw [State.byteSpan_p]
    exact h.feedAll s.cfg
  · exact h.termAdd_crcOther (by simpa [Instr.wf] using hWf)
  · exact h
  · exact Parser.zero_inv
  · exact h.sameFraming (termEffect_frame s.cfg s.p hTerm).1

end Sys2Proof.Machine
end

section
/-!
PROOFS. The invariant on the ring's side (10_state.md R45, 20_memory.md R63, R71 to R79, R85): which cells a transfer
touches, what its commit does to the occupied region, and that each transfer stays sound under the other's steps.
-/
namespace Sys2Proof.Machine

/-! ### Cells -/

/-- A write never makes a cell unwritten. -/
theorem Memory.isSome_read?_write {m : List Host.Cell} (a : Nat) (v : Byte) {a' : Nat}
    (h : (Memory.read? m a').isSome) : (Memory.read? (Memory.write m a v) a').isSome := by
  rw [Memory.read?_write]
  split
  · rfl
  · exact h

theorem Memory.isSome_read?_store {C : Nat} (bs : List Byte) {m : List Host.Cell} (c : Nat) {a : Nat}
    (h : (Memory.read? m a).isSome) : (Memory.read? (Memory.store C m c bs) a).isSome := by
  induction bs generalizing m c with
  | nil => exact h
  | cons b bs ih => exact ih _ (Memory.isSome_read?_write _ b h)

/-- The write cursor stands right after the occupied region (R24). -/
theorem State.cell_after_occupied {s : State} (hr : s.rb.r < s.cfg.C) (hw : s.rb.w < s.cfg.C) (j : Nat) :
    (s.rb.r + (s.occ + j)) % s.cfg.C = (s.rb.w + j) % s.cfg.C := by
  rw [← Nat.add_assoc, ← Nat.mod_add_mod, State.occ, cursor_add_occupancy hr hw]

/-- The cells of the occupied region are not those of the free region (R63, R78). -/
theorem State.occupied_ne_free {s : State} (hr : s.rb.r < s.cfg.C) (hw : s.rb.w < s.cfg.C) {i j : Nat}
    (hi : i < s.occ) (hj : j < s.free) : (s.rb.r + i) % s.cfg.C ≠ (s.rb.w + j) % s.cfg.C := by
  intro hSame
  have hSum := s.occ_add_free
  have := offset_inj (C := s.cfg.C) (by omega) (by omega) (hSame.trans (State.cell_after_occupied hr hw j).symm)
  omega

/-! ### Commits -/

/-- After `k` more bytes have entered, the occupied region is written if those bytes are. -/
theorem State.RingInv.commitWrite {s t : State} {k : Nat} (h : s.RingInv) (hCfg : t.cfg = s.cfg)
    (hr : t.rb.r = s.rb.r) (hw : t.rb.w = (s.rb.w + k) % s.cfg.C) (hk : k ≤ s.free) (hWf : Memory.wf t.rb.mem)
    (hBound : ∀ c ∈ t.rb.mem, c.1 < s.cfg.C)
    (hOld : ∀ a, (Memory.read? s.rb.mem a).isSome → (Memory.read? t.rb.mem a).isSome)
    (hNew : ∀ j < k, (Memory.read? t.rb.mem ((s.rb.w + j) % s.cfg.C)).isSome) : t.RingInv := by
  obtain ⟨hrC, hwC, -, -, hWritten⟩ := h
  have hSum := s.occ_add_free
  have hOcc : t.occ = s.occ + k := by
    have hFits : s.occ + k < s.cfg.C := by have := s.cfg.C_pos; omega
    rw [State.occ, hCfg, hr, hw]
    exact occupancy_write hrC hwC hFits
  refine ⟨by rwa [hCfg, hr], by rw [hCfg, hw]; exact Nat.mod_lt _ s.cfg.C_pos, hWf, by rwa [hCfg], ?_⟩
  rw [hCfg, hr, hOcc]
  intro i hi
  by_cases hBefore : i < s.occ
  · exact hOld _ (hWritten i hBefore)
  · obtain ⟨j, rfl⟩ : ∃ j, i = s.occ + j := ⟨i - s.occ, by omega⟩
    rw [State.cell_after_occupied hrC hwC]
    exact hNew j (by omega)

/-- After `k` bytes have left, the occupied region is the rest of the old one. -/
theorem State.RingInv.commitRead {s t : State} {k : Nat} (h : s.RingInv) (hCfg : t.cfg = s.cfg)
    (hRing : t.rb = { s.rb with r := (s.rb.r + k) % s.cfg.C }) (hk : k ≤ s.occ) :
    t.RingInv ∧ t.occ = s.occ - k := by
  obtain ⟨hrC, hwC, hWf, hBound, hWritten⟩ := h
  have hOcc : t.occ = s.occ - k := by
    rw [State.occ, hCfg, hRing]
    exact occupancy_read hrC hwC hk
  refine ⟨⟨?_, ?_, ?_, ?_, ?_⟩, hOcc⟩
  · rw [hCfg, hRing]; exact Nat.mod_lt _ s.cfg.C_pos
  · rwa [hCfg, hRing]
  · rwa [hRing]
  · rwa [hCfg, hRing]
  · intro i hi
    have hCell : (t.rb.r + i) % t.cfg.C = (s.rb.r + (k + i)) % s.cfg.C := by
      rw [hCfg, hRing, Nat.mod_add_mod, Nat.add_assoc]
    rw [hCell, hRing]
    exact hWritten (k + i) (by omega)

/-- An emptied ring has no occupied region. -/
theorem State.RingInv.empty {s : State} (h : s.RingInv) : s.emptyRing.RingInv := by
  obtain ⟨-, -, hWf, hBound, -⟩ := h
  have hOcc : s.emptyRing.occ = 0 := State.occ_of_eq rfl
  exact ⟨s.cfg.C_pos, s.cfg.C_pos, hWf, hBound, fun i hi => by omega⟩

/-! ### The two transfers -/

section
variable {s : State}

/-- A write in progress fits the true free space (R79). -/
theorem State.WriteSound.k_le_free {x : WriteTransfer} (h : s.WriteSound x) : x.k ≤ s.free := by
  obtain ⟨hSnap, -, -, -, hFits, hOcc, -⟩ := h
  rw [freeSpace, hSnap] at hFits
  rw [State.free, freeSpace]
  change s.occ ≤ _ at hOcc
  change _ ≤ s.cfg.C - 1 - s.occ
  omega

/-- A read or peek in progress stays within the true occupancy (R79). -/
theorem State.ReadSound.skip_add_k_le_occ {x : ReadTransfer} (h : s.ReadSound x) : x.skip + x.k ≤ s.occ := by
  obtain ⟨-, -, -, -, -, hWanted, hOcc, -⟩ := h
  omega

/-- The bytes that a read or peek has moved are the ones in its cells. -/
theorem State.ReadSound.out_eq_load {x : ReadTransfer} (h : s.ReadSound x) :
    x.out = s.load (x.r0 + x.skip) x.out.length := by
  obtain ⟨-, -, -, -, -, -, -, hMoved⟩ := h
  apply List.ext_getElem?
  intro j
  by_cases hj : j < x.out.length
  · rw [s.load_getElem? _ _ j hj, List.getElem?_eq_getElem hj]
    congr 1
    exact (State.cell_of_read? ((hMoved j hj).trans (List.getElem?_eq_getElem hj))).symm
  · rw [List.getElem?_eq_none (by omega), List.getElem?_eq_none (by rw [State.load_length]; omega)]

end

/-- A write in progress stays sound while its cursor and its cells stay and the occupancy does not grow. -/
theorem State.WriteSound.mono {s t : State} {x : WriteTransfer} (h : s.WriteSound x) (hCfg : t.cfg = s.cfg)
    (hw : t.rb.w = s.rb.w) (hMem : t.rb.mem = s.rb.mem) (hOcc : t.occ ≤ s.occ) : t.WriteSound x := by
  unfold State.WriteSound at *
  rw [hCfg, hw, hMem]
  obtain ⟨hSnap, hr0, hi, hk, hFits, hOld, hMoved⟩ := h
  exact ⟨hSnap, hr0, hi, hk, hFits, hOcc.trans hOld, hMoved⟩

/-- A read in progress stays sound while its cursor and the occupied cells stay and the occupancy does not shrink. -/
theorem State.ReadSound.mono {s t : State} {x : ReadTransfer} (h : s.ReadSound x) (hCfg : t.cfg = s.cfg)
    (hr : t.rb.r = s.rb.r) (hOcc : s.occ ≤ t.occ)
    (hMem : ∀ i < s.occ, Memory.read? t.rb.mem ((s.rb.r + i) % s.cfg.C) =
      Memory.read? s.rb.mem ((s.rb.r + i) % s.cfg.C)) : t.ReadSound x := by
  have hInside := h.skip_add_k_le_occ
  obtain ⟨hSnap, hw0, hOut, hPeek, hSkip, hWanted, hOld, hMoved⟩ := h
  unfold State.ReadSound
  rw [hCfg, hr]
  refine ⟨hSnap, hw0, hOut, hPeek, hSkip, hWanted, hOld.trans hOcc, fun j hj => ?_⟩
  rw [← hMoved j hj, hSnap, Nat.add_assoc]
  exact hMem _ (by omega)

/-- A transfer just started is sound (R71, R72, R73). -/
theorem State.writeSound_start {s : State} (h : s.RingInv) (data : List Byte) :
    s.WriteSound { r0 := s.rb.r, w0 := s.rb.w, k := min data.length s.free, i := 0, data := data } := by
  obtain ⟨hr, -⟩ := h
  exact ⟨rfl, hr, Nat.zero_le _, Nat.min_le_left _ _, Nat.min_le_right _ _, le_rfl, fun j hj => absurd hj (Nat.not_lt_zero j)⟩

theorem State.readSound_start {s : State} (h : s.RingInv) {commits : Bool} {skip k : Nat}
    (hPeek : commits = false → 0 < k) (hRead : commits = true → skip = 0) (hk : skip + k ≤ s.occ) :
    s.ReadSound { commits := commits, r0 := s.rb.r, w0 := s.rb.w, skip := skip, k := k, out := [] } := by
  obtain ⟨-, hw, -⟩ := h
  exact ⟨rfl, hw, Nat.zero_le _, hPeek, hRead, hk, le_rfl, fun j hj => absurd hj (Nat.not_lt_zero j)⟩

/-! ### W2, R2 and P2 -/

/-- W2 writes outside the occupied region. -/
theorem State.writeOne_read? {s : State} {x : WriteTransfer} (hRing : s.RingInv) (h : s.WriteSound x)
    (hi : x.i < x.k) {i : Nat} (hOcc : i < s.occ) :
    Memory.read? (s.writeOne x).rb.mem ((s.rb.r + i) % s.cfg.C) = Memory.read? s.rb.mem ((s.rb.r + i) % s.cfg.C) := by
  have hFree := h.k_le_free
  obtain ⟨hSnap, -⟩ := h
  obtain ⟨hr, hw, -⟩ := hRing
  refine Memory.read?_write_other _ _ ?_
  rw [hSnap]
  exact State.occupied_ne_free hr hw hOcc (by omega)

theorem State.writeOne_ringInv {s : State} (x : WriteTransfer) (h : s.RingInv) : (s.writeOne x).RingInv := by
  obtain ⟨hr, hw, hWf, hBound, hWritten⟩ := h
  exact ⟨hr, hw, Memory.wf_write _ _ hWf, Memory.bound_write (Nat.mod_lt _ s.cfg.C_pos) hBound,
    fun i hi => Memory.isSome_read?_write _ _ (hWritten i hi)⟩

theorem State.WriteSound.writeOne {s : State} {x : WriteTransfer} (h : s.WriteSound x) (hi : x.i < x.k) :
    (s.writeOne x).WriteSound { x with i := x.i + 1 } := by
  have hFree := h.k_le_free
  have hSum := s.occ_add_free
  obtain ⟨hSnap, hr0, -, hk, hFits, hOcc, hMoved⟩ := h
  refine ⟨hSnap, hr0, hi, hk, hFits, hOcc, fun j hj => ?_⟩
  show Memory.read? (Memory.write s.rb.mem ((x.w0 + x.i) % s.cfg.C) (charAt x.data x.i)) ((x.w0 + j) % s.cfg.C) =
    x.data[j]?
  by_cases hLast : j = x.i
  · have hData : x.i < x.data.length := by omega
    rw [hLast, Memory.read?_write_same]
    simp [charAt, hData]
  · change j < x.i + 1 at hj
    rw [Memory.read?_write_other, hMoved j (by omega)]
    intro hSame
    exact hLast (offset_inj (C := s.cfg.C) (by omega) (by omega) hSame)

/-- R2 and P2 read a written cell, so the byte moved is the one listed. -/
theorem State.ReadSound.readOne {s : State} {x : ReadTransfer} (hRing : s.RingInv) (h : s.ReadSound x)
    (hLt : x.out.length < x.k) (hGo : x.commits = true ∨ (s.readOne x).out.length < x.k) :
    s.ReadSound (s.readOne x) := by
  have hInside := h.skip_add_k_le_occ
  obtain ⟨hSnap, hw0, -, -, hSkip, hWanted, hOcc, hMoved⟩ := h
  obtain ⟨-, -, -, -, hWritten⟩ := hRing
  have hLength : (s.readOne x).out.length = x.out.length + 1 := by simp [State.readOne]
  refine ⟨hSnap, hw0, by rw [hLength]; exact hLt, fun hPeek => ?peek, hSkip, hWanted, hOcc, fun j hj => ?moved⟩
  case peek =>
    obtain hCommits | hMore := hGo
    · exact absurd (hCommits.symm.trans hPeek) (by decide)
    · exact hMore
  case moved =>
    rw [hLength] at hj
    show Memory.read? s.rb.mem ((x.r0 + x.skip + j) % s.cfg.C) =
      (x.out ++ [s.cell ((x.r0 + x.skip + x.out.length) % s.cfg.C)])[j]?
    by_cases hLast : j = x.out.length
    · have hSome := hWritten (x.skip + x.out.length) (by omega)
      rw [← Nat.add_assoc, ← hSnap] at hSome
      obtain ⟨b, hb⟩ := Option.isSome_iff_exists.1 hSome
      rw [hLast, State.cell_of_read? hb, hb]
      simp
    · rw [hMoved j (by omega), List.getElem?_append_left (by omega)]

/-! ### W3 -/

theorem State.writeCommit_ringInv {s : State} {x : WriteTransfer} (hRing : s.RingInv) (h : s.WriteSound x)
    (hEnd : ¬ x.i < x.k) : (s.writeCommit x).RingInv := by
  have hFree := h.k_le_free
  obtain ⟨hSnap, -, -, hk, -, -, hMoved⟩ := h
  have hRing' := hRing
  obtain ⟨-, -, hWf, hBound, -⟩ := hRing'
  refine hRing.commitWrite (k := x.k) rfl rfl (by rw [← hSnap]; rfl) hFree hWf hBound (fun _ => id) fun j hj => ?_
  rw [← hSnap]
  have hData : j < x.data.length := by omega
  show (Memory.read? s.rb.mem ((x.w0 + j) % s.cfg.C)).isSome
  rw [hMoved j (by omega), List.getElem?_eq_getElem hData]
  rfl

theorem State.writeCommit_occ {s : State} {x : WriteTransfer} (hRing : s.RingInv) (h : s.WriteSound x) :
    (s.writeCommit x).occ = s.occ + x.k := by
  have hFree := h.k_le_free
  have hSum := s.occ_add_free
  obtain ⟨hr, hw, -⟩ := hRing
  obtain ⟨hSnap, -⟩ := h
  have hFits : occupancy s.cfg.C s.rb.r s.rb.w + x.k < s.cfg.C := by
    have := s.cfg.C_pos
    change s.occ + x.k < _
    omega
  show occupancy s.cfg.C s.rb.r ((x.w0 + x.k) % s.cfg.C) = _
  rw [hSnap]
  exact occupancy_write hr hw hFits

/-! ### RB_WRITE as a whole -/

theorem State.storeAndAdvance_ringInv {s : State} {data : List Byte} {k : Nat} (h : s.RingInv) (hk : k ≤ s.free)
    (hLength : k ≤ data.length) : (s.storeAndAdvance data k).RingInv := by
  have hSum := s.occ_add_free
  have hTake : (data.take k).length = k := List.length_take_of_le hLength
  have h' := h
  obtain ⟨-, -, hWf, hBound, -⟩ := h'
  refine h.commitWrite rfl rfl rfl hk (Memory.wf_store _ _ _ hWf) (Memory.bound_store s.cfg.C_pos _ _ hBound)
    (fun _ => Memory.isSome_read?_store _ _) fun j hj => ?_
  show (Memory.read? (Memory.store s.cfg.C s.rb.mem s.rb.w (data.take k)) ((s.rb.w + j) % s.cfg.C)).isSome
  rw [Memory.read?_store _ (by omega) _ _ _ (by omega), List.getElem?_eq_getElem (by omega)]
  rfl

theorem State.storeAndAdvance_read? {s : State} {data : List Byte} {k i : Nat} (h : s.RingInv) (hk : k ≤ s.free)
    (hi : i < s.occ) : Memory.read? (s.storeAndAdvance data k).rb.mem ((s.rb.r + i) % s.cfg.C) =
      Memory.read? s.rb.mem ((s.rb.r + i) % s.cfg.C) := by
  obtain ⟨hr, hw, -⟩ := h
  refine Memory.read?_store_other _ _ _ _ fun j hj => State.occupied_ne_free hr hw hi ?_
  have := List.length_take_le k data
  omega

end Sys2Proof.Machine
end

section
/-!
PROOFS. The invariant of the whole machine (10_state.md section 8, 20_memory.md section 8; `State.Inv`): each kind of step
keeps it, and so every step does.
-/
namespace Sys2Proof.Machine

/-- The ring's part of the invariant speaks of the ring and the parameters only. -/
theorem State.RingInv.congr {s t : State} (h : s.RingInv) (hRb : t.rb = s.rb) (hCfg : t.cfg = s.cfg) : t.RingInv := by
  unfold State.RingInv State.occ at *
  rwa [hRb, hCfg]

theorem State.occ_congr {s t : State} (hRb : t.rb = s.rb) (hCfg : t.cfg = s.cfg) : t.occ = s.occ := by
  rw [State.occ, State.occ, hRb, hCfg]

/-- A step that keeps the ring and both transfers keeps the invariant if the parser's part is kept. -/
theorem State.Inv.congr {s t : State} (h : s.Inv) (hP : t.p.Inv) (hRb : t.rb = s.rb) (hCfg : t.cfg = s.cfg)
    (hWriting : t.writing = s.writing) (hReading : t.reading = s.reading) (hSpan : t.spanning ≠ some []) : t.Inv := by
  obtain ⟨-, hRing, hWrite, hRead, -⟩ := h
  have hOcc := State.occ_congr hRb hCfg
  refine ⟨hP, hRing.congr hRb hCfg, fun x hx => ?write, fun x hx => ?read, hSpan⟩
  case write => exact (hWrite x (hWriting ▸ hx)).mono hCfg (by rw [hRb]) (by rw [hRb]) hOcc.le
  case read => exact (hRead x (hReading ▸ hx)).mono hCfg (by rw [hRb]) hOcc.ge fun i _ => by rw [hRb]

/-- An operation on the parser's side keeps the invariant if the kept characters stay legal. -/
theorem State.Inv.sameOutsideParser {s t : State} (h : s.Inv) (hOutside : s.SameOutsideParser t) (hP : t.p.Inv) :
    t.Inv := by
  obtain ⟨hRb, hWriting, hReading, hSpan, -, -, hCfg, -⟩ := hOutside
  obtain ⟨-, -, -, -, hSpan'⟩ := id h
  exact h.congr hP hRb hCfg hWriting hReading (by rwa [hSpan])

theorem State.afterReset_inv (cfg : Config) (n : Nat) : (State.afterReset cfg n).Inv := by
  have hOcc : (State.afterReset cfg n).occ = 0 := State.occ_of_eq rfl
  exact ⟨Parser.zero_inv, ⟨cfg.C_pos, cfg.C_pos, Memory.wf_nil, nofun, fun i hi => by omega⟩, nofun, nofun, nofun⟩

/-! ### Whole operations -/

theorem exec_ring_inv {i : Instr} {s t : State} (hSide : (encode i).format = .rbcmd) (hExec : exec i s = .next t)
    (h : s.Inv) : t.Inv := by
  obtain ⟨hP, hRing, hWrite, hRead, hSpan⟩ := id h
  obtain ⟨-, hw, hr, rfl⟩ | ⟨data, -, hw, rfl⟩ | ⟨n, -, hr, rfl⟩ | ⟨skip, n, -, -, rfl⟩ | ⟨port, k, -, rfl⟩ :=
    exec_ring_cases hSide hExec
  · exact ⟨hP, hRing.empty, fun x hx => (nomatch hw.symm.trans hx), fun x hx => (nomatch hr.symm.trans hx), hSpan⟩
  · have hFree : min data.length s.free ≤ s.free := Nat.min_le_right _ _
    have hLength : min data.length s.free ≤ data.length := Nat.min_le_left _ _
    have hOcc : (s.storeAndAdvance data (min data.length s.free)).occ = s.occ + min data.length s.free :=
      State.storeAndAdvance_occ hRing.1 hRing.2.1 hFree
    exact ⟨hP, State.storeAndAdvance_ringInv hRing hFree hLength, fun x hx => (nomatch hw.symm.trans hx),
      fun x hx => (hRead x hx).mono (t := s.storeAndAdvance data (min data.length s.free)) rfl rfl (by omega)
        fun _ => State.storeAndAdvance_read? hRing hFree, hSpan⟩
  · have hOcc : min n s.occ ≤ s.occ := Nat.min_le_right _ _
    obtain ⟨hRing', hOcc'⟩ := hRing.commitRead (t := s.advanceRead (min n s.occ)) rfl rfl hOcc
    exact ⟨hP, hRing', fun x hx => (hWrite x hx).mono (t := s.advanceRead (min n s.occ)) rfl rfl rfl (by omega),
      fun x hx => (nomatch hr.symm.trans hx), hSpan⟩
  · exact h
  · cases port <;> exact h

/-- Every operation that decodes keeps the invariant. -/
theorem exec_inv {i : Instr} {s t : State} (hWf : i.wf = true) (hExec : exec i s = .next t) (h : s.Inv) : t.Inv := by
  by_cases hSide : (encode i).format = .rbcmd
  · exact exec_ring_inv hSide hExec h
  · exact h.sameOutsideParser (exec_parser_outside hSide hExec) (exec_parser_inv hSide hWf hExec h.1)

/-! ### First micro-steps -/

theorem begin_inv {i : Instr} {s t : State} (hWf : i.wf = true) (hBegin : begin i s = .next t) (h : s.Inv) : t.Inv := by
  obtain ⟨hP, hRing, hWrite, hRead, hSpan⟩ := id h
  obtain ⟨data, -, -, rfl⟩ | ⟨n, -, -, rfl⟩ | ⟨skip, n, -, -, ⟨-, rfl⟩ | ⟨hSome, rfl⟩⟩ |
    ⟨bytes, -, -, ⟨-, rfl⟩ | ⟨hSome, rfl⟩⟩ | ⟨-, -, -, hExec⟩ := begin_cases hBegin
  · refine ⟨hP, hRing, fun x hx => ?_, hRead, hSpan⟩
    cases hx
    exact State.writeSound_start hRing data
  · refine ⟨hP, hRing, hWrite, fun x hx => ?_, hSpan⟩
    cases hx
    exact State.readSound_start hRing nofun (fun _ => rfl) (by omega)
  · exact ⟨hP, hRing, hWrite, nofun, hSpan⟩
  · refine ⟨hP, hRing, hWrite, fun x hx => ?_, hSpan⟩
    cases hx
    exact State.readSound_start hRing (fun _ => Nat.pos_of_ne_zero hSome) nofun (peekCount_le hSome)
  · exact h
  · exact ⟨hP, hRing, hWrite, hRead, fun hNil => hSome (Option.some.inj hNil)⟩
  · exact exec_inv hWf hExec h

/-! ### Later micro-steps -/

theorem advanceWrite_inv {s t : State} (hAdvance : advanceWrite s = .next t) (h : s.Inv) : t.Inv := by
  obtain ⟨hP, hRing, hWrite, hRead, hSpan⟩ := h
  obtain ⟨x, hx, ⟨hLt, rfl⟩ | ⟨hEnd, rfl⟩⟩ := advanceWrite_next hAdvance
  · have hSound := hWrite x hx
    refine ⟨hP, State.writeOne_ringInv x hRing, fun y hy => ?_, fun y hy => ?_, hSpan⟩
    · cases hy
      exact hSound.writeOne hLt
    · exact (hRead y hy).mono (t := s.writeOne x) rfl rfl le_rfl fun _ => State.writeOne_read? hRing hSound hLt
  · have hSound := hWrite x hx
    have hOcc := State.writeCommit_occ hRing hSound
    exact ⟨hP, State.writeCommit_ringInv hRing hSound hEnd, nofun,
      fun y hy => (hRead y hy).mono (t := s.writeCommit x) rfl rfl (by omega) fun _ _ => rfl, hSpan⟩

/-- R3 takes the whole count of the read from the front. -/
theorem State.readCommit_ringInv {s : State} {x : ReadTransfer} (hRing : s.RingInv) (h : s.ReadSound x) :
    (s.readCommit x).RingInv ∧ (s.readCommit x).occ = s.occ - x.k := by
  have hInside := h.skip_add_k_le_occ
  obtain ⟨hSnap, -⟩ := h
  exact hRing.commitRead rfl (by rw [← hSnap]; rfl) (by omega)

theorem advanceRead_inv {s t : State} (hAdvance : advanceRead s = .next t) (h : s.Inv) : t.Inv := by
  obtain ⟨hP, hRing, hWrite, hRead, hSpan⟩ := h
  obtain ⟨x, hx, ⟨hLt, rfl⟩ | ⟨-, -, rfl⟩ | ⟨-, -, rfl⟩⟩ := advanceRead_next hAdvance
  · obtain ⟨hGo, hMore⟩ | ⟨-, -, hMore⟩ := s.readMore_cases x
    · rw [hMore]
      refine ⟨hP, hRing, hWrite, fun y hy => ?_, hSpan⟩
      cases hy
      exact (hRead x hx).readOne hRing hLt hGo
    · rw [hMore]
      exact ⟨hP, hRing, hWrite, nofun, hSpan⟩
  · obtain ⟨hRing', hOcc⟩ := State.readCommit_ringInv hRing (hRead x hx)
    exact ⟨hP, hRing', fun y hy => (hWrite y hy).mono (t := s.readCommit x) rfl rfl rfl (by omega), nofun, hSpan⟩
  · exact ⟨hP, hRing, hWrite, nofun, hSpan⟩

theorem advanceParser_inv {s t : State} (hAdvance : advanceParser s = .next t) (h : s.Inv) : t.Inv := by
  obtain ⟨hP, hRing, hWrite, hRead, -⟩ := id h
  obtain ⟨-, rfl⟩ | ⟨b, bs, -, rfl⟩ := advanceParser_next hAdvance
  · exact ⟨hP, hRing, hWrite, hRead, nofun⟩
  · obtain ⟨hRb, hWriting, hReading, -, -, -, hCfg, -⟩ := s.byteStep_outside b
    refine h.congr (by rw [State.withSpanning_p, State.byteStep_p]; exact hP.feed s.cfg b) hRb hCfg hWriting hReading ?_
    rw [State.withSpanning_spanning]
    split
    · nofun
    · rename_i hRest
      exact fun hNil => hRest (Option.some.inj hNil)

theorem advance_inv {lane : Lane} {s t : State} (hAdvance : advance lane s = .next t) (h : s.Inv) : t.Inv := by
  cases lane with
  | write => exact advanceWrite_inv hAdvance h
  | read => exact advanceRead_inv hAdvance h
  | parser => exact advanceParser_inv hAdvance h

end Sys2Proof.Machine

namespace Sys2Proof

open Machine

/-- Settles O8: both cursors are 0, so no cell is occupied, and the term is empty. -/
theorem stateAfterResetMeetsTheInvariant : Obligations.StateAfterResetMeetsTheInvariant := fun cfg n =>
  ⟨State.afterReset_inv cfg n, rfl, rfl, rfl⟩

/-- Settles O9: by what the head of the schedule is; what decodes is well formed. -/
theorem everyStepKeepsTheInvariant : Obligations.EveryStepKeepsTheInvariant := by
  intro s t h hStep
  obtain ⟨-, rfl⟩ | ⟨tr, rest, i, -, hDecode, hExec⟩ | ⟨tr, rest, i, -, hDecode, hBegin⟩ | ⟨lane, rest, -, hAdvance⟩ |
    ⟨rest, -, rfl⟩ := step_cases hStep
  · exact h
  · exact exec_inv (decode_row hDecode).1 hExec h
  · exact begin_inv (decode_row hDecode).1 hBegin h
  · exact advance_inv hAdvance h
  · exact State.afterReset_inv s.cfg (s.epoch + 1)

/-- Settles O56: the snapshot's sizes bound the counts, and the other side has only moved in the transfer's favour. -/
theorem staleCountsAreConservative : Obligations.StaleCountsAreConservative := by
  intro s h
  obtain ⟨-, -, hWrite, hRead, -⟩ := h
  exact ⟨fun x hx => (hWrite x hx).k_le_free, fun x hx => (hRead x hx).skip_add_k_le_occ⟩

end Sys2Proof
end

section
/-!
PROOFS. The stored bytes (20_memory.md sections 5 and 6, R69, R74, R78): what a commit appends or takes, that nothing else
touches them, and the FIFO order that follows.
-/
namespace Sys2Proof.Machine

/-! ### Three things that can happen to the stored bytes -/

theorem State.contents_of_occ_zero {s : State} (h : s.occ = 0) : s.contents = [] :=
  List.eq_nil_of_length_eq_zero (by rw [State.contents_length, h])

theorem State.cell_congr {s t : State} {a : Nat} (hEpoch : t.epoch = s.epoch)
    (h : Memory.read? t.rb.mem a = Memory.read? s.rb.mem a) : t.cell a = s.cell a := by
  rw [State.cell, State.cell, h, hEpoch]

/-- They stay when the cursors and the cells of the occupied region stay. -/
theorem State.contents_congr {s t : State} (hCfg : t.cfg = s.cfg) (hr : t.rb.r = s.rb.r) (hw : t.rb.w = s.rb.w)
    (hCells : ∀ i < s.occ, t.cell ((s.rb.r + i) % s.cfg.C) = s.cell ((s.rb.r + i) % s.cfg.C)) :
    t.contents = s.contents := by
  have hOcc : t.occ = s.occ := by rw [State.occ, State.occ, hCfg, hr, hw]
  rw [State.contents, hOcc, hr]
  exact State.load_congr hCfg hCells

theorem State.contents_of_sameOutsideParser {s t : State} (h : s.SameOutsideParser t) :
    t.contents = s.contents ∧ t.rb = s.rb := by
  obtain ⟨hRb, -, -, -, -, -, hCfg, hEpoch, -⟩ := h
  refine ⟨State.contents_congr hCfg (by rw [hRb]) (by rw [hRb]) fun i _ => ?_, hRb⟩
  exact State.cell_congr hEpoch (by rw [hRb])

/-- Bytes enter at the end when the write cursor moves on over cells that hold them. -/
theorem State.contents_append {s t : State} {data : List Byte} {k : Nat} (hRing : s.RingInv) (hCfg : t.cfg = s.cfg)
    (hr : t.rb.r = s.rb.r) (hOcc : t.occ = s.occ + k) (hk : k ≤ data.length)
    (hOld : ∀ i < s.occ, t.cell ((s.rb.r + i) % s.cfg.C) = s.cell ((s.rb.r + i) % s.cfg.C))
    (hNew : ∀ j < k, t.cell ((s.rb.w + j) % s.cfg.C) = charAt data j) : t.contents = s.contents ++ data.take k := by
  obtain ⟨hrC, hwC, -⟩ := hRing
  have hEntered : t.load (s.rb.r + s.occ) k = data.take k := by
    apply List.ext_getElem?
    intro j
    by_cases hj : j < k
    · have hData : j < data.length := by omega
      rw [t.load_getElem? _ _ _ hj, hCfg, Nat.add_assoc, State.cell_after_occupied hrC hwC, hNew j hj]
      simp [charAt, hj, hData]
    · rw [List.getElem?_eq_none (by rw [State.load_length]; omega), List.getElem?_eq_none (by simp; omega)]
  rw [State.contents, hOcc, hr, State.load_add, hEntered, State.load_congr hCfg hOld]
  rfl

/-- Bytes leave from the front when the read cursor moves on. -/
theorem State.contents_remove {s t : State} {k : Nat} (hCfg : t.cfg = s.cfg) (hEpoch : t.epoch = s.epoch)
    (hRing : t.rb = { s.rb with r := (s.rb.r + k) % s.cfg.C }) (hOcc : t.occ = s.occ - k) (hk : k ≤ s.occ) :
    s.contents = s.load s.rb.r k ++ t.contents := by
  have hSame : ∀ c j, t.load c j = s.load c j := fun c j =>
    State.load_congr hCfg fun i _ => State.cell_congr hEpoch (by rw [hRing])
  rw [State.contents, State.contents, hOcc, hRing, hSame, State.load_mod, ← State.load_add, Nat.add_sub_cancel' hk]

/-! ### What a step does, from the head of the schedule -/

/-- What a move says of the state before a step and the state after it. -/
def RingMove.Holds (s t : State) : RingMove → Prop
  | .keeps => t.contents = s.contents ∧ t.rb.r = s.rb.r ∧ t.rb.w = s.rb.w
  | .appends bytes => t.contents = s.contents ++ bytes ∧ t.prodOut = ⟨bytes.length, []⟩ ∧ t.rb.r = s.rb.r ∧
      t.rb.w = (s.rb.w + bytes.length) % s.cfg.C
  | .removes k => s.contents = t.consOut.out ++ t.contents ∧ t.consOut.k = k ∧ t.consOut.out.length = k ∧
      t.rb.w = s.rb.w ∧ t.rb.r = (s.rb.r + k) % s.cfg.C
  | .empties => t.contents = [] ∧ t.rb.r = 0 ∧ t.rb.w = 0

theorem RingMove.keeps_of_contents {s t : State} (hContents : t.contents = s.contents) (hRb : t.rb = s.rb) :
    RingMove.keeps.Holds s t :=
  ⟨hContents, by rw [hRb], by rw [hRb]⟩

theorem RingMove.keeps_of_sameOutsideParser {s t : State} (h : s.SameOutsideParser t) : RingMove.keeps.Holds s t := by
  obtain ⟨hContents, hRb⟩ := State.contents_of_sameOutsideParser h
  exact RingMove.keeps_of_contents hContents hRb

theorem RingMove.empties_of_zero {s t : State} (hr : t.rb.r = 0) (hw : t.rb.w = 0) : RingMove.empties.Holds s t :=
  ⟨State.contents_of_occ_zero (State.occ_of_eq (hr.trans hw.symm)), hr, hw⟩

theorem State.moveOf_of_emptiesRing {i : Instr} (s : State) (h : emptiesRing i = true) : s.moveOf i = .empties := by
  cases i with
  | rbInit | rbReset => rfl
  | _ => cases h

theorem State.moveOf_of_parser {i : Instr} (s : State) (h : (encode i).format ≠ .rbcmd) : s.moveOf i = .keeps := by
  cases i with
  | rbInit | rbReset | rbWrite | rbRead | rbPeek | rbFree | rbOcc | rbRsvd7 => exact absurd rfl h
  | _ => rfl

/-- RB_WRITE appends the bytes that fit (R205). -/
theorem rbWrite_holds {s : State} (hRing : s.RingInv) (data : List Byte) :
    (RingMove.appends (data.take s.free)).Holds s
      ((s.storeAndAdvance data (min data.length s.free)).withProdOut ⟨min data.length s.free, []⟩) := by
  have hSum := s.occ_add_free
  have hFree : min data.length s.free ≤ s.free := Nat.min_le_right _ _
  have hLength : min data.length s.free ≤ data.length := Nat.min_le_left _ _
  have hBytes : (data.take s.free).length = min data.length s.free := by rw [List.length_take, Nat.min_comm]
  have hTake : data.take s.free = data.take (min data.length s.free) := by
    rw [List.take_eq_take_min, Nat.min_comm]
  refine ⟨?contents, by rw [hBytes]; rfl, rfl, by rw [hBytes]; rfl⟩
  case contents =>
    rw [hTake]
    refine State.contents_append (t := s.storeAndAdvance data (min data.length s.free)) hRing rfl rfl
      (State.storeAndAdvance_occ hRing.1 hRing.2.1 hFree) hLength (fun i hi => ?old)
      (fun j hj => State.storeAndAdvance_cell hLength (by omega) hj)
    case old => exact State.cell_congr rfl (State.storeAndAdvance_read? hRing hFree hi)

/-- RB_READ takes the oldest bytes (R206). -/
theorem rbRead_holds {s : State} (hRing : s.RingInv) (n : Nat) :
    (RingMove.removes (min n s.occ)).Holds s
      ((s.advanceRead (min n s.occ)).withConsOut ⟨min n s.occ, s.load s.rb.r (min n s.occ)⟩) := by
  have hOcc : min n s.occ ≤ s.occ := Nat.min_le_right _ _
  exact ⟨State.contents_remove (t := s.advanceRead (min n s.occ)) rfl rfl rfl
    (State.advanceRead_occ hRing.1 hRing.2.1 hOcc) hOcc, rfl, s.load_length _ _, rfl, rfl⟩

theorem exec_holds {i : Instr} {s t : State} (hRing : s.RingInv) (hExec : exec i s = .next t) :
    (s.moveOf i).Holds s t := by
  by_cases hSide : (encode i).format = .rbcmd
  · obtain ⟨hEmpties, -, -, rfl⟩ | ⟨data, rfl, -, rfl⟩ | ⟨n, rfl, -, rfl⟩ | ⟨skip, n, rfl, -, rfl⟩ |
      ⟨port, k, ⟨rfl, -⟩ | ⟨rfl, -⟩ | ⟨rfl, -⟩, rfl⟩ := exec_ring_cases hSide hExec
    · rw [s.moveOf_of_emptiesRing hEmpties]
      exact RingMove.empties_of_zero rfl rfl
    · exact rbWrite_holds hRing data
    · exact rbRead_holds hRing n
    · exact RingMove.keeps_of_contents rfl rfl
    all_goals cases port <;> exact RingMove.keeps_of_contents rfl rfl
  · rw [s.moveOf_of_parser hSide]
    exact RingMove.keeps_of_sameOutsideParser (exec_parser_outside hSide hExec)

theorem begin_holds {i : Instr} {s t : State} (hRing : s.RingInv) (hBegin : begin i s = .next t) :
    (moveOfStart i).Holds s t := by
  obtain ⟨data, rfl, -, rfl⟩ | ⟨n, rfl, -, rfl⟩ | ⟨skip, n, rfl, -, ⟨-, rfl⟩ | ⟨-, rfl⟩⟩ |
    ⟨bytes, rfl, -, ⟨-, rfl⟩ | ⟨-, rfl⟩⟩ | ⟨hWrite, hRead, -, hExec⟩ := begin_cases hBegin
  · exact RingMove.keeps_of_contents rfl rfl
  · exact RingMove.keeps_of_contents rfl rfl
  · exact RingMove.keeps_of_contents rfl rfl
  · exact RingMove.keeps_of_contents rfl rfl
  · exact RingMove.keeps_of_contents rfl rfl
  · exact RingMove.keeps_of_contents rfl rfl
  · have hMove : s.moveOf i = moveOfStart i := by
      cases i with
      | rbWrite data => exact absurd rfl (hWrite data)
      | rbRead n => exact absurd rfl (hRead n)
      | _ => rfl
    rw [← hMove]
    exact exec_holds hRing hExec

/-- W2 stores outside the occupied region; W3 appends the bytes that stand there already (R71). -/
theorem advanceWrite_holds {s t : State} {x : WriteTransfer} (hRing : s.RingInv) (hSound : s.WriteSound x)
    (hStep : (x.i < x.k ∧ t = s.writeOne x) ∨ (¬ x.i < x.k ∧ t = s.writeCommit x)) : (moveOfWrite x).Holds s t := by
  obtain ⟨hLt, rfl⟩ | ⟨hEnd, rfl⟩ := hStep
  · rw [moveOfWrite, if_pos hLt]
    refine ⟨State.contents_congr rfl rfl rfl fun i hi => ?_, rfl, rfl⟩
    exact State.cell_congr rfl (State.writeOne_read? hRing hSound hLt hi)
  · have hOcc := State.writeCommit_occ hRing hSound
    obtain ⟨hSnap, -, -, hk, -, -, hMoved⟩ := hSound
    have hBytes : (x.data.take x.k).length = x.k := List.length_take_of_le hk
    rw [moveOfWrite, if_neg hEnd]
    refine ⟨State.contents_append hRing rfl rfl hOcc hk (fun _ _ => rfl) fun j hj => ?cell, by rw [hBytes]; rfl, rfl,
      by rw [hBytes, ← hSnap]; rfl⟩
    case cell =>
      have hData : j < x.data.length := by omega
      rw [← hSnap]
      apply State.cell_of_read? (s := s.writeCommit x)
      exact (hMoved j (by omega)).trans (by simp [charAt, hData])

/-- R2, P2 and the end of a peek keep the bytes; R3 takes those that R2 has moved (R72, R73). -/
theorem advanceRead_holds {s t : State} {x : ReadTransfer} (hRing : s.RingInv) (hSound : s.ReadSound x)
    (hStep : (x.out.length < x.k ∧ t = s.readMore x) ∨
       (¬ x.out.length < x.k ∧ x.commits = true ∧ t = s.readCommit x) ∨
       (¬ x.out.length < x.k ∧ x.commits = false ∧ t = s.peekReturn x.out)) : (moveOfRead x).Holds s t := by
  obtain ⟨hLt, rfl⟩ | ⟨hEnd, hCommits, rfl⟩ | ⟨hEnd, hCommits, rfl⟩ := hStep
  · have hMove : moveOfRead x = .keeps := by simp [moveOfRead, hLt]
    rw [hMove]
    obtain ⟨-, hMore⟩ | ⟨-, -, hMore⟩ := s.readMore_cases x <;> rw [hMore] <;>
      exact RingMove.keeps_of_contents rfl rfl
  · have hMove : moveOfRead x = .removes x.k := by simp [moveOfRead, hEnd, hCommits]
    rw [hMove]
    have hInside := hSound.skip_add_k_le_occ
    obtain ⟨-, hOcc⟩ := State.readCommit_ringInv hRing hSound
    have hOut := hSound.out_eq_load
    obtain ⟨hSnap, -, hMoved, -, hSkip, -⟩ := hSound
    have hLength : x.out.length = x.k := by omega
    rw [hSkip hCommits, hLength, Nat.add_zero, hSnap] at hOut
    refine ⟨?contents, rfl, hLength, rfl, by rw [← hSnap]; rfl⟩
    case contents =>
      show s.contents = x.out ++ _
      rw [hOut]
      exact State.contents_remove rfl rfl (by rw [← hSnap]; rfl) hOcc (by omega)
  · have hMove : moveOfRead x = .keeps := by simp [moveOfRead, hCommits]
    rw [hMove]
    exact RingMove.keeps_of_contents rfl rfl

theorem advanceParser_holds {s t : State} (hAdvance : advanceParser s = .next t) : RingMove.keeps.Holds s t := by
  obtain ⟨-, rfl⟩ | ⟨b, bs, -, rfl⟩ := advanceParser_next hAdvance
  · exact RingMove.keeps_of_contents rfl rfl
  · obtain ⟨hContents, hRb⟩ := State.contents_of_sameOutsideParser (s.byteStep_outside b)
    exact RingMove.keeps_of_contents hContents hRb

/-- What a step does to the stored bytes is what the head of the schedule says. -/
theorem step_holds {s t : State} (h : s.Inv) (hStep : step s = .next t) : s.nextMove.Holds s t := by
  obtain ⟨-, hRing, hWrite, hRead, -⟩ := h
  obtain ⟨hSched, rfl⟩ | ⟨tr, rest, i, hSched, hDecode, hExec⟩ | ⟨tr, rest, i, hSched, hDecode, hBegin⟩ |
    ⟨lane, rest, hSched, hAdvance⟩ | ⟨rest, hSched, rfl⟩ := step_cases hStep
  · rw [State.nextMove_nil hSched]
    exact RingMove.keeps_of_contents rfl rfl
  · rw [State.nextMove_present hSched hDecode]
    exact exec_holds (s := s.withSched rest) hRing hExec
  · rw [State.nextMove_start hSched hDecode]
    exact begin_holds (s := s.withSched rest) hRing hBegin
  · cases lane with
    | write =>
      obtain ⟨x, hx, hNext⟩ := advanceWrite_next hAdvance
      rw [State.nextMove_write hSched hx]
      exact advanceWrite_holds (s := s.withSched rest) hRing (hWrite x hx) hNext
    | read =>
      obtain ⟨x, hx, hNext⟩ := advanceRead_next hAdvance
      rw [State.nextMove_read hSched hx]
      exact advanceRead_holds (s := s.withSched rest) hRing (hRead x hx) hNext
    | parser =>
      rw [State.nextMove_parser hSched]
      exact advanceParser_holds (s := s.withSched rest) hAdvance
  · rw [State.nextMove_hardwareReset hSched]
    exact RingMove.empties_of_zero rfl rfl

/-! ### FIFO -/

/-- The bytes an operation accepted, read from the state after it (R69). -/
def acceptedBy (i : Instr) (t : State) : List Byte :=
  match i with
  | .rbWrite data => data.take t.prodOut.k
  | _ => []

/-- The bytes an operation returned by moving the read cursor (R69). -/
def returnedBy (i : Instr) (t : State) : List Byte :=
  match i with
  | .rbRead _ => t.consOut.out
  | _ => []

theorem acceptedBytes_cons {i : Instr} {s t : State} (is : List Instr) (h : exec i s = .next t) :
    acceptedBytes (i :: is) s = acceptedBy i t ++ acceptedBytes is t := by
  rw [acceptedBytes, h]
  cases i <;> rfl

theorem returnedBytes_cons {i : Instr} {s t : State} (is : List Instr) (h : exec i s = .next t) :
    returnedBytes (i :: is) s = returnedBy i t ++ returnedBytes is t := by
  rw [returnedBytes, h]
  cases i <;> rfl

theorem exec_ringInv {i : Instr} {s t : State} (hRing : s.RingInv) (hExec : exec i s = .next t) : t.RingInv := by
  by_cases hSide : (encode i).format = .rbcmd
  · obtain ⟨-, -, -, rfl⟩ | ⟨data, -, -, rfl⟩ | ⟨n, -, -, rfl⟩ | ⟨skip, n, -, -, rfl⟩ | ⟨port, k, -, rfl⟩ :=
      exec_ring_cases hSide hExec
    · exact hRing.empty
    · exact State.storeAndAdvance_ringInv hRing (Nat.min_le_right _ _) (Nat.min_le_left _ _)
    · exact (hRing.commitRead (t := s.advanceRead (min n s.occ)) rfl rfl (Nat.min_le_right _ _)).1
    · exact hRing
    · cases port <;> exact hRing
  · obtain ⟨hRb, -, -, -, -, -, hCfg, -⟩ := exec_parser_outside hSide hExec
    exact hRing.congr hRb hCfg

/-- One operation: what was stored and what it accepted is what it returned and what is stored (R69). -/
theorem exec_fifo {i : Instr} {s t : State} (hRing : s.RingInv) (hi : emptiesRing i = false)
    (hExec : exec i s = .next t) : s.contents ++ acceptedBy i t = returnedBy i t ++ t.contents := by
  have hHolds := exec_holds hRing hExec
  cases i with
  | rbWrite data =>
    obtain ⟨hContents, hOut, -⟩ := hHolds
    have hBytes : data.take (data.take s.free).length = data.take s.free := by
      rw [List.length_take, ← List.take_take, List.take_length]
    rw [hContents, acceptedBy, hOut, hBytes]
    rfl
  | rbRead n =>
    obtain ⟨hContents, -⟩ := hHolds
    exact (List.append_nil _).trans hContents
  | rbInit port | rbReset port => cases hi
  | _ =>
    obtain ⟨hContents, -⟩ := hHolds
    exact (List.append_nil _).trans hContents.symm

theorem execAll_cons {i : Instr} {is : List Instr} {s u : State} (h : execAll (i :: is) s = .next u) :
    ∃ t, exec i s = .next t ∧ execAll is t = .next u := by
  rw [execAll] at h
  split at h
  · exact ⟨_, by assumption, h⟩
  · cases h
  · cases h

theorem execAll_fifo (is : List Instr) {s u : State} (hRing : s.RingInv) (his : ∀ i ∈ is, emptiesRing i = false)
    (hExec : execAll is s = .next u) : s.contents ++ acceptedBytes is s = returnedBytes is s ++ u.contents := by
  induction is generalizing s with
  | nil => cases hExec; exact List.append_nil _
  | cons i is ih =>
    obtain ⟨t, hFirst, hRest⟩ := execAll_cons hExec
    have hOne := exec_fifo hRing (his i (by simp)) hFirst
    have hAll := ih (exec_ringInv hRing hFirst) (fun j hj => his j (by simp [hj])) hRest
    calc s.contents ++ acceptedBytes (i :: is) s
        = (s.contents ++ acceptedBy i t) ++ acceptedBytes is t := by rw [acceptedBytes_cons is hFirst, List.append_assoc]
      _ = returnedBy i t ++ (t.contents ++ acceptedBytes is t) := by rw [hOne, List.append_assoc]
      _ = returnedBy i t ++ (returnedBytes is t ++ u.contents) := by rw [hAll]
      _ = returnedBytes (i :: is) s ++ u.contents := by rw [returnedBytes_cons is hFirst, List.append_assoc]

end Sys2Proof.Machine

namespace Sys2Proof

open Machine

/-- Settles O57: each kind of step against its move; the transfers' soundness says that the bytes a commit appends or
takes are the ones in the cells. -/
theorem everyInterleavingKeepsTheByteOrder : Obligations.EveryInterleavingKeepsTheByteOrder := by
  intro s t h hStep
  have hHolds := step_holds h hStep
  cases hMove : s.nextMove <;> rw [hMove] at hHolds <;> exact hHolds

/-- Settles O52: by induction over the operations; from an empty ring nothing stands before the accepted bytes. -/
theorem bytesLeaveInTheOrderTheyEntered : Obligations.BytesLeaveInTheOrderTheyEntered := by
  intro is s t hRing his hExec
  have hFifo := execAll_fifo is hRing his hExec
  refine ⟨hFifo, fun hEmpty => ⟨t.contents, ?_⟩⟩
  rw [← hFifo, State.contents_of_occ_zero hEmpty, List.nil_append]

end Sys2Proof
end

section
/-!
PROOFS. Cells that nothing has written (20_memory.md section 8, R85, U1; log 5): every load lies in the occupied region, so
no step sees the epoch that selects the free contents.
-/
namespace Sys2Proof.Machine

/-- The state with the free contents of another epoch. -/
def State.withEpoch (s : State) (n : Nat) : State := { s with epoch := n }

/-! ### The ring's side -/

theorem State.cell_withEpoch {s : State} (n : Nat) {a : Nat} (h : (Memory.read? s.rb.mem a).isSome) :
    (s.withEpoch n).cell a = s.cell a := by
  obtain ⟨b, hb⟩ := Option.isSome_iff_exists.1 h
  rw [State.cell_of_read? hb, State.cell_of_read? (s := s.withEpoch n) hb]

/-- A load within the occupied region (R24). -/
theorem State.load_withEpoch {s : State} (hRing : s.RingInv) (n : Nat) {skip k : Nat} (hk : skip + k ≤ s.occ ∨ k = 0) :
    (s.withEpoch n).load (s.rb.r + skip) k = s.load (s.rb.r + skip) k := by
  obtain ⟨-, -, -, -, hWritten⟩ := hRing
  refine State.load_congr rfl fun i hi => State.cell_withEpoch n ?_
  rw [Nat.add_assoc]
  exact hWritten (skip + i) (by omega)

theorem exec_ring_withEpoch {i : Instr} {s t : State} (n : Nat) (hRing : s.RingInv) (hSide : (encode i).format = .rbcmd)
    (hExec : exec i s = .next t) : exec i (s.withEpoch n) = .next (t.withEpoch n) := by
  cases i with
  | rbInit port | rbReset port =>
    obtain ⟨hw, hr, rfl⟩ := ifQuiescent_next hExec
    exact ifQuiescent_none hw hr
  | rbWrite data =>
    obtain ⟨hw, rfl⟩ := ifNotWriting_next hExec
    exact ifNotWriting_none hw
  | rbRead m =>
    obtain ⟨hr, -⟩ := ifNotReading_next hExec
    have hLoad := State.load_withEpoch hRing n (skip := 0) (k := min m s.occ) (by omega)
    rw [Nat.add_zero] at hLoad
    rw [exec_rbRead m hr] at hExec
    cases hExec
    rw [exec_rbRead (s := s.withEpoch n) m hr, ← hLoad]
    rfl
  | rbPeek skip m =>
    obtain ⟨hr, -⟩ := ifNotReading_next hExec
    have hLoad := State.load_withEpoch hRing n (skip := skip) (k := min m (s.occ - skip)) (by omega)
    rw [exec_rbPeek skip m hr] at hExec
    cases hExec
    rw [exec_rbPeek (s := s.withEpoch n) skip m hr, ← hLoad]
    rfl
  | rbFree port => cases hExec; cases port <;> rfl
  | rbOcc port => cases hExec; cases port <;> rfl
  | rbRsvd7 port =>
    rw [exec, execRbRsvd7] at hExec ⊢
    split at hExec
    · rename_i hReserved
      cases hExec
      rw [show (s.withEpoch n).cfg.reserved = .noOperation from hReserved]
      cases port <;> rfl
    · cases hExec
  | _ => cases hSide

/-! ### The parser's side -/

theorem State.publish_withEpoch (s : State) (n : Nat) : (s.withEpoch n).publish = s.publish.withEpoch n := by
  obtain ⟨hKind, h⟩ | ⟨hKind, h⟩ | ⟨hKind, h⟩ := s.publish_cases
  · rw [h, State.publish_of_gga (s := s.withEpoch n) hKind]; rfl
  · rw [h, State.publish_of_rmc (s := s.withEpoch n) hKind]; rfl
  · rw [h, State.publish_of_unknown (s := s.withEpoch n) hKind]; rfl

theorem State.byteCr_withEpoch (s : State) (n : Nat) : (s.withEpoch n).byteCr = s.byteCr.withEpoch n := by
  obtain ⟨hMatch, h⟩ | ⟨hMismatch, h⟩ := s.byteCr_cases
  · rw [h, State.byteCr_of_match (s := s.withEpoch n) hMatch, State.publish_withEpoch]
  · rw [h, State.byteCr_of_mismatch (s := s.withEpoch n) hMismatch]; rfl

theorem State.byteStep_withEpoch (s : State) (b : Byte) (n : Nat) :
    (s.withEpoch n).byteStep b = (s.byteStep b).withEpoch n := by
  obtain rfl | rfl | rfl | rfl | hPlain := byte_cases b
  · rfl
  · rfl
  · rfl
  · exact s.byteCr_withEpoch n
  · rw [State.byteStep_plain _ hPlain, State.byteStep_plain _ hPlain]; rfl

theorem State.byteSpan_withEpoch (bs : List Byte) (s : State) (n : Nat) :
    (s.withEpoch n).byteSpan bs = (s.byteSpan bs).withEpoch n := by
  induction bs generalizing s with
  | nil => rfl
  | cons b bs ih => rw [State.byteSpan_cons, State.byteStep_withEpoch, ih, State.byteSpan_cons]

theorem exec_parser_withEpoch {i : Instr} {s t : State} (n : Nat) (hSide : (encode i).format ≠ .rbcmd)
    (hExec : exec i s = .next t) : exec i (s.withEpoch n) = .next (t.withEpoch n) := by
  obtain ⟨bs, hBytes, hIdle, rfl⟩ | ⟨b, rfl, hIdle, rfl⟩ | ⟨rfl, rfl⟩ | ⟨rfl, hIdle, rfl⟩ | ⟨hTerm, rfl⟩ :=
    exec_parser_cases hSide hExec
  · rw [exec_of_carriedBytes _ hBytes, State.byteSpan_withEpoch]
    exact serially_none hIdle
  · exact serially_none hIdle
  · rfl
  · exact serially_none hIdle
  · exact exec_of_term _ hTerm

theorem exec_withEpoch {i : Instr} {s t : State} (n : Nat) (hRing : s.RingInv) (hExec : exec i s = .next t) :
    exec i (s.withEpoch n) = .next (t.withEpoch n) := by
  by_cases hSide : (encode i).format = .rbcmd
  · exact exec_ring_withEpoch n hRing hSide hExec
  · exact exec_parser_withEpoch n hSide hExec

/-! ### Micro-steps -/

theorem advanceWrite_of_lt {s : State} {x : WriteTransfer} (hx : s.writing = some x) (hLt : x.i < x.k) :
    advanceWrite s = .next (s.writeOne x) := by
  simp [advanceWrite, hx, hLt]

theorem advanceWrite_of_end {s : State} {x : WriteTransfer} (hx : s.writing = some x) (hEnd : ¬ x.i < x.k) :
    advanceWrite s = .next (s.writeCommit x) := by
  simp [advanceWrite, hx, hEnd]

theorem advanceRead_of_lt {s : State} {x : ReadTransfer} (hx : s.reading = some x) (hLt : x.out.length < x.k) :
    Machine.advanceRead s = .next (s.readMore x) := by
  simp [Machine.advanceRead, hx, hLt]

theorem advanceRead_of_commit {s : State} {x : ReadTransfer} (hx : s.reading = some x) (hEnd : ¬ x.out.length < x.k)
    (hCommits : x.commits = true) : Machine.advanceRead s = .next (s.readCommit x) := by
  simp [Machine.advanceRead, hx, hEnd, hCommits]

theorem advanceRead_of_peekEnd {s : State} {x : ReadTransfer} (hx : s.reading = some x) (hEnd : ¬ x.out.length < x.k)
    (hPeek : x.commits = false) : Machine.advanceRead s = .next (s.peekReturn x.out) := by
  simp [Machine.advanceRead, hx, hEnd, hPeek]

theorem begin_withEpoch {i : Instr} {s t : State} (n : Nat) (hRing : s.RingInv) (hBegin : begin i s = .next t) :
    begin i (s.withEpoch n) = .next (t.withEpoch n) := by
  cases i with
  | rbWrite data =>
    obtain ⟨hw, rfl⟩ := ifNotWriting_next hBegin
    exact ifNotWriting_none hw
  | rbRead m =>
    obtain ⟨hr, rfl⟩ := ifNotReading_next hBegin
    exact ifNotReading_none hr
  | rbPeek skip m =>
    obtain ⟨hr, rfl⟩ := ifNotReading_next hBegin
    refine (ifNotReading_none (s := s.withEpoch n) hr).trans (congrArg _ ?_)
    rw [apply_ite (State.withEpoch · n)]
    rfl
  | pProcess bytes =>
    obtain ⟨hIdle, rfl⟩ := serially_next hBegin
    refine (serially_none (s := s.withEpoch n) hIdle).trans (congrArg _ ?_)
    rw [apply_ite (State.withEpoch · n)]
    rfl
  | _ =>
    simp only [begin] at hBegin ⊢
    exact exec_withEpoch n hRing hBegin

/-- R2 and P2 read within the occupied region. -/
theorem State.readOne_withEpoch {s : State} {x : ReadTransfer} (n : Nat) (hRing : s.RingInv) (hSound : s.ReadSound x)
    (hLt : x.out.length < x.k) : (s.withEpoch n).readOne x = s.readOne x := by
  have hInside := hSound.skip_add_k_le_occ
  obtain ⟨hSnap, -⟩ := hSound
  obtain ⟨-, -, -, -, hWritten⟩ := hRing
  have hCell : (s.withEpoch n).cell ((x.r0 + x.skip + x.out.length) % s.cfg.C) =
      s.cell ((x.r0 + x.skip + x.out.length) % s.cfg.C) := by
    apply State.cell_withEpoch
    rw [hSnap, Nat.add_assoc]
    exact hWritten _ (by omega)
  exact congrArg (fun c => { x with out := x.out ++ [c] }) hCell

theorem State.readMore_withEpoch {s : State} {x : ReadTransfer} (n : Nat) (hRing : s.RingInv) (hSound : s.ReadSound x)
    (hLt : x.out.length < x.k) : (s.withEpoch n).readMore x = (s.readMore x).withEpoch n := by
  rw [State.readMore, State.readOne_withEpoch n hRing hSound hLt]
  rw [State.readMore, apply_ite (State.withEpoch · n)]
  rfl

theorem advance_withEpoch {lane : Lane} {s t : State} (n : Nat) (h : s.Inv) (hAdvance : advance lane s = .next t) :
    advance lane (s.withEpoch n) = .next (t.withEpoch n) := by
  obtain ⟨-, hRing, -, hRead, -⟩ := h
  cases lane with
  | write =>
    obtain ⟨x, hx, ⟨hLt, rfl⟩ | ⟨hEnd, rfl⟩⟩ := advanceWrite_next hAdvance
    · exact advanceWrite_of_lt (s := s.withEpoch n) hx hLt
    · exact advanceWrite_of_end (s := s.withEpoch n) hx hEnd
  | read =>
    obtain ⟨x, hx, ⟨hLt, rfl⟩ | ⟨hEnd, hCommits, rfl⟩ | ⟨hEnd, hPeek, rfl⟩⟩ := advanceRead_next hAdvance
    · rw [← State.readMore_withEpoch n hRing (hRead x hx) hLt]
      exact advanceRead_of_lt (s := s.withEpoch n) hx hLt
    · exact advanceRead_of_commit (s := s.withEpoch n) hx hEnd hCommits
    · exact advanceRead_of_peekEnd (s := s.withEpoch n) hx hEnd hPeek
  | parser =>
    obtain ⟨hSpan, rfl⟩ | ⟨b, bs, hSpan, rfl⟩ := advanceParser_next hAdvance
    · have hSpan' : (s.withEpoch n).spanning = some [] := hSpan
      rw [advance, advanceParser, hSpan']; rfl
    · refine (advanceParser_cons (s := s.withEpoch n) hSpan).trans ?_
      rw [State.byteStep_withEpoch]; rfl

end Sys2Proof.Machine

namespace Sys2Proof

open Machine

/-- Settles O53: operations by the occupied region alone; micro-steps by the invariant, which puts the cells of a
transfer into it. -/
theorem unwrittenCellsAreNeverRead : Obligations.UnwrittenCellsAreNeverRead := by
  refine ⟨fun i s t n hRing hExec => exec_withEpoch n hRing hExec, fun s t n h hNoReset hStep => ?step⟩
  case step =>
    show step (s.withEpoch n) = .next (t.withEpoch n)
    have hRing := h.2.1
    obtain ⟨hSched, rfl⟩ | ⟨tr, rest, i, hSched, hDecode, hExec⟩ | ⟨tr, rest, i, hSched, hDecode, hBegin⟩ |
      ⟨lane, rest, hSched, hAdvance⟩ | ⟨rest, hSched, -⟩ := step_cases hStep
    · exact step_of_nil hSched
    · rw [step_of_present (s := s.withEpoch n) hSched hDecode]
      exact exec_withEpoch (s := s.withSched rest) n hRing hExec
    · rw [step_of_start (s := s.withEpoch n) hSched hDecode]
      exact begin_withEpoch (s := s.withSched rest) n hRing hBegin
    · rw [step_of_cons (s := s.withEpoch n) hSched]
      exact advance_withEpoch (s := s.withSched rest) n h hAdvance
    · exact absurd hSched (hNoReset rest)

end Sys2Proof
end


section
/-!
PROOFS. Transfers back to back (20_memory.md section 6, R71 to R73, D19): the micro-steps of a write, a read or a peek with
nothing in between end where the whole operation ends.
-/
namespace Sys2Proof.Machine

/-! ### A write -/

/-- The transfer of a write whose W1 sees this state (R71). -/
def State.newWrite (s : State) (data : List Byte) : WriteTransfer :=
  { r0 := s.rb.r, w0 := s.rb.w, k := min data.length s.free, i := 0, data := data }

/-- The state after the rest of a write in progress: the bytes from number `x.i` on stored, then the commit. -/
def State.finishWrite (s : State) (x : WriteTransfer) : State :=
  (s.withRb { s.rb with
    mem := Memory.store s.cfg.C s.rb.mem (x.w0 + x.i) ((x.data.drop x.i).take (x.k - x.i)) }).writeCommit x

theorem State.finishWrite_of_end {s : State} {x : WriteTransfer} (hEnd : x.i = x.k) :
    s.finishWrite x = s.writeCommit x := by
  rw [State.finishWrite, hEnd, Nat.sub_self, List.take_zero, Memory.store_nil]
  rfl

/-- One more byte stored is one byte less of the rest. -/
theorem State.finishWrite_writeOne {s : State} {x : WriteTransfer} (hLt : x.i < x.k) (hk : x.k ≤ x.data.length) :
    (s.writeOne x).finishWrite { x with i := x.i + 1 } = s.finishWrite x := by
  have hData : x.i < x.data.length := by omega
  have hRest : (x.data.drop x.i).take (x.k - x.i) =
      charAt x.data x.i :: (x.data.drop (x.i + 1)).take (x.k - (x.i + 1)) := by
    rw [List.drop_eq_getElem_cons hData, show x.k - x.i = x.k - (x.i + 1) + 1 by omega, List.take_succ_cons]
    simp [charAt, hData]
  rw [State.finishWrite, State.finishWrite, hRest, Memory.store_cons]
  rfl

/-- From W2 number `x.i` on: the rest of the bytes and the commit. -/
theorem stepAll_advanceWrite (m : Nat) {s : State} {x : WriteTransfer} {rest : List Input} (hx : s.writing = some x)
    (hm : x.i + m = x.k) (hk : x.k ≤ x.data.length)
    (hSched : s.sched = List.replicate (m + 1) (.advance .write) ++ rest) :
    stepAll (m + 1) s = .next ((s.withSched rest).finishWrite x) := by
  induction m generalizing s x with
  | zero =>
    have hStep : step s = .next ((s.withSched rest).writeCommit x) :=
      (step_of_cons hSched).trans (advanceWrite_of_end hx (by omega))
    rw [stepAll_succ_of_next hStep, State.finishWrite_of_end (by omega)]
    rfl
  | succ m ih =>
    have hLt : x.i < x.k := by omega
    have hStep : step s = .next ((s.withSched (List.replicate (m + 1) (.advance .write) ++ rest)).writeOne x) :=
      (step_of_cons hSched).trans (advanceWrite_of_lt hx hLt)
    rw [stepAll_succ_of_next hStep, ih (x := { x with i := x.i + 1 }) rfl (by show x.i + 1 + m = x.k; omega) hk rfl,
      ← State.finishWrite_writeOne hLt hk]
    rfl

/-- Finished from its start, a write has stored its bytes and moved the cursor (R205). -/
theorem State.finishWrite_newWrite {s : State} (data : List Byte) (l : List Input) (hIdle : s.writing = none) :
    ((s.withSched l).withWriting (some (s.newWrite data))).finishWrite (s.newWrite data) =
      ((s.withSched l).storeAndAdvance data (min data.length s.free)).withProdOut ⟨min data.length s.free, []⟩ := by
  rw [State.finishWrite, State.writeCommit, ← hIdle]
  rfl

/-! ### A read or a peek -/

/-- The transfer of a read or a peek whose first micro-step sees this state (R72, R73). -/
def State.newRead (s : State) (commits : Bool) (skip k : Nat) : ReadTransfer :=
  { commits := commits, r0 := s.rb.r, w0 := s.rb.w, skip := skip, k := k, out := [] }

/-- The transfer with `m` more bytes moved. -/
def State.readMany (s : State) (x : ReadTransfer) (m : Nat) : ReadTransfer :=
  { x with out := x.out ++ s.load (x.r0 + x.skip + x.out.length) m }

@[simp] theorem State.readMany_zero (s : State) (x : ReadTransfer) : s.readMany x 0 = x := by
  simp [State.readMany, State.load]

@[simp] theorem State.readOne_length (s : State) (x : ReadTransfer) :
    (s.readOne x).out.length = x.out.length + 1 := by
  simp [State.readOne]

/-- One more byte moved is one byte less of the rest. -/
theorem State.readMany_readOne (s : State) (x : ReadTransfer) (m : Nat) :
    s.readMany (s.readOne x) m = s.readMany x (m + 1) := by
  have hLoad : s.load (x.r0 + x.skip + x.out.length) (m + 1) =
      [s.cell ((x.r0 + x.skip + x.out.length) % s.cfg.C)] ++ s.load (x.r0 + x.skip + (x.out.length + 1)) m := by
    rw [Nat.add_comm m 1, State.load_add]
    simp [State.load, Nat.add_assoc]
  rw [State.readMany, State.readOne_length, State.readMany, hLoad, ← List.append_assoc]
  rfl

theorem State.readMore_of_go {s : State} {x : ReadTransfer}
    (hGo : x.commits = true ∨ (s.readOne x).out.length < x.k) :
    s.readMore x = s.withReading (some (s.readOne x)) :=
  if_pos (by simpa using hGo)

theorem State.readMore_of_last {s : State} {x : ReadTransfer} (hPeek : x.commits = false)
    (hLast : ¬ (s.readOne x).out.length < x.k) : s.readMore x = s.peekReturn (s.readOne x).out :=
  if_neg (by simpa [hPeek] using hLast)

/-- A byte of a transfer that goes on. -/
theorem step_readOne {s : State} {x : ReadTransfer} {l : List Input} (hx : s.reading = some x)
    (hSched : s.sched = .advance .read :: l) (hLt : x.out.length < x.k)
    (hGo : x.commits = true ∨ (s.readOne x).out.length < x.k) :
    step s = .next ((s.withSched l).withReading (some (s.readOne x))) := by
  have hMore := State.readMore_of_go (s := s.withSched l) hGo
  exact (step_of_cons hSched).trans ((advanceRead_of_lt (s := s.withSched l) hx hLt).trans (congrArg _ hMore))

/-- From R2 number `x.out.length` on: the rest of the bytes and the commit. -/
theorem stepAll_advanceRead (m : Nat) {s : State} {x : ReadTransfer} {rest : List Input} (hx : s.reading = some x)
    (hCommits : x.commits = true) (hm : x.out.length + m = x.k)
    (hSched : s.sched = List.replicate (m + 1) (.advance .read) ++ rest) :
    stepAll (m + 1) s = .next ((s.withSched rest).readCommit (s.readMany x m)) := by
  induction m generalizing s x with
  | zero =>
    have hStep : step s = .next ((s.withSched rest).readCommit x) :=
      (step_of_cons hSched).trans (advanceRead_of_commit hx (by omega) hCommits)
    rw [stepAll_succ_of_next hStep, State.readMany_zero]
    rfl
  | succ m ih =>
    have hStep := step_readOne hx hSched (by omega) (.inl hCommits)
    have hCount : (s.readOne x).out.length + m = x.k := by rw [State.readOne_length]; omega
    rw [stepAll_succ_of_next hStep, ih (x := s.readOne x) rfl hCommits hCount rfl, ← State.readMany_readOne]
    rfl

/-- From P2 number `x.out.length` on: the rest of the bytes, the last of which ends the peek (log 15). -/
theorem stepAll_advancePeek (m : Nat) {s : State} {x : ReadTransfer} {rest : List Input} (hx : s.reading = some x)
    (hPeek : x.commits = false) (hm : x.out.length + (m + 1) = x.k)
    (hSched : s.sched = List.replicate (m + 1) (.advance .read) ++ rest) :
    stepAll (m + 1) s = .next ((s.withSched rest).peekReturn (s.readMany x (m + 1)).out) := by
  have hLength := s.readOne_length x
  induction m generalizing s x with
  | zero =>
    have hLast := State.readMore_of_last (s := s.withSched rest) (x := x) hPeek (by rw [State.readOne_length]; omega)
    have hStep : step s = .next ((s.withSched rest).peekReturn (s.readOne x).out) :=
      (step_of_cons hSched).trans ((advanceRead_of_lt (s := s.withSched rest) hx (by omega)).trans (congrArg _ hLast))
    rw [stepAll_succ_of_next hStep, ← State.readMany_readOne, State.readMany_zero]
    rfl
  | succ m ih =>
    have hStep := step_readOne hx hSched (by omega) (.inr (by omega))
    have hCount : (s.readOne x).out.length + (m + 1) = x.k := by omega
    rw [stepAll_succ_of_next hStep, ih (x := s.readOne x) rfl hPeek hCount rfl (State.readOne_length _ _), ← s.readMany_readOne x]
    rfl

/-- All bytes moved from the start are the load of the whole operation. -/
theorem State.readMany_newRead (s : State) (commits : Bool) (skip k m : Nat) :
    (s.readMany (s.newRead commits skip k) m).out = s.load (s.rb.r + skip) m := by
  simp [State.readMany, State.newRead]

/-- Committed after all its bytes, a read has returned them and moved the cursor (R206). -/
theorem State.readCommit_newRead {s : State} (k : Nat) (x : Option ReadTransfer) (hIdle : s.reading = none) :
    (s.withReading x).readCommit (s.readMany (s.newRead true 0 k) k) =
      (s.advanceRead k).withConsOut ⟨k, s.load s.rb.r k⟩ := by
  rw [State.readCommit, State.readMany_newRead, ← hIdle]
  rfl

/-- Ended after all its bytes, a peek has returned them (R207). -/
theorem State.peekReturn_load {s : State} (c k : Nat) (x : Option ReadTransfer) (hIdle : s.reading = none) :
    (s.withReading x).peekReturn (s.load c k) = s.withConsOut ⟨k, s.load c k⟩ := by
  rw [State.peekReturn, State.load_length, ← hIdle]
  rfl

/-- P1: a peek of no byte ends at once (R73; log 15). -/
theorem begin_rbPeek {s : State} (skip n : Nat) (hIdle : s.reading = none) :
    begin (.rbPeek skip n) s = .next (if min n (s.occ - skip) = 0 then s.peekReturn []
      else s.withReading (some (s.newRead false skip (min n (s.occ - skip))))) := by
  rw [State.occ, ← peekCount_eq]
  exact ifNotReading_none hIdle

end Sys2Proof.Machine

namespace Sys2Proof

open Machine

/-- Settles O54: the store of the whole write is the stores of its bytes, one by one. -/
theorem microStepsOfAWriteAreTheWholeWrite : Obligations.MicroStepsOfAWriteAreTheWholeWrite := by
  intro s data k rest hIdle hk hSched
  have hDecode : decode (encode (.rbWrite data)) = .ok (.rbWrite data) := decodeOfEncodeIsTheOperation _ rfl
  have hStart : step s = .next ((s.withSched (List.replicate (k + 1) (.advance .write) ++ rest)).withWriting
      (some (s.newWrite data))) :=
    (step_of_start hSched hDecode).trans (ifNotWriting_none (s := s.withSched _) hIdle)
  rw [stepAll_succ_of_next hStart, stepAll_advanceWrite k rfl ((Nat.zero_add k).trans hk) (Nat.min_le_left _ _) rfl,
    exec_rbWrite (s := s.withSched rest) data hIdle]
  exact congrArg _ (State.finishWrite_newWrite data rest hIdle)

/-- Settles O55: the load of the whole read or peek is the loads of its bytes, one by one. -/
theorem microStepsOfAReadAreTheWholeRead : Obligations.MicroStepsOfAReadAreTheWholeRead := by
  intro s skip n k rest hIdle
  have hIdle' : ∀ l, (s.withSched l).reading = none := fun _ => hIdle
  refine ⟨fun hk hSched => ?read, fun hk hSched => ?peek⟩
  case read =>
    subst hk
    have hDecode : decode (encode (.rbRead n)) = .ok (.rbRead n) := decodeOfEncodeIsTheOperation _ rfl
    have hStart := (step_of_start hSched hDecode).trans (ifNotReading_none (hIdle' _))
    rw [stepAll_succ_of_next hStart, stepAll_advanceRead _ rfl rfl (Nat.zero_add _) rfl,
      exec_rbRead (s := s.withSched rest) n hIdle]
    exact congrArg _ (State.readCommit_newRead (s := s.withSched rest) _ _ hIdle)
  case peek =>
    have hDecode : decode (encode (.rbPeek skip n)) = .ok (.rbPeek skip n) := decodeOfEncodeIsTheOperation _ rfl
    have hStart := (step_of_start hSched hDecode).trans (begin_rbPeek skip n (hIdle' _))
    have hWhole := exec_rbPeek (s := s.withSched rest) skip n hIdle
    have hCount : ∀ l, min n ((s.withSched l).occ - skip) = k := fun _ => hk.symm
    rw [hCount] at hStart hWhole
    rw [stepAll_succ_of_next hStart, hWhole]
    cases k with
    | zero => exact congrArg _ (State.peekReturn_load (s := s.withSched rest) _ 0 s.reading hIdle)
    | succ m =>
      rw [if_neg (Nat.succ_ne_zero m), stepAll_advancePeek m rfl rfl (Nat.zero_add _) rfl]
      exact congrArg _ (State.peekReturn_load (s := s.withSched rest) _ (m + 1) _ hIdle)

end Sys2Proof
end
